-- ==== Sys2Proof/Word.lean ====
section
/-! DEFINITION. The word types of the block: bytes, unsigned 16-bit values, positions, colours and
palettes (rules R9, R10, R21, R30 of the spec), with their plainest conversions. -/

namespace Sys2Proof

/-- `u8`: 8 bits (R9). A pixel, a received byte, a colour component, a glyph code. -/
abbrev Byte := BitVec 8

/-- `u16`: an unsigned 16-bit value (R9). Every coordinate and size operand. -/
abbrev U16 := BitVec 16

/-- `WIDTH`: 480 pixel columns (R7). -/
abbrev screenWidth : Nat := 480

/-- `HEIGHT`: 128 visible pixel rows (R7). -/
abbrev screenHeight : Nat := 128

/-- The largest value of a `u16`; a coordinate sum above it is refused (R9, R228, U10). -/
abbrev maxCoord : Nat := 65535

/-- A position `(x, y)`: column from the left edge, row from the top edge (R10). -/
structure Pos where
  x : U16
  y : U16
deriving DecidableEq, Repr, Inhabited

/-- One entry of the colour look-up table: a triple of `u8` (R30). -/
structure Rgb where
  r : Byte
  g : Byte
  b : Byte
deriving DecidableEq, Repr, Inhabited

/-- A palette `[bg, _, _, fg]`: four LUT indices handed to a text or image blit (R7, R13). -/
structure Palette where
  p0 : Byte
  p1 : Byte
  p2 : Byte
  p3 : Byte
deriving DecidableEq, Repr, Inhabited

end Sys2Proof
end

