-- ==== Sys2Proof/Config.lean ====
section
/-! DEFINITION. The implementation parameters of rule R8, which the spec leaves open: plain data
that no step changes, carried in `State.cfg` so that every claim about all states is a claim about
all parameters. The free values (constants with no body) stand at the end. -/

namespace Sys2Proof

/-- The two framebuffer instances (R24): `CON` (terminal) and `GFX` (graphics). -/
inductive Fb where
  | con
  | gfx
deriving DecidableEq, Repr, Inhabited

/-- One font table (R32): glyph cell size, the byte index of every glyph's first byte, and the
2-bit-per-pixel glyph data. Immutable. -/
structure Font where
  charW : Nat
  charH : Nat
  glyphOffset : Vector Nat 256
  glyphData : List Byte
deriving DecidableEq, Repr, Inhabited

/-- `CAP_KIND`: which back end the capability is (R8, R27, R240). -/
inductive CapKind where
  | software
  | blitter
deriving DecidableEq, Repr, Inhabited

/-- `CSI_OVERFLOW_AT` (R8, R128, D17): the 256th parameter byte drops the sequence (the default),
or the 257th does. -/
inductive CsiOverflow where
  | at256
  | at257
deriving DecidableEq, Repr, Inhabited

/-- `COPY_CLIP` (R8, R219, D10): the default, which keeps a copy a pure translation; the other
reading of "independently"; or any other function that has the properties P1 to P3. -/
inductive CopyClipKind where
  | translate
  | independent
  | other
deriving DecidableEq, Repr, Inhabited

/-- `COPY_OVERLAP` (R8, R242, D11, U5): the snapshot result for every overlap (the default), or any
value in the overlapped part of a copy whose destination follows its source in memory. -/
inductive CopyOverlap where
  | snapshot
  | anyValue
deriving DecidableEq, Repr, Inhabited

/-- The parameters of rule R8 that are fixed for one device. `FB_INIT` is not among them: it is the
pixel stores' contents at reset (`PowerOn` of Machine/State.lean). -/
structure Config where
  /-- `EXTRA_ROWS[CON]` (R8, R25). -/
  extraCon : Nat
  /-- `EXTRA_ROWS[GFX]` (R8, R25). -/
  extraGfx : Nat
  /-- `FONT[0..3]` (R32). -/
  fonts : Vector Font 4
  /-- `BANNER`, the boot-banner literal, of length at least 1 (R8, R134, U20). -/
  banner : List Byte
  csiOverflow : CsiOverflow
  capKind : CapKind
  copyClip : CopyClipKind
  copyOverlap : CopyOverlap
deriving DecidableEq, Repr, Inhabited

/-- `EXTRA_ROWS[f]`. -/
def Config.extraRows (c : Config) : Fb → Nat
  | .con => c.extraCon
  | .gfx => c.extraGfx

/-- The number of pixel rows of `FB[f].pixels`: `HEIGHT + EXTRA_ROWS[f]` (R25). -/
def Config.rows (c : Config) (f : Fb) : Nat := screenHeight + c.extraRows f

/-- The number of bytes of `FB[f].pixels`: `WIDTH*(HEIGHT+EXTRA_ROWS[f])` (R25). -/
def Config.storeSize (c : Config) (f : Fb) : Nat := screenWidth * c.rows f

/-- The number `CSI_OVERFLOW_AT` stands for (R128). -/
def CsiOverflow.limit : CsiOverflow → Nat
  | .at256 => 256
  | .at257 => 257

/-- The test font `TF0` of `95_test_vectors.md` section 2: 3 by 2 pixels, two bytes a glyph, blank
but for the codes 0x41, 0x42 and 0x43.
DESIGN CHOICE (unsafe for claims about `State.reset` only): see notes/assumptions/3.md. -/
def Font.tf0 : Font :=
  { charW := 3
    charH := 2
    glyphOffset := ⟨((List.range 256).map (fun c => 2 * c)).toArray, by simp⟩
    glyphData :=
      List.replicate 130 0 ++ [0xCC, 0x03, 0xFF, 0x0F, 0xE4, 0x0E] ++ List.replicate 376 0 }

/-- The parameter values `State.reset` carries: the spec's stand-ins of `95_test_vectors.md`
section 2 (`BANNER = "BOOT"`, font `TF0`, two extra rows) and the defaults of rule R8.
DESIGN CHOICE (unsafe for claims about `State.reset` only): see notes/assumptions/3.md. -/
def Config.standIn : Config :=
  { extraCon := 2
    extraGfx := 2
    fonts := Vector.replicate 4 Font.tf0
    banner := [0x42, 0x4F, 0x4F, 0x54]
    csiOverflow := .at256
    capKind := .software
    copyClip := .translate
    copyOverlap := .snapshot }

/-- A copy that is to be made, as `COPY_CLIP` answers it: source corner, destination corner, size
(R218, R219). -/
structure CopyJob where
  sx : Nat
  sy : Nat
  tx : Nat
  ty : Nat
  nx : Nat
  ny : Nat
deriving DecidableEq, Repr, Inhabited

/-- What `COPY_CLIP` is given: the clip corners and the operands of `COPYRECT` (R219). -/
structure CopyOperands where
  clip1 : Pos
  clip2 : Pos
  sx1 : U16
  sy1 : U16
  sx2 : U16
  sy2 : U16
  dx : U16
  dy : U16
deriving DecidableEq, Repr, Inhabited

/-- FREE VALUE (notes/assumptions/6.md): the answer of an unnamed `COPY_CLIP` function. It is used
only where it meets the properties P1 to P3 of R219. -/
opaque Config.freeCopyClip : CopyOperands → Option CopyJob

/-- FREE VALUE (notes/assumptions/7.md): the byte at column `i`, row `j` of the overlapped part of
the `n`-th overlapped copy, under `COPY_OVERLAP = anyValue` (U5). -/
opaque Config.freeOverlapByte : (n i j : Nat) → Byte

end Sys2Proof
end

