-- ==== Sys2Proof/Syntax.lean ====
section
/-! DEFINITION. The instructions: one constructor per mnemonic of `spec/opcode_table.json` (the four
rows of `CSI.PARAM` are the masks of one byte class, R108), and the two types that the reading of a
received byte depends on and leads to: the escape state and the events. -/

namespace Sys2Proof

/-- `ESC`, the escape state (R31): the source's tagged variant with its fields. -/
inductive EscState where
  /-- No sequence in flight. -/
  | idle
  /-- One `0x1B` has been taken. -/
  | sawEscape
  /-- `SCRATCH[0..pos)` holds the parameter bytes so far. -/
  | csi (pos : Nat)
  /-- `(0,0)` before the length byte; afterwards `SCRATCH[0..pos)` holds the frame bytes so far and
  `total = N + 1`. -/
  | binaryFrame (pos total : Nat)
  /-- The last `k` bytes taken equal `BANNER[0..k)`. -/
  | watching (k : Nat)
deriving DecidableEq, Repr, Inhabited

/-- What a FRAMER step emits for the environment (R121). Payloads are by value (R77). -/
inductive Event where
  /-- A byte for the terminal emulator's `process_char`. -/
  | char (b : Byte)
  /-- A CSI for the terminal emulator's `process_csi`: final byte and parameter bytes. -/
  | csi (final : Byte) (params : List Byte)
  /-- A whole binary frame for the command interpreter: `N`, command id, data. -/
  | frame (bytes : List Byte)
  /-- `Action::Reset` for the platform. -/
  | reset
deriving DecidableEq, Repr, Inhabited

/-- The instructions of the block: received bytes by escape state (format B, R91) and operation
records (format OP, R105). Coordinates and sizes are `u16`, colours and codes `u8`. -/
inductive Instr where
  /-- `IDLE.ESC` (R122): the byte `0x1B` in `Idle`. -/
  | idleEsc
  /-- `IDLE.CHAR` (R123): any other byte in `Idle`. -/
  | idleChar (b : Byte)
  /-- `ESC.ESC` (R124): `0x1B` in `SawEscape`. -/
  | escEsc
  /-- `ESC.CSI` (R125): `[` in `SawEscape`. -/
  | escCsi
  /-- `ESC.RI` (R126): `M` in `SawEscape`. -/
  | escRi
  /-- `ESC.OTHER` (R127): any other byte in `SawEscape`. -/
  | escOther (b : Byte)
  /-- `CSI.PARAM` (R128): a digit, `;` or `?` in `Csi(pos)`. -/
  | csiParam (b : Byte)
  /-- `CSI.FINAL` (R129): any byte in `Csi(pos)` that is no parameter byte and not `J`. -/
  | csiFinal (b : Byte)
  /-- `CSI.FINAL_J` (R130): `J` in `Csi(pos)`. -/
  | csiFinalJ
  /-- `BIN.LEN0` (R131): the length byte 0 in `BinaryFrame(0,0)`. -/
  | binLen0
  /-- `BIN.LEN` (R132): the length byte 1 to 255 in `BinaryFrame(0,0)`. -/
  | binLen (n : Byte)
  /-- `BIN.DATA` (R133): any byte in `BinaryFrame(pos,total)`, `1 <= pos < total`. -/
  | binData (b : Byte)
  /-- `WBB.MATCH` (R134): the banner byte `BANNER[k]` in `WatchingBootBanner(k)`. -/
  | wbbMatch (b : Byte)
  /-- `WBB.MISS` (R135): any other byte in `WatchingBootBanner(k)`. -/
  | wbbMiss (b : Byte)
  /-- `SETCLIP f, x1, y1, x2, y2` (R210). -/
  | setclip (f : Fb) (x1 y1 x2 y2 : U16)
  /-- `SETPIXEL f, x, y, c` (R211). -/
  | setpixel (f : Fb) (x y : U16) (c : Byte)
  /-- `LINE f, x1, y1, x2, y2, c` (R212). -/
  | line (f : Fb) (x1 y1 x2 y2 : U16) (c : Byte)
  /-- `RECT f, x1, y1, x2, y2, c` (R215), half-open. -/
  | rect (f : Fb) (x1 y1 x2 y2 : U16) (c : Byte)
  /-- `CLEAR f, c` (R216). -/
  | clear (f : Fb) (c : Byte)
  /-- `COPYRECT f, sx1, sy1, sx2, sy2, dx, dy` (R218). -/
  | copyrect (f : Fb) (sx1 sy1 sx2 sy2 dx dy : U16)
  /-- `TEXT f, x, y, k, pal, n, codes` (R220); the operand `n` is the length of `codes`. -/
  | text (f : Fb) (x y : U16) (k : Byte) (pal : Palette) (codes : List Byte)
  /-- `IMAGE f, x, y, w, h, pal, data` (R221). -/
  | image (f : Fb) (x y w h : U16) (pal : Palette) (data : List Byte)
  /-- `SCROLLUP f, h` (R222). -/
  | scrollup (f : Fb) (h : U16)
  /-- `ACTIVATE f` (R223). -/
  | activate (f : Fb)
  /-- `HFILL f, x1, y1, x2, y2, c` (R241): the capability's `fill_rect`, not clipped. -/
  | hfill (f : Fb) (x1 y1 x2 y2 : U16) (c : Byte)
  /-- `HCOPY f, sx, sy, dx, dy, nx, ny` (R242): the capability's `copy_rect`, not clipped. -/
  | hcopy (f : Fb) (sx sy dx dy nx ny : U16)
  /-- `HACT f` (R243): the capability's `activate`. -/
  | hact (f : Fb)
  /-- `LUTGEN` (R260). -/
  | lutgen
deriving DecidableEq, Repr, Inhabited

end Sys2Proof
end

