-- ==== Sys2Proof/WellFormed.lean ====
section
/-! DEFINITION. Which terms of `Instr` the encodings can express: the byte classes of rule R91 and
the lengths of the variable parts of rule R105. Every `u16` and `u8` operand value is encodable, so
the fixed operands need no check. -/

namespace Sys2Proof

/-- A CSI parameter byte: `0x30`–`0x39`, `0x3B` or `0x3F` (R91, R128). -/
def isParamByte (b : Byte) : Bool :=
  (0x30 ≤ b.toNat && b.toNat ≤ 0x39) || b == 0x3B || b == 0x3F

/-- The bytes of a 2-bit-per-pixel picture of `w` by `h` pixels: `ceil(w*h/4)` (R105, R217). -/
def pictureBytes (w h : Nat) : Nat := (w * h + 3) / 4

/-- The term is one that some encoding expresses (R91, R105). -/
def wellFormed : Instr → Bool
  | .idleEsc => true
  | .idleChar b => b != 0x1B
  | .escEsc => true
  | .escCsi => true
  | .escRi => true
  | .escOther b => b != 0x1B && b != 0x5B && b != 0x4D
  | .csiParam b => isParamByte b
  | .csiFinal b => !isParamByte b && b != 0x4A
  | .csiFinalJ => true
  | .binLen0 => true
  | .binLen n => n != 0
  | .binData _ => true
  | .wbbMatch _ => true
  | .wbbMiss _ => true
  | .setclip _ _ _ _ _ => true
  | .setpixel _ _ _ _ => true
  | .line _ _ _ _ _ _ => true
  | .rect _ _ _ _ _ _ => true
  | .clear _ _ => true
  | .copyrect _ _ _ _ _ _ _ => true
  | .text _ _ _ _ _ codes => decide (codes.length ≤ maxCoord)
  | .image _ _ _ w h _ data => data.length == pictureBytes w.toNat h.toNat
  | .scrollup _ _ => true
  | .activate _ => true
  | .hfill _ _ _ _ _ _ => true
  | .hcopy _ _ _ _ _ _ _ => true
  | .hact _ => true
  | .lutgen => true

end Sys2Proof
end

