-- ==== Sys2Proof/Decode.lean ====
section
/-! DEFINITION. The decoder: a received byte read by the escape state (R91) and an operation record
read from the ENGINE's port (R104, R105), both total, rejecting by name; then the encoder, written
from the same tables; then the reading of a bare word of `spec/opcode_table.json`. -/

namespace Sys2Proof

/-- Why a unit has no meaning. -/
inductive DecodeError where
  /-- The record's first byte is no opcode of R105 (R99, D28, U18). -/
  | undefinedOpcode
  /-- The record's second byte is neither 0 nor 1 (R99, D28, U18). -/
  | undefinedFramebuffer
  /-- The bytes at the ENGINE's port end inside a record: they are no record of R105 (U18), or an
  `IMAGE` with less data than `ceil(w*h/4)` bytes (U9). -/
  | truncatedRecord
  /-- The escape state holds fields outside the ranges of R31; no run reaches such a state. -/
  | illegalEscState
  /-- The banner watch with an empty `BANNER` (U20). -/
  | emptyBanner
deriving DecidableEq, Repr, Inhabited

/-- The classes of a received byte (R91). -/
inductive ByteClass where
  | idleEsc
  | idleChar
  | escEsc
  | escCsi
  | escRi
  | escOther
  | csiParam
  | csiFinal
  | csiFinalJ
  | binLen0
  | binLen
  | binData
  | wbbMatch
  | wbbMiss
deriving DecidableEq, Repr, Inhabited

/-- The fields of the escape state are in the ranges R31 gives them. -/
def EscState.legal (cfg : Config) : EscState → Bool
  | .idle => true
  | .sawEscape => true
  | .csi pos => decide (pos < cfg.csiOverflow.limit)
  | .binaryFrame pos total =>
      (pos == 0 && total == 0) || decide (1 ≤ pos ∧ pos < total ∧ total ≤ 256)
  | .watching k => decide (k < cfg.banner.length)

/-- R91: the class of a byte in an escape state, the rows of each state in the order given there. -/
def classify (cfg : Config) (esc : EscState) (b : Byte) : Except DecodeError ByteClass :=
  match esc with
  | .idle => .ok (if b = 0x1B then .idleEsc else .idleChar)
  | .sawEscape =>
      .ok (if b = 0x1B then .escEsc
        else if b = 0x5B then .escCsi
        else if b = 0x4D then .escRi
        else .escOther)
  | .csi pos =>
      if pos < cfg.csiOverflow.limit then
        .ok (if isParamByte b then .csiParam else if b = 0x4A then .csiFinalJ else .csiFinal)
      else .error .illegalEscState
  | .binaryFrame pos total =>
      if pos = 0 ∧ total = 0 then .ok (if b = 0x00 then .binLen0 else .binLen)
      else if 1 ≤ pos ∧ pos < total ∧ total ≤ 256 then .ok .binData
      else .error .illegalEscState
  | .watching k =>
      match cfg.banner[k]? with
      | some expected => .ok (if b = expected then .wbbMatch else .wbbMiss)
      | none => if cfg.banner = [] then .error .emptyBanner else .error .illegalEscState

/-- The instruction of a class and its byte. -/
def ByteClass.instr (b : Byte) : ByteClass → Instr
  | .idleEsc => .idleEsc
  | .idleChar => .idleChar b
  | .escEsc => .escEsc
  | .escCsi => .escCsi
  | .escRi => .escRi
  | .escOther => .escOther b
  | .csiParam => .csiParam b
  | .csiFinal => .csiFinal b
  | .csiFinalJ => .csiFinalJ
  | .binLen0 => .binLen0
  | .binLen => .binLen b
  | .binData => .binData b
  | .wbbMatch => .wbbMatch b
  | .wbbMiss => .wbbMiss b

/-- The FRAMER's decoder: the instruction a received byte is in an escape state (R91, R98). -/
def decodeByte (cfg : Config) (esc : EscState) (b : Byte) : Except DecodeError Instr :=
  match classify cfg esc b with
  | .ok c => .ok (c.instr b)
  | .error e => .error e

/-- A `u16` operand: two bytes, low byte first (R62, R104). -/
def u16OfBytes (lo hi : Byte) : U16 := hi ++ lo

/-- The `f` byte of a record: 0 is `CON`, 1 is `GFX` (R104). -/
def fbOfByte (b : Byte) : Option Fb :=
  if b = 0 then some .con else if b = 1 then some .gfx else none

/-- The first `n` bytes and the rest, if there are `n`. -/
def splitBytes (n : Nat) (bs : List Byte) : Option (List Byte × List Byte) :=
  if n ≤ bs.length then some (bs.take n, bs.drop n) else none

/-- The operands `x1,y1,x2,y2 : u16` (`SETCLIP`). -/
def decodeCorners (mk : U16 → U16 → U16 → U16 → Instr) :
    List Byte → Except DecodeError (Instr × List Byte)
  | a0 :: a1 :: b0 :: b1 :: c0 :: c1 :: d0 :: d1 :: rest =>
      .ok (mk (u16OfBytes a0 a1) (u16OfBytes b0 b1) (u16OfBytes c0 c1) (u16OfBytes d0 d1), rest)
  | _ => .error .truncatedRecord

/-- The operands `x1,y1,x2,y2 : u16; c : u8` (`LINE`, `RECT`, `HFILL`). -/
def decodeCornersColour (mk : U16 → U16 → U16 → U16 → Byte → Instr) :
    List Byte → Except DecodeError (Instr × List Byte)
  | a0 :: a1 :: b0 :: b1 :: c0 :: c1 :: d0 :: d1 :: c :: rest =>
      .ok (mk (u16OfBytes a0 a1) (u16OfBytes b0 b1) (u16OfBytes c0 c1) (u16OfBytes d0 d1) c, rest)
  | _ => .error .truncatedRecord

/-- Six `u16` operands (`COPYRECT`, `HCOPY`). -/
def decodeSix (mk : U16 → U16 → U16 → U16 → U16 → U16 → Instr) :
    List Byte → Except DecodeError (Instr × List Byte)
  | a0 :: a1 :: b0 :: b1 :: c0 :: c1 :: d0 :: d1 :: e0 :: e1 :: f0 :: f1 :: rest =>
      .ok (mk (u16OfBytes a0 a1) (u16OfBytes b0 b1) (u16OfBytes c0 c1) (u16OfBytes d0 d1)
        (u16OfBytes e0 e1) (u16OfBytes f0 f1), rest)
  | _ => .error .truncatedRecord

/-- The operands `x,y : u16; c : u8` (`SETPIXEL`). -/
def decodePixel (f : Fb) : List Byte → Except DecodeError (Instr × List Byte)
  | a0 :: a1 :: b0 :: b1 :: c :: rest =>
      .ok (.setpixel f (u16OfBytes a0 a1) (u16OfBytes b0 b1) c, rest)
  | _ => .error .truncatedRecord

/-- The operands `x,y : u16; k : u8; pal : u8[4]; n : u16; codes : u8[n]` (`TEXT`). -/
def decodeText (f : Fb) : List Byte → Except DecodeError (Instr × List Byte)
  | a0 :: a1 :: b0 :: b1 :: k :: p0 :: p1 :: p2 :: p3 :: n0 :: n1 :: rest =>
      match splitBytes (u16OfBytes n0 n1).toNat rest with
      | some (codes, rest') =>
          .ok (.text f (u16OfBytes a0 a1) (u16OfBytes b0 b1) k ⟨p0, p1, p2, p3⟩ codes, rest')
      | none => .error .truncatedRecord
  | _ => .error .truncatedRecord

/-- The operands `x,y,w,h : u16; pal : u8[4]; data : u8[ceil(w*h/4)]` (`IMAGE`). -/
def decodeImage (f : Fb) : List Byte → Except DecodeError (Instr × List Byte)
  | a0 :: a1 :: b0 :: b1 :: w0 :: w1 :: h0 :: h1 :: p0 :: p1 :: p2 :: p3 :: rest =>
      match splitBytes (pictureBytes (u16OfBytes w0 w1).toNat (u16OfBytes h0 h1).toNat) rest with
      | some (data, rest') =>
          .ok (.image f (u16OfBytes a0 a1) (u16OfBytes b0 b1) (u16OfBytes w0 w1)
            (u16OfBytes h0 h1) ⟨p0, p1, p2, p3⟩ data, rest')
      | none => .error .truncatedRecord
  | _ => .error .truncatedRecord

/-- `c : u8` (`CLEAR`). -/
def decodeClear (f : Fb) : List Byte → Except DecodeError (Instr × List Byte)
  | c :: rest => .ok (.clear f c, rest)
  | _ => .error .truncatedRecord

/-- `h : u16` (`SCROLLUP`). -/
def decodeScroll (f : Fb) : List Byte → Except DecodeError (Instr × List Byte)
  | h0 :: h1 :: rest => .ok (.scrollup f (u16OfBytes h0 h1), rest)
  | _ => .error .truncatedRecord

/-- An opcode of R105 that is followed by an `f` byte. -/
def isFramebufferOpcode (opc : Byte) : Bool :=
  decide (opc.toNat ≤ 0x09) || decide (0x10 ≤ opc.toNat ∧ opc.toNat ≤ 0x12)

/-- The operands after `f`, by opcode (R105). -/
def decodeOperands (opc : Byte) (f : Fb) (bs : List Byte) :
    Except DecodeError (Instr × List Byte) :=
  if opc = 0x00 then decodeCorners (Instr.setclip f) bs
  else if opc = 0x01 then decodePixel f bs
  else if opc = 0x02 then decodeCornersColour (Instr.line f) bs
  else if opc = 0x03 then decodeCornersColour (Instr.rect f) bs
  else if opc = 0x04 then decodeClear f bs
  else if opc = 0x05 then decodeSix (Instr.copyrect f) bs
  else if opc = 0x06 then decodeText f bs
  else if opc = 0x07 then decodeImage f bs
  else if opc = 0x08 then decodeScroll f bs
  else if opc = 0x09 then .ok (.activate f, bs)
  else if opc = 0x10 then decodeCornersColour (Instr.hfill f) bs
  else if opc = 0x11 then decodeSix (Instr.hcopy f) bs
  else if opc = 0x12 then .ok (.hact f, bs)
  else .error .undefinedOpcode

/-- The decoder of an operation record (R104, R105): the first record of the bytes at the ENGINE's
port and what follows it. Undefined records are rejected by name (R99). -/
def decodeOp : List Byte → Except DecodeError (Instr × List Byte)
  | [] => .error .truncatedRecord
  | opc :: bs =>
      if opc = 0x20 then .ok (.lutgen, bs)
      else if isFramebufferOpcode opc then
        match bs with
        | [] => .error .truncatedRecord
        | fb :: bs' =>
            match fbOfByte fb with
            | some f => decodeOperands opc f bs'
            | none => .error .undefinedFramebuffer
      else .error .undefinedOpcode

/-! ## The encoder -/

/-- A `u16` operand as bytes, low byte first (R104). -/
def bytesOfU16 (v : U16) : List Byte := [v.extractLsb' 0 8, v.extractLsb' 8 8]

/-- The `f` byte (R104). -/
def byteOfFb : Fb → Byte
  | .con => 0
  | .gfx => 1

/-- The palette operand, slot 0 first (R105). -/
def bytesOfPalette (p : Palette) : List Byte := [p.p0, p.p1, p.p2, p.p3]

/-- The bytes of an instruction: the received byte of format B (R91), or the record of format OP
(R104, R105). -/
def encode : Instr → List Byte
  | .idleEsc => [0x1B]
  | .idleChar b => [b]
  | .escEsc => [0x1B]
  | .escCsi => [0x5B]
  | .escRi => [0x4D]
  | .escOther b => [b]
  | .csiParam b => [b]
  | .csiFinal b => [b]
  | .csiFinalJ => [0x4A]
  | .binLen0 => [0x00]
  | .binLen n => [n]
  | .binData b => [b]
  | .wbbMatch b => [b]
  | .wbbMiss b => [b]
  | .setclip f x1 y1 x2 y2 =>
      [0x00, byteOfFb f] ++ bytesOfU16 x1 ++ bytesOfU16 y1 ++ bytesOfU16 x2 ++ bytesOfU16 y2
  | .setpixel f x y c => [0x01, byteOfFb f] ++ bytesOfU16 x ++ bytesOfU16 y ++ [c]
  | .line f x1 y1 x2 y2 c =>
      [0x02, byteOfFb f] ++ bytesOfU16 x1 ++ bytesOfU16 y1 ++ bytesOfU16 x2 ++ bytesOfU16 y2 ++ [c]
  | .rect f x1 y1 x2 y2 c =>
      [0x03, byteOfFb f] ++ bytesOfU16 x1 ++ bytesOfU16 y1 ++ bytesOfU16 x2 ++ bytesOfU16 y2 ++ [c]
  | .clear f c => [0x04, byteOfFb f, c]
  | .copyrect f sx1 sy1 sx2 sy2 dx dy =>
      [0x05, byteOfFb f] ++ bytesOfU16 sx1 ++ bytesOfU16 sy1 ++ bytesOfU16 sx2 ++ bytesOfU16 sy2 ++
        bytesOfU16 dx ++ bytesOfU16 dy
  | .text f x y k pal codes =>
      [0x06, byteOfFb f] ++ bytesOfU16 x ++ bytesOfU16 y ++ [k] ++ bytesOfPalette pal ++
        bytesOfU16 (BitVec.ofNat 16 codes.length) ++ codes
  | .image f x y w h pal data =>
      [0x07, byteOfFb f] ++ bytesOfU16 x ++ bytesOfU16 y ++ bytesOfU16 w ++ bytesOfU16 h ++
        bytesOfPalette pal ++ data
  | .scrollup f h => [0x08, byteOfFb f] ++ bytesOfU16 h
  | .activate f => [0x09, byteOfFb f]
  | .hfill f x1 y1 x2 y2 c =>
      [0x10, byteOfFb f] ++ bytesOfU16 x1 ++ bytesOfU16 y1 ++ bytesOfU16 x2 ++ bytesOfU16 y2 ++ [c]
  | .hcopy f sx sy dx dy nx ny =>
      [0x11, byteOfFb f] ++ bytesOfU16 sx ++ bytesOfU16 sy ++ bytesOfU16 dx ++ bytesOfU16 dy ++
        bytesOfU16 nx ++ bytesOfU16 ny
  | .hact f => [0x12, byteOfFb f]
  | .lutgen => [0x20]

/-- The record length column of R105 (1 for a received byte, R98). -/
def encodedLength : Instr → Nat
  | .idleEsc => 1
  | .idleChar _ => 1
  | .escEsc => 1
  | .escCsi => 1
  | .escRi => 1
  | .escOther _ => 1
  | .csiParam _ => 1
  | .csiFinal _ => 1
  | .csiFinalJ => 1
  | .binLen0 => 1
  | .binLen _ => 1
  | .binData _ => 1
  | .wbbMatch _ => 1
  | .wbbMiss _ => 1
  | .setclip _ _ _ _ _ => 10
  | .setpixel _ _ _ _ => 7
  | .line _ _ _ _ _ _ => 11
  | .rect _ _ _ _ _ _ => 11
  | .clear _ _ => 3
  | .copyrect _ _ _ _ _ _ _ => 14
  | .text _ _ _ _ _ codes => 13 + codes.length
  | .image _ _ _ w h _ _ => 14 + pictureBytes w.toNat h.toNat
  | .scrollup _ _ => 4
  | .activate _ => 2
  | .hfill _ _ _ _ _ _ => 11
  | .hcopy _ _ _ _ _ _ _ => 14
  | .hact _ => 2
  | .lutgen => 1

/-- The instruction is an operation record (format OP), not a received byte (format B). -/
def isOperation : Instr → Bool
  | .idleEsc => false
  | .idleChar _ => false
  | .escEsc => false
  | .escCsi => false
  | .escRi => false
  | .escOther _ => false
  | .csiParam _ => false
  | .csiFinal _ => false
  | .csiFinalJ => false
  | .binLen0 => false
  | .binLen _ => false
  | .binData _ => false
  | .wbbMatch _ => false
  | .wbbMiss _ => false
  | .setclip _ _ _ _ _ => true
  | .setpixel _ _ _ _ => true
  | .line _ _ _ _ _ _ => true
  | .rect _ _ _ _ _ _ => true
  | .clear _ _ => true
  | .copyrect _ _ _ _ _ _ _ => true
  | .text _ _ _ _ _ _ => true
  | .image _ _ _ _ _ _ _ => true
  | .scrollup _ _ => true
  | .activate _ => true
  | .hfill _ _ _ _ _ _ => true
  | .hcopy _ _ _ _ _ _ _ => true
  | .hact _ => true
  | .lutgen => true

/-- A binary frame on the wire (R96, R139): `ESC ESC N cmd data`, `N = data_len + 1`. -/
def wireFrame (cmd : Byte) (data : List Byte) : List Byte :=
  [0x1B, 0x1B, BitVec.ofNat 8 (data.length + 1), cmd] ++ data

/-- A CSI sequence on the wire (R94): `ESC [`, parameter bytes, final byte. -/
def wireCsi (params : List Byte) (final : Byte) : List Byte := [0x1B, 0x5B] ++ params ++ [final]

/-! ## A bare word of the opcode table

A row of the table is told by more than its bits: by the unit that takes the word (a received byte
or an operation record) and, for a byte, by the escape state. `wordPlace` says which place a bare
word is read in: notes/assumptions/9.md. -/

/-- Where a bare word is read. -/
inductive WordPlace where
  /-- A received byte, in this escape state. -/
  | byte (esc : EscState)
  /-- An operation record at the ENGINE's port. -/
  | record
deriving DecidableEq, Repr

/-- Byte `i` of a word whose first byte is the least significant. -/
def wordByte (w i : Nat) : Byte := BitVec.ofNat 8 (w / 256 ^ i)

/-- The place of a word of `nbits` bits. A word of more than one byte is a record. A one-byte word
is a received byte where a row of format B fixes that value (in the escape state of that row), else
a record where it is an opcode of R105, else a received byte in `Idle`. -/
def wordPlace (nbits w : Nat) : WordPlace :=
  let b := wordByte w 0
  if 8 < nbits then .record
  else if b = 0x1B then .byte .idle
  else if b = 0x5B ∨ b = 0x4D then .byte .sawEscape
  else if isParamByte b ∨ b = 0x4A then .byte (.csi 0)
  else if b = 0x00 then .byte (.binaryFrame 0 0)
  else if isFramebufferOpcode b ∨ b = 0x20 then .record
  else .byte .idle

/-- The bytes after the opcode byte that a record's length depends on are at most at offset 12, so
14 bytes (the longest fixed record) always tell the length of a record (R105). -/
def wordHeader (w : Nat) : List Byte := (List.range 14).map (wordByte w)

/-- The number of bytes of the record that begins with these 14 bytes (R105); of bytes that begin
no record, one. -/
def recordLength (bs : List Byte) : Nat :=
  let at' (i : Nat) : Byte := bs.getD i 0
  let opc := at' 0
  if opc = 0x00 then 10
  else if opc = 0x01 then 7
  else if opc = 0x02 then 11
  else if opc = 0x03 then 11
  else if opc = 0x04 then 3
  else if opc = 0x05 then 14
  else if opc = 0x06 then 13 + (u16OfBytes (at' 11) (at' 12)).toNat
  else if opc = 0x07 then
    14 + pictureBytes (u16OfBytes (at' 6) (at' 7)).toNat (u16OfBytes (at' 8) (at' 9)).toNat
  else if opc = 0x08 then 4
  else if opc = 0x09 then 2
  else if opc = 0x10 then 11
  else if opc = 0x11 then 14
  else if opc = 0x12 then 2
  else 1

/-- The record a word stands for: its bytes, first byte the least significant, every byte above
the word 0. -/
def wordRecord (w : Nat) : List Byte :=
  (List.range (recordLength (wordHeader w))).map (wordByte w)

/-- The instruction the decoder reads from a bare word of `spec/opcode_table.json`. The parameters
play no part: no place of `wordPlace` is the banner watch. -/
def decodeTableWord (nbits w : Nat) : Option Instr :=
  match wordPlace nbits w with
  | .byte esc => (decodeByte Config.standIn esc (wordByte w 0)).toOption
  | .record => (decodeOp (wordRecord w)).toOption.map (·.1)

end Sys2Proof
end

