-- ==== Sys2Proof/Machine/State.lean ====
section
/-! DEFINITION. The state of the block as plain data: every element of rule R20, the parameters of
rule R8 (`cfg`), the two inputs and the event output of rules R77, R78 and R121, and the reset state
of rule R37. -/

namespace Sys2Proof.Machine

open Sys2Proof

/-- A pixel store (R25, R60, R61): `(offset, byte)` pairs, offsets strictly rising, no pair whose
byte is what an unlisted offset reads as (`unlistedByte` of Machine/Ops.lean). -/
structure Memory where
  cells : List Host.Cell
deriving DecidableEq, Repr, Inhabited

/-- One framebuffer (R24): its pixel store and its clip rectangle `[clip1, clip2)` (R26). Width,
height and the back end are constants or parameters (R24, R27). -/
structure Framebuffer where
  pixels : Memory
  clip1 : Pos
  clip2 : Pos
deriving DecidableEq, Repr, Inhabited

/-- The state of the block (R20). The last four fields are the model's own: the block's inputs and
output as queues, and the counter of the free values. -/
structure State where
  /-- The parameters of R8, `FONT[0..3]` of R20 and R32 among them; no step changes them. -/
  cfg : Config
  /-- `FB[CON]` (R24). -/
  con : Framebuffer
  /-- `FB[GFX]` (R24). -/
  gfx : Framebuffer
  /-- `ACTIVE` (R28): `none`, `CON` or `GFX`. -/
  active : Option Fb
  /-- `CURSOR_EN` (R29). -/
  cursorEn : Bool
  /-- `LUT` (R30). -/
  lut : Vector Rgb 256
  /-- `ESC` (R31). -/
  esc : EscState
  /-- `SCRATCH` (R33). -/
  scratch : Vector Byte 256
  /-- `BLIT_BUSY` (R34). -/
  blitBusy : Bool
  /-- The received bytes the FRAMER has not taken yet, oldest first (R78). -/
  rx : List Byte
  /-- The operation records issued at the ENGINE's port and not yet run, as bytes (R77, R104). -/
  ops : List Byte
  /-- The events emitted and not yet taken by the environment, oldest first (R121). -/
  events : List Event
  /-- The model's own counter of free values (notes/assumptions/7.md). -/
  free : Nat
deriving DecidableEq, Repr, Inhabited

/-- What stops the block. The block itself raises no fault (R270). -/
inductive Fault where
  /-- The banner replay nested deeper than the fuel `len(BANNER) + 1` of R136. R136 says it never
  does; raised by `framerStep` (Machine/Framer.lean). Safe: the model stops where the rule says the
  replay ends. -/
  | replayDepthExceeded
deriving DecidableEq, Repr, Inhabited

/-- Why a unit is refused: the situations to which the spec gives no meaning (R274). All are safe:
the model stops, no value is invented. -/
inductive Refusal where
  /-- An instruction that has no meaning in this model; no arm of `exec` uses it. Safe. -/
  | notModelled (mnemonic : String)
  /-- The bytes fetched denote nothing (R99, U9, U18, U20); raised by `step`. Safe. -/
  | undecodable (why : DecodeError)
  /-- A FRAMER instruction in an escape state other than the one its row of R91 names; raised by its
  meaning, never by `step`, which selects the row by the state. Safe. -/
  | notInThisState
  /-- `SETCLIP` with operands that break the clip invariant (R210, U6). Safe. -/
  | clipOperands
  /-- A clipped operation while the clip rectangle breaks the invariant of R26; no run reaches such
  a state. Safe. -/
  | illegalClipState
  /-- `SCROLLUP` with `h > EXTRA_ROWS[f]` (R222, U7). Safe. -/
  | beyondExtraRows
  /-- A direct `HFILL` or `HCOPY` whose rectangle leaves the backing store or is inverted (R240,
  R241, U8). Safe. -/
  | outsideStore
  /-- `TEXT` with font index 4 or more (R220, U9). Safe. -/
  | fontIndex
  /-- `TEXT` with a font that is not well-formed (R32, U9). Safe. -/
  | illFormedFont
  /-- `IMAGE` with less data than `ceil(w*h/4)` bytes (R217, U9). Safe. -/
  | shortImageData
  /-- A coordinate sum above 65535 (R9, R228, U10). Safe. -/
  | coordinateOverflow
deriving DecidableEq, Repr, Inhabited

/-- The outcome of a step of this machine. -/
abbrev Outcome : Type := Host.Outcome State Fault Refusal

/-- The contents that R37 leaves unspecified at reset: `FB_INIT[f]`, `CURSOR_EN`, `LUT`,
`SCRATCH`. -/
structure PowerOn where
  conPixels : Memory
  gfxPixels : Memory
  cursorEn : Bool
  lut : Vector Rgb 256
  scratch : Vector Byte 256
deriving DecidableEq, Repr, Inhabited

/-- The reset state of R37 for given parameters and given unspecified contents. -/
def State.powerOn (cfg : Config) (p : PowerOn) : State :=
  { cfg := cfg
    con := { pixels := p.conPixels, clip1 := ⟨0, 0⟩, clip2 := ⟨480, 128⟩ }
    gfx := { pixels := p.gfxPixels, clip1 := ⟨0, 0⟩, clip2 := ⟨480, 128⟩ }
    active := none
    cursorEn := p.cursorEn
    lut := p.lut
    esc := .idle
    scratch := p.scratch
    blitBusy := false
    rx := []
    ops := []
    events := []
    free := 0 }

/-- The unspecified contents as `State.reset` has them: all zero.
DESIGN CHOICE (unsafe for claims about `State.reset` only): notes/assumptions/1.md, 2.md. -/
def PowerOn.zero : PowerOn :=
  { conPixels := ⟨[]⟩
    gfxPixels := ⟨[]⟩
    cursorEn := false
    lut := Vector.replicate 256 ⟨0, 0, 0⟩
    scratch := Vector.replicate 256 0 }

/-- The machine right after reset (R37, R300). -/
def State.reset : State := State.powerOn Config.standIn PowerOn.zero

end Sys2Proof.Machine
end

