-- ==== Sys2Proof/Machine/Ops.lean ====
section
/-! DEFINITION. The named operations over the pixel stores and the state. The block takes no
exception and returns from none (R270, R277, R278), so there is no exception operation here; the
`Reset` event (R137) is an output like any other. -/

namespace Sys2Proof.Machine

open Sys2Proof

/-! ## Pixel stores -/

/-- What an offset that is not listed reads as. DESIGN CHOICE (unsafe for claims about
`State.reset` only, notes/assumptions/1.md): the spec leaves `FB_INIT` open. -/
def unlistedByte : Byte := 0

/-- The byte listed for an offset, or `unlistedByte`. -/
def lookupCell : List Host.Cell → Nat → Byte
  | [], _ => unlistedByte
  | (k, v) :: rest, a => if k = a then v else lookupCell rest a

/-- One byte of a store (R61). -/
def Memory.read (m : Memory) (a : Nat) : Byte := lookupCell m.cells a

/-- The pairs that consecutive bytes from an offset are listed as. -/
def runCells : Nat → List Byte → List Host.Cell
  | _, [] => []
  | o, b :: bs => if b = unlistedByte then runCells (o + 1) bs else (o, b) :: runCells (o + 1) bs

/-- Replace the bytes at consecutive offsets from `o`, keeping the canonical form (R61, R64). -/
def Memory.store (m : Memory) (o : Nat) (bs : List Byte) : Memory :=
  if bs = [] then m
  else ⟨m.cells.filter (fun p => p.1 < o) ++ runCells o bs ++
    m.cells.filter (fun p => o + bs.length ≤ p.1)⟩

/-- Replace one byte (R61). -/
def Memory.write (m : Memory) (a : Nat) (b : Byte) : Memory := m.store a [b]

/-- The `n` bytes at consecutive offsets from `o` (R61). -/
def Memory.load (m : Memory) (o n : Nat) : List Byte :=
  let near := m.cells.filter (fun p => decide (o ≤ p.1) && decide (p.1 < o + n))
  (List.range' o n).map (lookupCell near)

/-- Pairs in canonical form whose offsets are `lo` or more. -/
def cellsWf : Nat → List Host.Cell → Bool
  | _, [] => true
  | lo, (k, v) :: rest => decide (lo ≤ k) && v != unlistedByte && cellsWf (k + 1) rest

/-- The canonical form of a store: offsets strictly rising, no listed byte equal to
`unlistedByte`. -/
def Memory.wf (m : Memory) : Bool := cellsWf 0 m.cells

/-- No listed offset is `n` or more: the store has `n` bytes (R25). -/
def Memory.within (m : Memory) (n : Nat) : Bool := m.cells.all (fun p => decide (p.1 < n))

/-- The offset of pixel `(x, y)`: `y*WIDTH + x`, row-major without padding (R25, R61). -/
def pixelOffset (x y : Nat) : Nat := y * screenWidth + x

/-! ## State accessors -/

/-- `FB[f]` (R24). -/
def State.fb (s : State) : Fb → Framebuffer
  | .con => s.con
  | .gfx => s.gfx

/-- Replace `FB[f]`. -/
def State.setFb (s : State) (f : Fb) (b : Framebuffer) : State :=
  match f with
  | .con => { s with con := b }
  | .gfx => { s with gfx := b }

/-- Replace `FB[f].pixels`. -/
def State.setPixels (s : State) (f : Fb) (m : Memory) : State :=
  s.setFb f { s.fb f with pixels := m }

/-- `PixRead(f, x, y)` (R11, R61). -/
def State.pixel (s : State) (f : Fb) (x y : Nat) : Byte := (s.fb f).pixels.read (pixelOffset x y)

/-- `PixWrite(f, x, y, c)` (R11, R61). -/
def State.putPixel (s : State) (f : Fb) (x y : Nat) (c : Byte) : State :=
  s.setPixels f ((s.fb f).pixels.write (pixelOffset x y) c)

/-- Write `FB[f].clip1` and `FB[f].clip2` (R210). -/
def State.setClip (s : State) (f : Fb) (c1 c2 : Pos) : State :=
  s.setFb f { s.fb f with clip1 := c1, clip2 := c2 }

/-- `emit E`: append an event to the output (R11, R121). -/
def State.emit (s : State) (e : Event) : State := { s with events := s.events ++ [e] }

/-- `S.ESC <- v`. -/
def State.setEsc (s : State) (e : EscState) : State := { s with esc := e }

/-- `S.SCRATCH[i] <- b`; `SCRATCH` has 256 bytes and no other index exists (R33, C9). -/
def State.setScratch (s : State) (i : Nat) (b : Byte) : State :=
  { s with scratch := s.scratch.setIfInBounds i b }

/-- `SCRATCH[0..n)`, a copy of the bytes (R77). -/
def State.scratchBytes (s : State) (n : Nat) : List Byte := s.scratch.toList.take n

/-- The clip rectangle obeys the invariant of R26. -/
def clipLegal (c1 c2 : Pos) : Bool :=
  decide (c1.x.toNat ≤ c2.x.toNat ∧ c2.x.toNat ≤ screenWidth ∧
    c1.y.toNat ≤ c2.y.toNat ∧ c2.y.toNat ≤ screenHeight)

/-- The clip rectangle of `FB[f]` obeys the invariant of R26. -/
def State.clipOk (s : State) (f : Fb) : Bool := clipLegal (s.fb f).clip1 (s.fb f).clip2

/-- The pixel `(x, y)` lies in the half-open clip rectangle `[clip1, clip2)` (R10, R26). -/
def Framebuffer.inClip (b : Framebuffer) (x y : Nat) : Bool :=
  decide (b.clip1.x.toNat ≤ x ∧ x < b.clip2.x.toNat ∧ b.clip1.y.toNat ≤ y ∧ y < b.clip2.y.toNat)

/-! ## Software path: pixels through SETPIXEL (R211, R226) -/

/-- A pixel to draw: position and colour. -/
structure Pixel where
  x : Nat
  y : Nat
  c : Byte
deriving DecidableEq, Repr, Inhabited

/-- R211: write the pixel if it lies in the clip rectangle, else nothing. -/
def plot (s : State) (f : Fb) (p : Pixel) : State :=
  if (s.fb f).inClip p.x p.y then s.putPixel f p.x p.y p.c else s

/-- Draw pixels one after the other, in order (R70 (d), R226). -/
def plotAll (s : State) (f : Fb) (ps : List Pixel) : State := ps.foldl (fun t p => plot t f p) s

/-! ## What the active buffer shows -/

/-- R265: a pixel byte of the active framebuffer is shown as the colour `LUT[p]`; nothing is active
before the first `ACTIVATE` (R28). An observation between operations (R73); no step reads it.
DESIGN CHOICE (safe, notes/assumptions/12.md): the spec does not say what is shown at a position off
the 480 by 128 screen; such a position names no visible pixel (R25, R61), and the answer is `none`. -/
def State.shownColour (s : State) (x y : Nat) : Option Rgb :=
  if x < screenWidth ∧ y < screenHeight then
    s.active.map (fun f => s.lut[(s.pixel f x y).toNat]'(s.pixel f x y).isLt)
  else none

end Sys2Proof.Machine

namespace Sys2Proof

/-- The packed form of a LUT entry, `(r << 16) | (g << 8) | b` (R30, D22). -/
def Rgb.packed (e : Rgb) : BitVec 24 :=
  (e.r.setWidth 24 <<< 16) ||| (e.g.setWidth 24 <<< 8) ||| e.b.setWidth 24

end Sys2Proof
end

