-- ==== Sys2Proof/Machine/Flags.lean ====
section
/-! DEFINITION. Flags. The block has no condition codes and no operation writes a status flag as a
side effect (R23); the one flag it owns is `CURSOR_EN` (R29), and `BLIT_BUSY` is the blitter's hidden
completion flag (R34). -/

namespace Sys2Proof.Machine

open Sys2Proof

/-- The value `ACTIVATE f` gives `CURSOR_EN`: 1 for the console, 0 for graphics (R29, R223, C4). -/
def cursorFlagFor : Fb → Bool
  | .con => true
  | .gfx => false

/-- `S.CURSOR_EN <- v` (R29). -/
def State.setCursorEn (s : State) (v : Bool) : State := { s with cursorEn := v }

/-- `S.BLIT_BUSY <- v` (R34). -/
def State.setBlitBusy (s : State) (v : Bool) : State := { s with blitBusy := v }

end Sys2Proof.Machine
end

