-- ==== Sys2Proof/Machine/Operands.lean ====
section
/-! DEFINITION. Operand forms: the packed position (R100), the clipping of rectangle operands (R214)
and of copy operands (R219), palette selection (R217), font selection (R32). -/

namespace Sys2Proof

/-! ## The packed position -/

/-- `pos_to_bytes(x, y)` (R100), for `x < 512`, `y < 128`. -/
def posToBytes (p : Pos) : Byte × Byte :=
  (((p.y <<< 1) ||| (p.x >>> 8)).setWidth 8, p.x.setWidth 8)

/-- `pos_from_bytes(b0, b1)` (R100): 9 bits of `x`, 7 bits of `y`. -/
def posFromBytes (b0 b1 : Byte) : Pos :=
  { x := ((b0 &&& 1).setWidth 16 <<< 8) ||| b1.setWidth 16
    y := (b0 >>> 1).setWidth 16 }

/-! ## Rectangles -/

/-- A half-open rectangle `[(x1,y1),(x2,y2))` (R10). -/
structure Rect where
  x1 : Nat
  y1 : Nat
  x2 : Nat
  y2 : Nat
deriving DecidableEq, Repr, Inhabited

/-- The rectangle holds the pixel (R10). -/
def Rect.has (r : Rect) (x y : Nat) : Bool :=
  decide (r.x1 ≤ x ∧ x < r.x2 ∧ r.y1 ≤ y ∧ y < r.y2)

/-- The rectangle is empty: `a1 >= a2` or `b1 >= b2` (R214). -/
def Rect.empty (r : Rect) : Bool := decide (r.x2 ≤ r.x1 ∨ r.y2 ≤ r.y1)

/-- `ClipRect` (R214): the intersection of a rectangle with a clip rectangle. -/
def clipRect (c1 c2 : Pos) (r : Rect) : Rect :=
  { x1 := max r.x1 c1.x.toNat
    y1 := max r.y1 c1.y.toNat
    x2 := min r.x2 c2.x.toNat
    y2 := min r.y2 c2.y.toNat }

/-! ## The clipping of a copy -/

/-- The source rectangle of a copy is empty or inverted (R218, R219). -/
def CopyOperands.emptySource (o : CopyOperands) : Bool :=
  decide (o.sx2.toNat ≤ o.sx1.toNat ∨ o.sy2.toNat ≤ o.sy1.toNat)

/-- The default `COPY_CLIP` (R219): whatever is trimmed from one rectangle is trimmed from the other.
The differences are natural-number differences, so the rule's `max(0, ...)` is built in. -/
def copyClipTranslate (o : CopyOperands) : Option CopyJob :=
  if o.emptySource then none
  else
    let nx := o.sx2.toNat - o.sx1.toNat
    let ny := o.sy2.toNat - o.sy1.toNat
    let l := max (o.clip1.x.toNat - o.sx1.toNat) (o.clip1.x.toNat - o.dx.toNat)
    let t := max (o.clip1.y.toNat - o.sy1.toNat) (o.clip1.y.toNat - o.dy.toNat)
    let r := max (o.sx2.toNat - o.clip2.x.toNat) (o.dx.toNat + nx - o.clip2.x.toNat)
    let b := max (o.sy2.toNat - o.clip2.y.toNat) (o.dy.toNat + ny - o.clip2.y.toNat)
    if nx ≤ l + r ∨ ny ≤ t + b then none
    else some
      { sx := o.sx1.toNat + l
        sy := o.sy1.toNat + t
        tx := o.dx.toNat + l
        ty := o.dy.toNat + t
        nx := nx - l - r
        ny := ny - t - b }

/-- The other reading of "independently" (R219, D10): the source is clipped, then the destination
extent computed from the clipped source. -/
def copyClipIndependent (o : CopyOperands) : Option CopyJob :=
  let a := clipRect o.clip1 o.clip2 ⟨o.sx1.toNat, o.sy1.toNat, o.sx2.toNat, o.sy2.toNat⟩
  if a.empty then none
  else
    let d := clipRect o.clip1 o.clip2
      ⟨o.dx.toNat, o.dy.toNat, o.dx.toNat + (a.x2 - a.x1), o.dy.toNat + (a.y2 - a.y1)⟩
    if d.empty then none
    else some
      { sx := a.x1, sy := a.y1, tx := d.x1, ty := d.y1, nx := d.x2 - d.x1, ny := d.y2 - d.y1 }

/-- The rectangle lies inside the clip rectangle of the operands (R219 P3). -/
def CopyOperands.clipHolds (o : CopyOperands) (x y nx ny : Nat) : Bool :=
  decide (o.clip1.x.toNat ≤ x ∧ x + nx ≤ o.clip2.x.toNat ∧
    o.clip1.y.toNat ≤ y ∧ y + ny ≤ o.clip2.y.toNat)

/-- The premise of P3 (R219): a non-empty source, source and destination inside the clip. -/
def CopyOperands.allInside (o : CopyOperands) : Bool :=
  !o.emptySource &&
    o.clipHolds o.sx1.toNat o.sy1.toNat (o.sx2.toNat - o.sx1.toNat) (o.sy2.toNat - o.sy1.toNat) &&
    o.clipHolds o.dx.toNat o.dy.toNat (o.sx2.toNat - o.sx1.toNat) (o.sy2.toNat - o.sy1.toNat)

/-- The answer P3 demands when everything lies inside the clip (R219). -/
def CopyOperands.whole (o : CopyOperands) : CopyJob :=
  { sx := o.sx1.toNat
    sy := o.sy1.toNat
    tx := o.dx.toNat
    ty := o.dy.toNat
    nx := o.sx2.toNat - o.sx1.toNat
    ny := o.sy2.toNat - o.sy1.toNat }

/-- The answer has the properties P1 to P3 and a positive size, or is a `none` that P3 allows
(R219). -/
def copyAnswerAllowed (o : CopyOperands) : Option CopyJob → Bool
  | none => !o.allInside
  | some j =>
      decide (1 ≤ j.nx ∧ 1 ≤ j.ny) &&
        o.clipHolds j.tx j.ty j.nx j.ny &&
        o.clipHolds j.sx j.sy j.nx j.ny &&
        decide (o.sx1.toNat ≤ j.sx ∧ j.sx + j.nx ≤ o.sx2.toNat ∧
          o.sy1.toNat ≤ j.sy ∧ j.sy + j.ny ≤ o.sy2.toNat) &&
        (!o.allInside || j == o.whole)

/-- `COPY_CLIP` as the parameter chooses it (R8, R219). Under `other` it is a function of which
nothing is known but P1 to P3. -/
def copyClip (kind : CopyClipKind) (o : CopyOperands) : Option CopyJob :=
  match kind with
  | .translate => copyClipTranslate o
  | .independent => copyClipIndependent o
  | .other =>
      if copyAnswerAllowed o (Config.freeCopyClip o) then Config.freeCopyClip o
      else copyClipTranslate o

/-! ## Palettes and fonts -/

/-- `pal[v]` for a 2-bit group `v` (R217): all four slots are indexed (C1). -/
def Palette.pick (p : Palette) (v : BitVec 2) : Byte :=
  if v = 0 then p.p0 else if v = 1 then p.p1 else if v = 2 then p.p2 else p.p3

/-- `FONT[k]` for `k` in 0..3 (R32, R220). -/
def Config.font? (c : Config) (k : Byte) : Option Font := c.fonts[k.toNat]?

/-- The font is well-formed (R32, D13). -/
def Font.wf (t : Font) : Bool :=
  let have' := t.glyphData.length
  let need := pictureBytes t.charW t.charH
  decide (1 ≤ t.charW ∧ 1 ≤ t.charH) && t.glyphOffset.toList.all (fun o => decide (o + need ≤ have'))

/-- `glyph_offset[code]` (R32, R220). -/
def Font.offsetOf (t : Font) (code : Byte) : Nat := t.glyphOffset[code.toNat]'code.isLt

end Sys2Proof
end

