-- ==== Sys2Proof/Machine/Backend.lean ====
section
/-! DEFINITION. The capability's two back ends (R240 to R248): what `fill_rect`, `copy_rect` and
`activate` do once their premise holds. The premise is the caller's (R240). -/

namespace Sys2Proof.Machine

open Sys2Proof

/-! ## fill_rect -/

/-- `n` rows from row `y` on: columns `x1..x2` become `c` (the loops of R241). -/
def fillRows (m : Memory) (x1 x2 : Nat) (c : Byte) : Nat → Nat → Memory
  | 0, _ => m
  | n + 1, y =>
    fillRows (m.store (pixelOffset x1 y) (List.replicate (x2 - x1) c)) x1 x2 c n (y + 1)

/-- The software back end's fill: R241 literally (R244). -/
def softwareFill (s : State) (f : Fb) (x1 y1 x2 y2 : Nat) (c : Byte) : State :=
  s.setPixels f (fillRows (s.fb f).pixels x1 x2 c (y2 - y1) y1)

/-- An edge patch: one column, byte by byte (R245). -/
def patchColumn (s : State) (f : Fb) (x y1 y2 : Nat) (c : Byte) : State :=
  s.setPixels f (fillRows (s.fb f).pixels x (x + 1) c (y2 - y1) y1)

/-- `n` 2-pixel units of row `y` from column `x` on (R64, R245). -/
def bulkUnits (m : Memory) (y : Nat) (c : Byte) : Nat → Nat → Memory
  | 0, _ => m
  | n + 1, x => bulkUnits (m.store (pixelOffset x y) [c, c]) y c n (x + 2)

/-- `n` rows of `units` 2-pixel units each, from column `x` and row `y` on (R245). -/
def bulkRows (m : Memory) (x units : Nat) (c : Byte) : Nat → Nat → Memory
  | 0, _ => m
  | n + 1, y => bulkRows (bulkUnits m y c units x) x units c n (y + 1)

/-- The bulk transfer of R245: `BLIT_BUSY` is 1 while it runs, and the wait ends with it 0. -/
def bulkFill (s : State) (f : Fb) (x1 y1 x2 y2 : Nat) (c : Byte) : State :=
  let started := s.setBlitBusy true
  let done := started.setPixels f
    (bulkRows (started.fb f).pixels x1 ((x2 - x1) / 2) c (y2 - y1) y1)
  done.setBlitBusy false

/-- The blitter back end's fill, `HFILL_blitter` of R245: left patch, right patch, bulk. -/
def blitterFill (s : State) (f : Fb) (x1 y1 x2 y2 : Nat) (c : Byte) : State :=
  if x2 ≤ x1 ∨ y2 ≤ y1 then s
  else
    let leftOdd : Bool := x1 % 2 == 1
    let s1 := if leftOdd then patchColumn s f x1 y1 y2 c else s
    let xa := if leftOdd then x1 + 1 else x1
    let rightOdd : Bool := decide (xa < x2) && x2 % 2 == 1
    let s2 := if rightOdd then patchColumn s1 f (x2 - 1) y1 y2 c else s1
    let xb := if rightOdd then x2 - 1 else x2
    if xa < xb then bulkFill s2 f xa y1 xb y2 c else s2

/-- `fill_rect` of the back end the parameter names (R27, R240). -/
def capFill (s : State) (f : Fb) (x1 y1 x2 y2 : Nat) (c : Byte) : State :=
  match s.cfg.capKind with
  | .software => softwareFill s f x1 y1 x2 y2 c
  | .blitter => blitterFill s f x1 y1 x2 y2 c

/-! ## copy_rect -/

/-- All reads of R242: the rows of the source rectangle before anything is written. -/
def copySource (m : Memory) (sx sy nx ny : Nat) : List (List Byte) :=
  (List.range ny).map (fun j => m.load (pixelOffset sx (sy + j)) nx)

/-- All writes of R242: the rows, from row `y` on, at column `x`. -/
def storeRows (m : Memory) (x : Nat) : Nat → List (List Byte) → Memory
  | _, [] => m
  | y, row :: rows => storeRows (m.store (pixelOffset x y) row) x (y + 1) rows

/-- The source and the destination rectangle share a pixel. -/
def CopyJobOverlaps (j : CopyJob) : Bool :=
  decide (j.sx < j.tx + j.nx ∧ j.tx < j.sx + j.nx ∧ j.sy < j.ty + j.ny ∧ j.ty < j.sy + j.ny)

/-- The copy overlaps and its destination follows its source in memory (R242, U5). -/
def copyFollows (j : CopyJob) : Bool :=
  CopyJobOverlaps j && decide (pixelOffset j.sx j.sy < pixelOffset j.tx j.ty)

/-- Column `a`, row `b` of the copy belongs to the overlapped part: its source pixel lies in the
destination rectangle, or its destination pixel in the source rectangle (U5,
notes/assumptions/7.md). -/
def copyTouched (j : CopyJob) (a b : Nat) : Bool :=
  (Rect.mk j.tx j.ty (j.tx + j.nx) (j.ty + j.ny)).has (j.sx + a) (j.sy + b) ||
    (Rect.mk j.sx j.sy (j.sx + j.nx) (j.sy + j.ny)).has (j.tx + a) (j.ty + b)

/-- The rows of a copy with the overlapped part at any value (U5): the free values numbered `n`. -/
def freeOverlap (n : Nat) (j : CopyJob) (rows : List (List Byte)) : List (List Byte) :=
  rows.zipIdx.map (fun r => r.1.zipIdx.map (fun p =>
    if copyTouched j p.2 r.2 then Config.freeOverlapByte n p.2 r.2 else p.1))

/-- Under `COPY_OVERLAP = anyValue`, an overlapping copy whose destination follows its source. -/
def copyIsFree (cfg : Config) (j : CopyJob) : Bool :=
  cfg.copyOverlap == .anyValue && copyFollows j

/-- The rows a copy writes. -/
def copyRows (s : State) (f : Fb) (j : CopyJob) : List (List Byte) :=
  let rows := copySource (s.fb f).pixels j.sx j.sy j.nx j.ny
  if copyIsFree s.cfg j then freeOverlap s.free j rows else rows

/-- The result of `copy_rect` (R242), the same for both back ends (R246, R247). -/
def copyResult (s : State) (f : Fb) (j : CopyJob) : State :=
  let t := s.setPixels f (storeRows (s.fb f).pixels j.tx j.ty (copyRows s f j))
  if copyIsFree s.cfg j then { t with free := t.free + 1 } else t

/-- `copy_rect` of the back end the parameter names (R240): when the call returns, every pixel has
been written and `BLIT_BUSY` is 0 (R246). -/
def capCopy (s : State) (f : Fb) (j : CopyJob) : State :=
  match s.cfg.capKind with
  | .software => copyResult s f j
  | .blitter => (copyResult (s.setBlitBusy true) f j).setBlitBusy false

/-! ## activate -/

/-- `activate(buf)`: the display hardware is pointed at the buffer (R243). -/
def capActivate (s : State) (f : Fb) : State := { s with active := some f }

end Sys2Proof.Machine
end

