-- ==== Sys2Proof/Machine/Cap.lean ====
section
/-! DEFINITION. The capability's instructions `HFILL`, `HCOPY`, `HACT` (R240 to R243): the interface
called directly. It does no clipping and checks the premise of R240. -/

namespace Sys2Proof.Machine

open Sys2Proof

/-- `HFILL` (R241): refused unless `x1 <= x2 <= 480` and `y1 <= y2 <= 128 + EXTRA_ROWS[f]`. -/
def execHfill (f : Fb) (x1 y1 x2 y2 : U16) (c : Byte) (s : State) : Outcome :=
  if x1.toNat ≤ x2.toNat ∧ x2.toNat ≤ screenWidth ∧
      y1.toNat ≤ y2.toNat ∧ y2.toNat ≤ s.cfg.rows f then
    .next (capFill s f x1.toNat y1.toNat x2.toNat y2.toNat c)
  else .refused .outsideStore

/-- `HCOPY` (R242): refused unless both rectangles lie in the backing store (R240), or where a sum
exceeds 65535 (U10). -/
def execHcopy (f : Fb) (sx sy dx dy nx ny : U16) (s : State) : Outcome :=
  if sx.toNat + nx.toNat ≤ screenWidth ∧ dx.toNat + nx.toNat ≤ screenWidth ∧
      sy.toNat + ny.toNat ≤ s.cfg.rows f ∧ dy.toNat + ny.toNat ≤ s.cfg.rows f then
    if sy.toNat + ny.toNat ≤ maxCoord ∧ dy.toNat + ny.toNat ≤ maxCoord then
      .next (capCopy s f ⟨sx.toNat, sy.toNat, dx.toNat, dy.toNat, nx.toNat, ny.toNat⟩)
    else .refused .coordinateOverflow
  else .refused .outsideStore

/-- `HACT` (R243): `CURSOR_EN` stays as it was. -/
def execHact (f : Fb) (s : State) : Outcome := .next (capActivate s f)

end Sys2Proof.Machine
end

