-- ==== Sys2Proof/Machine/Raster.lean ====
section
/-! DEFINITION. The pixels a primitive visits, before clipping: the Bresenham line of rule R212 and
the 2-bit-per-pixel decoder of rule R217. -/

namespace Sys2Proof.Machine

open Sys2Proof

/-! ## The line -/

/-- The loop of R212 from pixel `(x, y)` with error `err`, at most `n` pixels. `R213 (b)` gives the
number of pixels, which `linePoints` uses as `n`. -/
def lineLoop (x2 y2 dx dy sx sy : Int) : Nat → Int → Int → Int → List (Int × Int)
  | 0, _, _, _ => []
  | n + 1, x, y, err =>
    (x, y) ::
      if x = x2 ∧ y = y2 then []
      else
        let e2 := 2 * err
        let stepX : Bool := decide (dy ≤ e2)
        let stepY : Bool := decide (e2 ≤ dx)
        let err1 := if stepX then err + dy else err
        let x' := if stepX then x + sx else x
        let err2 := if stepY then err1 + dx else err1
        let y' := if stepY then y + sy else y
        lineLoop x2 y2 dx dy sx sy n x' y' err2

/-- The pixels `LINE` visits, in order, both ends included (R212). -/
def linePoints (x1 y1 x2 y2 : U16) : List (Int × Int) :=
  let ax : Int := x1.toNat
  let ay : Int := y1.toNat
  let bx : Int := x2.toNat
  let b_y : Int := y2.toNat
  let dx : Int := (bx - ax).natAbs
  let dy : Int := -((b_y - ay).natAbs : Int)
  let sx : Int := if ax < bx then 1 else -1
  let sy : Int := if ay < b_y then 1 else -1
  lineLoop bx b_y dx dy sx sy (max (bx - ax).natAbs (b_y - ay).natAbs + 1) ax ay (dx + dy)

/-- The pixels of a line, in order, in one colour. Every visited coordinate lies between those of
the two ends, so none is negative. -/
def linePixels (x1 y1 x2 y2 : U16) (c : Byte) : List Pixel :=
  (linePoints x1 y1 x2 y2).map (fun p => { x := p.1.toNat, y := p.2.toNat, c := c })

/-! ## The 2-bit decoder -/

/-- R217: `n` groups of the stream, with the 9-bit accumulator `acc` (1 when fully shifted out) and
the bytes not taken yet. The stream ends early only where the bytes do, which the callers refuse. -/
def unpack2bpp : Nat → BitVec 9 → List Byte → List (BitVec 2)
  | 0, _, _ => []
  | n + 1, acc, data =>
    if acc = 1 then
      match data with
      | [] => []
      | d :: rest =>
        let full : BitVec 9 := 0x100 ||| d.setWidth 9
        full.extractLsb' 0 2 :: unpack2bpp n (full >>> 2) rest
    else acc.extractLsb' 0 2 :: unpack2bpp n (acc >>> 2) data

/-- The cells of a picture, rows top to bottom, pixels left to right (R217): `(col, row)`. -/
def pictureCells (w h : Nat) : List (Nat × Nat) :=
  (List.range h).flatMap (fun row => (List.range w).map (fun col => (col, row)))

/-- `Blit2bpp` (R217): the pixels of a `w` by `h` picture whose data begins at index `off`. The
accumulator starts empty. -/
def blitPixels (px py w h : Nat) (pal : Palette) (data : List Byte) (off : Nat) : List Pixel :=
  ((pictureCells w h).zip (unpack2bpp (w * h) 1 (data.drop off))).map
    (fun q => { x := px + q.1.1, y := py + q.1.2, c := pal.pick q.2 })

/-- The pixels of a text, glyph `i` at `x + i*char_w` (R220), from glyph number `i` on. -/
def textPixelsFrom (x y : Nat) (t : Font) (pal : Palette) : Nat → List Byte → List Pixel
  | _, [] => []
  | i, code :: codes =>
    blitPixels (x + i * t.charW) y t.charW t.charH pal t.glyphData (t.offsetOf code) ++
      textPixelsFrom x y t pal (i + 1) codes

/-- The pixels of a text (R220). -/
def textPixels (x y : Nat) (t : Font) (pal : Palette) (codes : List Byte) : List Pixel :=
  textPixelsFrom x y t pal 0 codes

/-- No pixel of the `w` by `h` picture at `(x, y)` has a coordinate above 65535 (R228, U10). -/
def pictureFits (x y w h : Nat) : Bool :=
  w == 0 || h == 0 || decide (x + (w - 1) ≤ maxCoord ∧ y + (h - 1) ≤ maxCoord)

end Sys2Proof.Machine
end

