-- ==== Sys2Proof/Machine/Engine.lean ====
section
/-! DEFINITION. The drawing engine's instructions (R210 to R228). Every clipped primitive asks first
that the clip rectangle obeys R26, as it does in every state a run reaches; so no primitive ever
forms a pixel outside the visible rows (R65). -/

namespace Sys2Proof.Machine

open Sys2Proof

/-- `SETCLIP` (R210): refused where the operands break the invariant of R26 (U6). -/
def execSetclip (f : Fb) (x1 y1 x2 y2 : U16) (s : State) : Outcome :=
  if clipLegal ⟨x1, y1⟩ ⟨x2, y2⟩ then .next (s.setClip f ⟨x1, y1⟩ ⟨x2, y2⟩)
  else .refused .clipOperands

/-- `SETPIXEL` (R211). -/
def execSetpixel (f : Fb) (x y : U16) (c : Byte) (s : State) : Outcome :=
  if s.clipOk f then .next (plot s f ⟨x.toNat, y.toNat, c⟩) else .refused .illegalClipState

/-- `LINE` (R212): every pixel of the unclipped line goes through `SETPIXEL`. -/
def execLine (f : Fb) (x1 y1 x2 y2 : U16) (c : Byte) (s : State) : Outcome :=
  if s.clipOk f then .next (plotAll s f (linePixels x1 y1 x2 y2 c))
  else .refused .illegalClipState

/-- The body of `RECT` (R214, R215): the clipped rectangle goes to `fill_rect` if it is not empty. -/
def clippedFill (s : State) (f : Fb) (r : Rect) (c : Byte) : State :=
  let a := clipRect (s.fb f).clip1 (s.fb f).clip2 r
  if a.empty then s else capFill s f a.x1 a.y1 a.x2 a.y2 c

/-- `RECT` (R215). -/
def execRect (f : Fb) (x1 y1 x2 y2 : U16) (c : Byte) (s : State) : Outcome :=
  if s.clipOk f then .next (clippedFill s f ⟨x1.toNat, y1.toNat, x2.toNat, y2.toNat⟩ c)
  else .refused .illegalClipState

/-- `CLEAR` (R216): a `RECT` of the whole screen. -/
def execClear (f : Fb) (c : Byte) (s : State) : Outcome :=
  if s.clipOk f then .next (clippedFill s f ⟨0, 0, screenWidth, screenHeight⟩ c)
  else .refused .illegalClipState

/-- What `COPY_CLIP` is given for `FB[f]` (R218). -/
def copyOperands (s : State) (f : Fb) (sx1 sy1 sx2 sy2 dx dy : U16) : CopyOperands :=
  { clip1 := (s.fb f).clip1, clip2 := (s.fb f).clip2
    sx1 := sx1, sy1 := sy1, sx2 := sx2, sy2 := sy2, dx := dx, dy := dy }

/-- The sums `dx + nx` and `dy + ny` of the operands exceed 65535 (U10); an empty or inverted source
forms none. -/
def copySumOverflows (o : CopyOperands) : Bool :=
  !o.emptySource &&
    decide (maxCoord < o.dx.toNat + (o.sx2.toNat - o.sx1.toNat) ∨
      maxCoord < o.dy.toNat + (o.sy2.toNat - o.sy1.toNat))

/-- `COPYRECT` (R218): `COPY_CLIP`, then `copy_rect`. -/
def execCopyrect (f : Fb) (sx1 sy1 sx2 sy2 dx dy : U16) (s : State) : Outcome :=
  if s.clipOk f then
    let o := copyOperands s f sx1 sy1 sx2 sy2 dx dy
    if copySumOverflows o then .refused .coordinateOverflow
    else
      match copyClip s.cfg.copyClip o with
      | some j => .next (capCopy s f j)
      | none => .next s
  else .refused .illegalClipState

/-- `TEXT` (R220): refused for a font index of 4 or more, an ill-formed font (U9), or a coordinate
above 65535 (U10). -/
def execText (f : Fb) (x y : U16) (k : Byte) (pal : Palette) (codes : List Byte) (s : State) :
    Outcome :=
  match s.cfg.font? k with
  | none => .refused .fontIndex
  | some t =>
      if t.wf then
        if pictureFits x.toNat y.toNat (codes.length * t.charW) t.charH then
          if s.clipOk f then .next (plotAll s f (textPixels x.toNat y.toNat t pal codes))
          else .refused .illegalClipState
        else .refused .coordinateOverflow
      else .refused .illFormedFont

/-- `IMAGE` (R221): refused for less data than `ceil(w*h/4)` bytes (U9) or a coordinate above 65535
(U10). -/
def execImage (f : Fb) (x y w h : U16) (pal : Palette) (data : List Byte) (s : State) : Outcome :=
  if pictureBytes w.toNat h.toNat ≤ data.length then
    if pictureFits x.toNat y.toNat w.toNat h.toNat then
      if s.clipOk f then
        .next (plotAll s f (blitPixels x.toNat y.toNat w.toNat h.toNat pal data 0))
      else .refused .illegalClipState
    else .refused .coordinateOverflow
  else .refused .shortImageData

/-- `SCROLLUP` (R222): not clipped; refused for `h > EXTRA_ROWS[f]` (U7). -/
def execScrollup (f : Fb) (h : U16) (s : State) : Outcome :=
  if h.toNat ≤ s.cfg.extraRows f then
    if h.toNat + screenHeight ≤ maxCoord then
      .next (capCopy s f ⟨0, h.toNat, 0, 0, screenWidth, screenHeight⟩)
    else .refused .coordinateOverflow
  else .refused .beyondExtraRows

/-- `ACTIVATE` (R223): the buffer is handed over and `CURSOR_EN` set for the console, cleared for
graphics. -/
def execActivate (f : Fb) (s : State) : Outcome :=
  .next ((capActivate s f).setCursorEn (cursorFlagFor f))

end Sys2Proof.Machine
end

