-- ==== Sys2Proof/Machine/Framer.lean ====
section
/-! DEFINITION. The FRAMER's instructions (R120 to R141): one meaning per class of received byte.
A meaning reads the escape state its row of R91 names and refuses any other; `step` selects the row
by the state, so it never meets that refusal. -/

namespace Sys2Proof.Machine

open Sys2Proof

/-- `IDLE.ESC` (R122). -/
def execIdleEsc (s : State) : Outcome :=
  match s.esc with
  | .idle => .next (s.setEsc .sawEscape)
  | _ => .refused .notInThisState

/-- `IDLE.CHAR` (R123): the byte is forwarded to the terminal. -/
def execIdleChar (b : Byte) (s : State) : Outcome :=
  match s.esc with
  | .idle => .next (s.emit (.char b))
  | _ => .refused .notInThisState

/-- `ESC.ESC` (R124): a double escape introduces a binary command. -/
def execEscEsc (s : State) : Outcome :=
  match s.esc with
  | .sawEscape => .next (s.setEsc (.binaryFrame 0 0))
  | _ => .refused .notInThisState

/-- `ESC.CSI` (R125). -/
def execEscCsi (s : State) : Outcome :=
  match s.esc with
  | .sawEscape => .next (s.setEsc (.csi 0))
  | _ => .refused .notInThisState

/-- `ESC.RI` (R126): a synthesized insert-line CSI, final byte `L`, no parameters. -/
def execEscRi (s : State) : Outcome :=
  match s.esc with
  | .sawEscape => .next ((s.emit (.csi 0x4C [])).setEsc .idle)
  | _ => .refused .notInThisState

/-- `ESC.OTHER` (R127): the sequence is abandoned, the byte is not forwarded. -/
def execEscOther (_b : Byte) (s : State) : Outcome :=
  match s.esc with
  | .sawEscape => .next (s.setEsc .idle)
  | _ => .refused .notInThisState

/-- `CSI.PARAM` (R128): the byte is buffered, or the sequence dropped at the overflow point. -/
def execCsiParam (b : Byte) (s : State) : Outcome :=
  match s.esc with
  | .csi pos =>
      if s.cfg.csiOverflow.limit ≤ pos + 1 then .next (s.setEsc .idle)
      else .next ((s.setScratch pos b).setEsc (.csi (pos + 1)))
  | _ => .refused .notInThisState

/-- `CSI.FINAL` (R129): the sequence is dispatched. -/
def execCsiFinal (b : Byte) (s : State) : Outcome :=
  match s.esc with
  | .csi pos => .next ((s.emit (.csi b (s.scratchBytes pos))).setEsc .idle)
  | _ => .refused .notInThisState

/-- `CSI.FINAL_J` (R130): the erase-screen CSI is dispatched and the banner watch begins. -/
def execCsiFinalJ (s : State) : Outcome :=
  match s.esc with
  | .csi pos => .next ((s.emit (.csi 0x4A (s.scratchBytes pos))).setEsc (.watching 0))
  | _ => .refused .notInThisState

/-- `BIN.LEN0` (R131): a zero length aborts with no side effect. -/
def execBinLen0 (s : State) : Outcome :=
  match s.esc with
  | .binaryFrame 0 0 => .next (s.setEsc .idle)
  | _ => .refused .notInThisState

/-- `BIN.LEN` (R132): the length byte is stored at `SCRATCH[0]`. -/
def execBinLen (n : Byte) (s : State) : Outcome :=
  match s.esc with
  | .binaryFrame 0 0 => .next ((s.setScratch 0 n).setEsc (.binaryFrame 1 (n.toNat + 1)))
  | _ => .refused .notInThisState

/-- `BIN.DATA` (R133): the byte is stored; the last one completes the frame. -/
def execBinData (b : Byte) (s : State) : Outcome :=
  match s.esc with
  | .binaryFrame pos total =>
      if 1 ≤ pos ∧ pos < total ∧ total ≤ 256 then
        let t := s.setScratch pos b
        if pos + 1 = total then .next ((t.emit (.frame (t.scratchBytes total))).setEsc .idle)
        else .next (t.setEsc (.binaryFrame (pos + 1) total))
      else .refused .notInThisState
  | _ => .refused .notInThisState

/-- `WBB.MATCH` (R134): the banner byte is held back; the last one emits `Reset`. -/
def execWbbMatch (b : Byte) (s : State) : Outcome :=
  match s.esc with
  | .watching k =>
      if s.cfg.banner[k]? = some b then
        if k + 1 = s.cfg.banner.length then .next ((s.emit .reset).setEsc .idle)
        else .next (s.setEsc (.watching (k + 1)))
      else .refused .notInThisState
  | _ => .refused .notInThisState

/-- Feed bytes to a FRAMER step, one after the other, in order (R135, R276). -/
def replayBytes (stepByte : Byte → State → Outcome) : List Byte → State → Outcome
  | [], s => .next s
  | b :: bs, s =>
    match stepByte b s with
    | .next t => replayBytes stepByte bs t
    | .fault r => .fault r
    | .refused r => .refused r

/-- The body of `WBB.MISS` (R135): `ESC` becomes `Idle` first, then the matched part of the banner
and the mismatching byte are read as ordinary traffic. -/
def replayMiss (stepByte : Byte → State → Outcome) (b : Byte) (s : State) : Outcome :=
  match s.esc with
  | .watching k => replayBytes stepByte (s.cfg.banner.take k ++ [b]) (s.setEsc .idle)
  | _ => .refused .notInThisState

/-- One FRAMER step (R120): the class of the byte selects exactly one rule; `miss` is the meaning of
a banner mismatch. -/
def framerStepWith (miss : Byte → State → Outcome) (b : Byte) (s : State) : Outcome :=
  match classify s.cfg s.esc b with
  | .error e => .refused (.undecodable e)
  | .ok .idleEsc => execIdleEsc s
  | .ok .idleChar => execIdleChar b s
  | .ok .escEsc => execEscEsc s
  | .ok .escCsi => execEscCsi s
  | .ok .escRi => execEscRi s
  | .ok .escOther => execEscOther b s
  | .ok .csiParam => execCsiParam b s
  | .ok .csiFinal => execCsiFinal b s
  | .ok .csiFinalJ => execCsiFinalJ s
  | .ok .binLen0 => execBinLen0 s
  | .ok .binLen => execBinLen b s
  | .ok .binData => execBinData b s
  | .ok .wbbMatch => execWbbMatch b s
  | .ok .wbbMiss => miss b s

/-- The FRAMER step with fuel for nested mismatches (R136). -/
def framerStep : Nat → Byte → State → Outcome
  | 0 => framerStepWith (fun _ _ => .fault .replayDepthExceeded)
  | n + 1 => framerStepWith (replayMiss (framerStep n))

/-- The fuel of R136: `len(BANNER) + 1`. -/
def replayFuel (s : State) : Nat := s.cfg.banner.length + 1

/-- `WBB.MISS` (R135, R136). -/
def execWbbMiss (b : Byte) (s : State) : Outcome :=
  match s.esc with
  | .watching k =>
      match s.cfg.banner[k]? with
      | some expected =>
          if b = expected then .refused .notInThisState
          else replayMiss (framerStep (replayFuel s)) b s
      | none => .refused .notInThisState
  | _ => .refused .notInThisState

end Sys2Proof.Machine
end

