-- ==== Sys2Proof/Machine/Lutgen.lean ====
section
/-! DEFINITION. The colour LUT generator `LUTGEN` (R260 to R264). -/

namespace Sys2Proof.Machine

open Sys2Proof

/-- A component of an ANSI colour (R261): `0x55 * ((bit << 1) | intensity)`. -/
def ansiComponent (i bit : Nat) : Byte :=
  BitVec.ofNat 8 (0x55 * (2 * (i / 2 ^ bit % 2) + i / 8 % 2))

/-- R261: entries 0 to 15, `r = bit0`, `g = bit1`, `b = bit2`, intensity `bit3`. -/
def ansiColour (i : Nat) : Rgb := ⟨ansiComponent i 0, ansiComponent i 1, ansiComponent i 2⟩

/-- R262: entries 16 to 231, the 6×6×6 cube, red outermost. -/
def cubeColour (i : Nat) : Rgb :=
  let j := i - 16
  ⟨BitVec.ofNat 8 (0x33 * (j / 36)), BitVec.ofNat 8 (0x33 * (j / 6 % 6)),
    BitVec.ofNat 8 (0x33 * (j % 6))⟩

/-- R263: entries 232 to 255, the grey ramp. -/
def greyColour (i : Nat) : Rgb :=
  let v : Byte := BitVec.ofNat 8 (8 + 10 * (i - 232))
  ⟨v, v, v⟩

/-- `lut(i)` (R260): the three ranges partition 0 to 255. -/
def lutEntry (i : Nat) : Rgb :=
  if i ≤ 15 then ansiColour i else if i ≤ 231 then cubeColour i else greyColour i

/-- The whole table. -/
def lutTable : Vector Rgb 256 := ⟨((List.range 256).map lutEntry).toArray, by simp⟩

/-- `LUTGEN` (R260). -/
def execLutgen (s : State) : Outcome := .next { s with lut := lutTable }

end Sys2Proof.Machine
end

