-- ==== Sys2Proof/Machine/Dispatch.lean ====
section
/-! DEFINITION. The dispatch: one arm per constructor of `Instr`, each a call of its own meaning. -/

namespace Sys2Proof.Machine

open Sys2Proof

def exec (i : Instr) (s : State) : Host.Outcome State Fault Refusal :=
  match i with
  | .idleEsc => Sys2Proof.Machine.execIdleEsc s
  | .idleChar b => Sys2Proof.Machine.execIdleChar b s
  | .escEsc => Sys2Proof.Machine.execEscEsc s
  | .escCsi => Sys2Proof.Machine.execEscCsi s
  | .escRi => Sys2Proof.Machine.execEscRi s
  | .escOther b => Sys2Proof.Machine.execEscOther b s
  | .csiParam b => Sys2Proof.Machine.execCsiParam b s
  | .csiFinal b => Sys2Proof.Machine.execCsiFinal b s
  | .csiFinalJ => Sys2Proof.Machine.execCsiFinalJ s
  | .binLen0 => Sys2Proof.Machine.execBinLen0 s
  | .binLen n => Sys2Proof.Machine.execBinLen n s
  | .binData b => Sys2Proof.Machine.execBinData b s
  | .wbbMatch b => Sys2Proof.Machine.execWbbMatch b s
  | .wbbMiss b => Sys2Proof.Machine.execWbbMiss b s
  | .setclip f x1 y1 x2 y2 => Sys2Proof.Machine.execSetclip f x1 y1 x2 y2 s
  | .setpixel f x y c => Sys2Proof.Machine.execSetpixel f x y c s
  | .line f x1 y1 x2 y2 c => Sys2Proof.Machine.execLine f x1 y1 x2 y2 c s
  | .rect f x1 y1 x2 y2 c => Sys2Proof.Machine.execRect f x1 y1 x2 y2 c s
  | .clear f c => Sys2Proof.Machine.execClear f c s
  | .copyrect f sx1 sy1 sx2 sy2 dx dy => Sys2Proof.Machine.execCopyrect f sx1 sy1 sx2 sy2 dx dy s
  | .text f x y k pal codes => Sys2Proof.Machine.execText f x y k pal codes s
  | .image f x y w h pal data => Sys2Proof.Machine.execImage f x y w h pal data s
  | .scrollup f h => Sys2Proof.Machine.execScrollup f h s
  | .activate f => Sys2Proof.Machine.execActivate f s
  | .hfill f x1 y1 x2 y2 c => Sys2Proof.Machine.execHfill f x1 y1 x2 y2 c s
  | .hcopy f sx sy dx dy nx ny => Sys2Proof.Machine.execHcopy f sx sy dx dy nx ny s
  | .hact f => Sys2Proof.Machine.execHact f s
  | .lutgen => Sys2Proof.Machine.execLutgen s

end Sys2Proof.Machine
end

