-- ==== Sys2Proof/Machine/Fetch.lean ====
section
/-! DEFINITION. What the next step runs. The block has no program counter and fetches no
instructions (R22, R75): its units arrive at two inputs, operation records at the ENGINE's port and
received bytes at the FRAMER's. All operations issued complete before the next byte is taken (R77),
so records go first. -/

namespace Sys2Proof.Machine

open Sys2Proof

/-- What the inputs hold for the next step. -/
inductive Fetched where
  /-- Both inputs are empty: the block waits. -/
  | nothing
  /-- The instruction, and the state with its bytes taken from the input. -/
  | unit (i : Instr) (s : State)
  /-- The bytes denote nothing. -/
  | bad (why : DecodeError)
deriving DecidableEq, Repr

/-- Take the next unit from the inputs (R77, R78, R276). -/
def fetch (s : State) : Fetched :=
  match s.ops with
  | _ :: _ =>
      match decodeOp s.ops with
      | .ok (i, rest) => .unit i { s with ops := rest }
      | .error e => .bad e
  | [] =>
      match s.rx with
      | b :: rest =>
          match decodeByte s.cfg s.esc b with
          | .ok i => .unit i { s with rx := rest }
          | .error e => .bad e
      | [] => .nothing

/-- Put a bare word where `fetch` reads next (notes/assumptions/9.md): a record before the other
records, or, with no record waiting, a byte before the other bytes in the escape state its row
presupposes. -/
def placeWord (s : State) (nbits w : Nat) : State :=
  match wordPlace nbits w with
  | .record => { s with ops := wordRecord w ++ s.ops }
  | .byte esc => { s with ops := [], rx := wordByte w 0 :: s.rx, esc := esc }

end Sys2Proof.Machine
end

