-- ==== Sys2Proof/Machine/Step.lean ====
section
/-! DEFINITION. One step of the block: the next unit of its inputs, run to completion (R22, R70). -/

namespace Sys2Proof.Machine

open Sys2Proof

/-- One step: take the next unit and run it; with both inputs empty the block waits, unchanged. -/
def step (s : State) : Host.Outcome State Fault Refusal :=
  match fetch s with
  | .nothing => .next s
  | .unit i t => exec i t
  | .bad e => .refused (.undecodable e)

/-- The state with a word of `spec/opcode_table.json` where the next step takes its unit
(notes/assumptions/9.md). -/
def State.withFetchWord (s : State) (nbits w : Nat) : State := placeWord s nbits w

end Sys2Proof.Machine
end

