-- ==== Sys2Proof/Machine/Boundary.lean ====
section
/-! DEFINITION. The environment at the boundary (R5, R35): what the spec states of the command
interpreter (R150 to R166) and of the terminal emulator (R180 to R187), as functions from the events
the FRAMER emits to the operations they lead to. They are no part of the block: `State` holds none
of their state and no step calls them. What the spec leaves open is an argument (`Openings`,
`CommandIds`, `TerminalOpenings`), or a choice that the docstring of the function marks
(notes/assumptions/13.md). -/

namespace Sys2Proof.Boundary

open Sys2Proof

/-! ## The state of the environment -/

/-- `GraphicsSetting` (R35, R159). -/
structure GraphicsSetting where
  pos : Pos
  clip1 : Pos
  clip2 : Pos
  fontIndex : Byte
  palette : Palette
deriving DecidableEq, Repr, Inhabited

/-- The graphics context: the current setting and the 32 save slots (R35, R159). -/
structure GraphicsContext where
  current : GraphicsSetting
  slots : Vector GraphicsSetting 32
deriving DecidableEq, Repr, Inhabited

/-- The state the commands write: the graphics context and the mode flag, true when the graphics
framebuffer is shown (R28, R35). -/
structure Environment where
  graphics : GraphicsContext
  modeFlag : Bool
deriving DecidableEq, Repr, Inhabited

/-! ## The points of a plot -/

/-- One point of the plot stream (R166). A marked byte stands for its low 7 bits. -/
inductive PlotPoint where
  /-- One byte: a single y value. -/
  | single (y : Byte)
  /-- Two bytes with `start = end`: no data for this column. -/
  | noData
  /-- Two bytes: the vertical span `[start, end]`. -/
  | span (first last : Byte)
  /-- Four bytes: `(start, end)` and the vertical span `[min, max]`. -/
  | bounded (first last low high : Byte)
deriving DecidableEq, Repr, Inhabited

/-- The value of a byte of a point: its low 7 bits (R166).
DESIGN CHOICE: the spec says so of a marked byte; the model masks `(min, max)` alike. -/
def plotValue (b : Byte) : Byte := b &&& 0x7F

/-- R166: a pair of bytes `(start, end)`.
DESIGN CHOICE: the spec does not say whether `start` and `end` are compared before or after masking;
the model compares their values, since the two bytes themselves differ in the top bit. -/
def pairPoint (a b : Byte) : PlotPoint :=
  if plotValue a = plotValue b then .noData else .span (plotValue a) (plotValue b)

/-- R166: the first point of a plot stream and the rest, told by the top bits of its first two
bytes.
DESIGN CHOICE: of a stream that ends inside a point the unfinished point is dropped and the points
before it are drawn; the spec does not state the handling, and names only the policy of R151. -/
def nextPoint : List Byte → Option (PlotPoint × List Byte)
  | [] => none
  | a :: rest =>
      if a.msb = false then some (.single (plotValue a), rest)
      else
        match rest with
        | [] => none
        | b :: rest' =>
            if b.msb = false then some (pairPoint a b, rest')
            else
              match rest' with
              | c :: d :: rest'' =>
                  some (.bounded (plotValue a) (plotValue b) (plotValue c) (plotValue d), rest'')
              | _ => none

/-- At most `n` points of a plot stream (R165). -/
def takePoints : Nat → List Byte → List PlotPoint
  | 0, _ => []
  | n + 1, bytes =>
      match nextPoint bytes with
      | some (p, rest) => p :: takePoints n rest
      | none => []

/-- All points of a plot stream (R165); a point is at least one byte. -/
def plotPoints (bytes : List Byte) : List PlotPoint := takePoints bytes.length bytes

/-! ## What the spec leaves open of the commands -/

/-- One entry of the image table: size and 2-bit data (N4). -/
structure Picture where
  w : U16
  h : U16
  data : List Byte
deriving DecidableEq, Repr, Inhabited

/-- What the spec leaves open of the commands, as arguments: a claim for every `Openings` is a claim
for every environment. No part of `State`. -/
structure Openings where
  /-- The two packed positions of set-clip as half-open clip corners (R157, N5). -/
  clipCorners : Pos → Pos → Pos × Pos
  /-- The two packed positions of filled-rect as a half-open rectangle (R158, N5). -/
  rectCorners : Pos → Pos → Pos × Pos
  /-- The two source positions of rect-copy as a half-open rectangle (R158, N5). -/
  copyCorners : Pos → Pos → Pos × Pos
  /-- The colour of polyline (R158, N7). -/
  polylineColour : GraphicsSetting → Byte
  /-- The colour of filled-rect (R158, N7). -/
  rectColour : GraphicsSetting → Byte
  /-- The colour of plot (R158, N7). -/
  plotColour : GraphicsSetting → Byte
  /-- Where an image is placed (R158, N7). -/
  imagePlace : GraphicsSetting → Pos
  /-- The image table (R35, N4). -/
  imageTable : Byte → Option Picture
  /-- The last y of a point of two or four bytes (R166, N7). -/
  lastY : PlotPoint → Byte
  /-- The lines that connect a column to the previous one, given the column, the previous point's
  last y and the y they lead to (R166, N7). -/
  joinLines : U16 → Byte → Byte → List (Pos × Pos)

/-! ## The commands -/

/-- R150: the command id and the data of a `Frame` event's bytes. -/
def frameCommand : List Byte → Option (Byte × List Byte)
  | _ :: cmd :: data => some (cmd, data)
  | _ => none

/-- R103: the slot of a save or restore command, `command_id - SAVE_BASE`, one of 32. -/
def slotOf (base cmd : Byte) : Option (Fin 32) :=
  if h : base.toNat ≤ cmd.toNat ∧ cmd.toNat - base.toNat < 32 then
    some ⟨cmd.toNat - base.toNat, h.2⟩
  else none

/-- R156: the mode-switch command for a framebuffer: the mode flag (graphics shown) and the operation
it issues. -/
def modeSwitch (f : Fb) : Bool × List Instr := (f == .gfx, [.activate f])

/-- R157: set position, one packed position; with less data a no-op (R151).
DESIGN CHOICE: a packed `x` of 480 to 511 is stored and later handed to the ENGINE unchanged, where
U4 says any value; data beyond what the command needs is ignored, where U2 says any value. -/
def setPosition (g : GraphicsContext) : List Byte → GraphicsContext
  | b0 :: b1 :: _ => { g with current := { g.current with pos := posFromBytes b0 b1 } }
  | _ => g

/-- R157: set font, bounds-checked against the four fonts: an index of 4 or more is a no-op, as is less
data (R151).
DESIGN CHOICE: data beyond what the command needs is ignored, where U2 says any value. -/
def setFont (g : GraphicsContext) : List Byte → GraphicsContext
  | k :: _ => if k.toNat < 4 then { g with current := { g.current with fontIndex := k } } else g
  | _ => g

/-- R157: set palette, four bytes; with less data a no-op (R151).
DESIGN CHOICE: data beyond what the command needs is ignored, where U2 says any value. -/
def setPalette (g : GraphicsContext) : List Byte → GraphicsContext
  | p0 :: p1 :: p2 :: p3 :: _ =>
      { g with current := { g.current with palette := ⟨p0, p1, p2, p3⟩ } }
  | _ => g

/-- Write both copies of the clip rectangle: the setting's, and the framebuffer's through `SETCLIP`
(R157, R317). -/
def applyClip (g : GraphicsContext) (c1 c2 : Pos) : GraphicsContext × List Instr :=
  ({ g with current := { g.current with clip1 := c1, clip2 := c2 } },
    [.setclip .gfx c1.x c1.y c2.x c2.y])

/-- R157: set clip with omitted data resets both copies of the clip to full screen (R317). -/
def resetClip (g : GraphicsContext) : GraphicsContext × List Instr :=
  applyClip g ⟨0, 0⟩ ⟨480, 128⟩

/-- R157: set clip, two packed positions; with no data the full screen.
DESIGN CHOICE: one to three bytes are too few and a no-op (R151), not omitted data; a packed `x` of
480 to 511 goes to the conversion unchanged (U4), and the ENGINE refuses corners that break its
invariant (U6); data beyond two positions is ignored (U2). -/
def setClip (o : Openings) (g : GraphicsContext) : List Byte → GraphicsContext × List Instr
  | [] => resetClip g
  | b0 :: b1 :: b2 :: b3 :: _ =>
      let corners := o.clipCorners (posFromBytes b0 b1) (posFromBytes b2 b3)
      applyClip g corners.1 corners.2
  | _ => (g, [])

/-- R158: text; the data bytes are glyph codes.
DESIGN CHOICE: the current position stays as it was; the spec does not say whether text, image or
polyline move it (N7). A position with `x` of 480 to 511 is handed over unchanged (U4). -/
def drawText (g : GraphicsContext) (data : List Byte) : List Instr :=
  [.text .gfx g.current.pos.x g.current.pos.y g.current.fontIndex g.current.palette data]

/-- The packed positions of a command's data, in order (R100, R158). -/
def packedPositions : List Byte → List Pos
  | b0 :: b1 :: rest => posFromBytes b0 b1 :: packedPositions rest
  | _ => []

/-- A line between two positions on the graphics framebuffer. -/
def lineBetween (c : Byte) (l : Pos × Pos) : Instr := .line .gfx l.1.x l.1.y l.2.x l.2.y c

/-- R158: polyline, one `LINE` for each consecutive pair of points.
DESIGN CHOICE: a byte left over after the last whole position is ignored (U2), a point with `x` of
480 to 511 is handed over unchanged (U4), and the current position stays (N7). -/
def drawPolyline (o : Openings) (g : GraphicsContext) (data : List Byte) : List Instr :=
  let points := packedPositions data
  (points.zip points.tail).map (lineBetween (o.polylineColour g.current))

/-- R158: filled rectangle, two packed positions; with less data a no-op (R151).
DESIGN CHOICE: data beyond two positions is ignored (U2); an `x` of 480 to 511 goes to the conversion
unchanged (U4). -/
def drawRect (o : Openings) (g : GraphicsContext) : List Byte → List Instr
  | b0 :: b1 :: b2 :: b3 :: _ =>
      let r := o.rectCorners (posFromBytes b0 b1) (posFromBytes b2 b3)
      [.rect .gfx r.1.x r.1.y r.2.x r.2.y (o.rectColour g.current)]
  | _ => []

/-- R158: the override palette of an image, if four bytes give one, else the current palette.
DESIGN CHOICE: one to three bytes give none; bytes beyond four are ignored (U2). -/
def imagePalette (g : GraphicsContext) : List Byte → Palette
  | p0 :: p1 :: p2 :: p3 :: _ => ⟨p0, p1, p2, p3⟩
  | _ => g.current.palette

/-- R158: image by table index, with an optional override palette; with no data a no-op (R151).
DESIGN CHOICE: the table index is one byte and the override palette follows it, where the spec says
only "by table index" and gives no width (N4); an index without a table entry leads to no operation,
and the current position stays (N7). -/
def drawImage (o : Openings) (g : GraphicsContext) : List Byte → List Instr
  | [] => []
  | i :: rest =>
      match o.imageTable i with
      | some p =>
          let place := o.imagePlace g.current
          [.image .gfx place.x place.y p.w p.h (imagePalette g rest) p.data]
      | none => []

/-- R158: screen clear, one colour byte; with less data a no-op (R151).
DESIGN CHOICE: data beyond what the command needs is ignored, where U2 says any value. -/
def screenClear : List Byte → List Instr
  | c :: _ => [.clear .gfx c]
  | _ => []

/-- R158: rectangle copy, three packed positions: the corners of the source and the top-left corner of
the destination, as the spec reads them; with less data a no-op (R151).
DESIGN CHOICE: data beyond three positions is ignored (U2); an `x` of 480 to 511 is handed over
unchanged (U4). -/
def copyRect (o : Openings) : List Byte → List Instr
  | b0 :: b1 :: b2 :: b3 :: b4 :: b5 :: _ =>
      let source := o.copyCorners (posFromBytes b0 b1) (posFromBytes b2 b3)
      let dest := posFromBytes b4 b5
      [.copyrect .gfx source.1.x source.1.y source.2.x source.2.y dest.x dest.y]
  | _ => []

/-! ## The plot command -/

/-- A y value of a plot at a column, as a position. -/
def plotPos (x : U16) (y : Byte) : Pos := ⟨x, y.setWidth 16⟩

/-- The last y a point leaves for the next one (R166).
DESIGN CHOICE: after a column without data there is none, which is the model's reading of "breaks the
connecting line"; a point of two or four bytes is left open (N7). -/
def lastAfter (o : Openings) : PlotPoint → Option Byte
  | .single y => some y
  | .noData => none
  | .span a b => some (o.lastY (.span a b))
  | .bounded a b lo hi => some (o.lastY (.bounded a b lo hi))

/-- The lines that lead to `y` at a column from the previous point, if there is one. -/
def joinTo (o : Openings) (x : U16) (prev : Option Byte) (y : Byte) : List (Pos × Pos) :=
  match prev with
  | some p => o.joinLines x p y
  | none => []

/-- R166: what a point draws at its column: the connection to the previous point, a dot where a
single y has none, and the vertical span, both ends included.
DESIGN CHOICE: a pair is connected via `start`, as the spec says of a quad only; dots and spans go
through `LINE`, where the spec allows `LINE` or `SETPIXEL` (the pixels are the same). -/
def pointLines (o : Openings) (x : U16) (prev : Option Byte) : PlotPoint → List (Pos × Pos)
  | .single y => if prev = none then [(plotPos x y, plotPos x y)] else joinTo o x prev y
  | .noData => []
  | .span a b => joinTo o x prev a ++ [(plotPos x a, plotPos x b)]
  | .bounded a _ lo hi => joinTo o x prev a ++ [(plotPos x lo, plotPos x hi)]

/-- R165: the points of a plot one after the other, the column going up by 1 with each. -/
def plotLines (o : Openings) : U16 → Option Byte → List PlotPoint → List (Pos × Pos)
  | _, _, [] => []
  | x, prev, p :: ps => pointLines o x prev p ++ plotLines o (x + 1) (lastAfter o p) ps

/-- R165: plot: a packed start position, then the stream of points, the first at column `x0`; with
less data a no-op (R151).
DESIGN CHOICE: `y0` plays no part, its use is not stated (N7); an `x0` of 480 to 511 is taken
unchanged (U4). -/
def drawPlot (o : Openings) (g : GraphicsContext) : List Byte → List Instr
  | b0 :: b1 :: rest =>
      (plotLines o (posFromBytes b0 b1).x none (plotPoints rest)).map
        (lineBetween (o.plotColour g.current))
  | _ => []

/-! ## Save and restore -/

/-- R159: save the current setting into a slot. -/
def saveAttrs (g : GraphicsContext) (slot : Fin 32) : GraphicsContext :=
  { g with slots := g.slots.set slot g.current }

/-- R160: restore a slot into the current setting and re-apply its clip to the framebuffer. -/
def selAttrs (g : GraphicsContext) (slot : Fin 32) : GraphicsContext × List Instr :=
  let saved := g.slots[slot]
  ({ g with current := saved },
    [.setclip .gfx saved.clip1.x saved.clip1.y saved.clip2.x saved.clip2.y])

/-! ## The interpreter -/

/-- The commands whose id says nothing more than which command it is (R156 to R158, R161, R162). -/
inductive PlainCommand where
  | modeSwitch (f : Fb)
  | setPosition
  | setFont
  | setPalette
  | setClip
  | text
  | polyline
  | rect
  | image
  | clear
  | copy
  | plot
  /-- Host, touch and privileged control (R161, R162): nothing of the block or the context. -/
  | elsewhere
deriving DecidableEq, Repr, Inhabited

/-- The commands by family (R155): a save or restore carries its slot in its id (R103, R159). -/
inductive Command where
  | plain (c : PlainCommand)
  | save (slot : Fin 32)
  | restore (slot : Fin 32)
deriving DecidableEq, Repr, Inhabited

/-- The parameter `CMD_ID` (R8, R103, N2): the numeric ids, of which the spec gives none. No part of
`State`. -/
structure CommandIds where
  /-- `SAVE_BASE` (R159). -/
  saveBase : Byte
  /-- The same for the 32 restore commands (R103, R160). -/
  selBase : Byte
  /-- The commands of the other ids. -/
  other : Byte → Option PlainCommand

/-- R103, R155, R159, R160: the command of an id; a save or restore names the slot
`command_id - base`.
DESIGN CHOICE: an id that stood for two commands, which no device has, is the save, else the
restore. -/
def CommandIds.command (ids : CommandIds) (id : Byte) : Option Command :=
  match slotOf ids.saveBase id with
  | some slot => some (.save slot)
  | none =>
      match slotOf ids.selBase id with
      | some slot => some (.restore slot)
      | none => (ids.other id).map .plain

/-- The data bytes a plain command requires (R151, R157, R158, R165). Set clip may also have none; the
variable parts require none.
DESIGN CHOICE: image requires one byte, its table index, of which the spec gives no width (N4). -/
def PlainCommand.required : PlainCommand → Nat
  | .modeSwitch _ => 0
  | .setPosition => 2
  | .setFont => 1
  | .setPalette => 4
  | .setClip => 4
  | .text => 0
  | .polyline => 0
  | .rect => 4
  | .image => 1
  | .clear => 1
  | .copy => 6
  | .plot => 2
  | .elsewhere => 0

/-- The data bytes a command requires (R151, R159, R160). -/
def Command.required : Command → Nat
  | .plain c => c.required
  | .save _ => 0
  | .restore _ => 0

/-- The environment with another graphics context. -/
def Environment.withGraphics (e : Environment) (g : GraphicsContext) : Environment :=
  { e with graphics := g }

/-- R156 to R158, R161, R162: what a plain command does to the environment, and the operations it
issues. -/
def runPlain (o : Openings) (c : PlainCommand) (data : List Byte) (e : Environment) :
    Environment × List Instr :=
  let g := e.graphics
  match c with
  | .modeSwitch f => ({ e with modeFlag := (modeSwitch f).1 }, (modeSwitch f).2)
  | .setPosition => (e.withGraphics (setPosition g data), [])
  | .setFont => (e.withGraphics (setFont g data), [])
  | .setPalette => (e.withGraphics (setPalette g data), [])
  | .setClip => (e.withGraphics (setClip o g data).1, (setClip o g data).2)
  | .text => (e, drawText g data)
  | .polyline => (e, drawPolyline o g data)
  | .rect => (e, drawRect o g data)
  | .image => (e, drawImage o g data)
  | .clear => (e, screenClear data)
  | .copy => (e, copyRect o data)
  | .plot => (e, drawPlot o g data)
  | .elsewhere => (e, [])

/-- R156 to R162: what a command does to the environment, and the operations it issues.
DESIGN CHOICE: a mode switch, a save and a restore ignore what data they have (U2). -/
def runCommand (o : Openings) (c : Command) (data : List Byte) (e : Environment) :
    Environment × List Instr :=
  match c with
  | .plain p => runPlain o p data e
  | .save slot => (e.withGraphics (saveAttrs e.graphics slot), [])
  | .restore slot => (e.withGraphics (selAttrs e.graphics slot).1, (selAttrs e.graphics slot).2)

/-- R150, R152: a `Frame` event's bytes; an id the environment does not have does nothing. -/
def interpret (o : Openings) (ids : CommandIds) (frame : List Byte) (e : Environment) :
    Environment × List Instr :=
  match frameCommand frame with
  | some (id, data) =>
      match ids.command id with
      | some c => runCommand o c data e
      | none => (e, [])
  | none => (e, [])

/-! ## The terminal emulator -/

/-- The cursor: a cell position and the pending-wrap flag (R180, R182). -/
structure Cursor where
  x : Nat
  y : Nat
  pendingWrap : Bool
deriving DecidableEq, Repr, Inhabited

/-- `COLS`: the columns of the cell grid of a font (R180). -/
def gridCols (t : Font) : Nat := screenWidth / t.charW

/-- `ROWS`: the rows of the cell grid of a font (R180). -/
def gridRows (t : Font) : Nat := screenHeight / t.charH

/-- R183: `\r` resets the column.
DESIGN CHOICE: it clears the pending wrap, of which R183 says nothing (N6). -/
def carriageReturn (c : Cursor) : Cursor := { c with x := 0, pendingWrap := false }

/-- R184: `\n`, `\v`, `\f` reset the column and advance the row, scrolling by one glyph row when the
last row is exceeded.
DESIGN CHOICE: they clear the pending wrap, of which R184 says nothing (N6). -/
def lineFeed (t : Font) (c : Cursor) : Cursor × List Instr :=
  if c.y + 1 < gridRows t then ({ x := 0, y := c.y + 1, pendingWrap := false }, [])
  else ({ x := 0, y := c.y, pendingWrap := false }, [.scrollup .con (BitVec.ofNat 16 t.charH)])

/-- R186: `\t` advances to the next multiple-of-8 column, clamped to the last column.
DESIGN CHOICE: a pending wrap stays as it was, of which R186 says nothing (N6). -/
def tab (t : Font) (c : Cursor) : Cursor :=
  { c with x := min ((c.x / 8 + 1) * 8) (gridCols t - 1) }

/-- What the spec leaves open of the terminal's plain bytes, as arguments. No part of `State`. -/
structure TerminalOpenings where
  /-- The index of the console font (R181, N3). -/
  fontIndex : Fin 4
  /-- Palette slots 1 and 2 of the text the terminal draws (R181). -/
  middleSlots : Byte × Byte
  /-- The printable bytes among those that are no control byte (R181, N6). -/
  isPrintable : Byte → Bool
  /-- Whether back space clears a pending wrap (R185). -/
  backspaceClearsWrap : Bool
  /-- Where back space leads from column 0 without a pending wrap (R185). -/
  backspaceAtFirst : Cursor → Cursor

/-- R185: `\b` moves left only if no wrap is pending. What it does to a pending wrap, and at column
0, is not stated and is an argument. -/
def backspace (o : TerminalOpenings) (c : Cursor) : Cursor :=
  if c.pendingWrap then { c with pendingWrap := !o.backspaceClearsWrap }
  else if c.x = 0 then o.backspaceAtFirst c
  else { c with x := c.x - 1 }

/-- R187: the bytes that are silently ignored: NUL, BEL, SO, SI. -/
def isIgnored (b : Byte) : Bool := b == 0x00 || b == 0x07 || b == 0x0E || b == 0x0F

/-- R181: the operation that draws a printable byte at the cursor, with font index `k`. -/
def drawGlyph (t : Font) (k : Byte) (pal : Palette) (c : Cursor) (b : Byte) : Instr :=
  .text .con (BitVec.ofNat 16 (c.x * t.charW)) (BitVec.ofNat 16 (c.y * t.charH)) k pal [b]

/-- R181, R182: a printable byte. A pending wrap is taken first; at the last column the wrap is
left pending. -/
def printable (t : Font) (k : Byte) (pal : Palette) (c : Cursor) (b : Byte) :
    Cursor × List Instr :=
  let (c', before) := if c.pendingWrap then lineFeed t c else (c, [])
  let after :=
    if c'.x + 1 < gridCols t then { c' with x := c'.x + 1, pendingWrap := false }
    else { c' with pendingWrap := true }
  (after, before ++ [drawGlyph t k pal c' b])

/-- The terminal emulator's state (R35, R180): the cursor with its pending-wrap flag, and the current
2-slot palette, background and foreground. -/
structure Terminal where
  cursor : Cursor
  bg : Byte
  fg : Byte
deriving DecidableEq, Repr, Inhabited

/-- R181: the palette of the text the terminal draws: `pal[0]` the background, `pal[3]` the
foreground. -/
def Terminal.palette (t : Terminal) (o : TerminalOpenings) : Palette :=
  ⟨t.bg, o.middleSlots.1, o.middleSlots.2, t.fg⟩

/-- The terminal with another cursor. -/
def Terminal.withCursor (t : Terminal) (c : Cursor) : Terminal := { t with cursor := c }

/-- What a byte of a `Char` event is to the terminal (R181, R183 to R187). -/
inductive CharClass where
  | ignored
  | carriageReturn
  | lineFeed
  | backspace
  | tab
  | printable
  /-- No control byte and not printable. -/
  | unprintable
deriving DecidableEq, Repr, Inhabited

/-- R183 to R187: the control bytes by their values; R181: every other byte is printable or not. -/
def charClass (o : TerminalOpenings) (b : Byte) : CharClass :=
  if isIgnored b then .ignored
  else if b = 0x0D then .carriageReturn
  else if b = 0x0A ∨ b = 0x0B ∨ b = 0x0C then .lineFeed
  else if b = 0x08 then .backspace
  else if b = 0x09 then .tab
  else if o.isPrintable b then .printable
  else .unprintable

/-- `process_char` (R121, R180 to R187): what a `Char` event's byte does to the terminal, and the
operations it issues on the console framebuffer.
DESIGN CHOICE: a byte that is neither a control byte nor printable does nothing (N6). -/
def processChar (cfg : Config) (o : TerminalOpenings) (b : Byte) (t : Terminal) :
    Terminal × List Instr :=
  let font := cfg.fonts[o.fontIndex]
  match charClass o b with
  | .ignored => (t, [])
  | .carriageReturn => (t.withCursor (carriageReturn t.cursor), [])
  | .lineFeed => (t.withCursor (lineFeed font t.cursor).1, (lineFeed font t.cursor).2)
  | .backspace => (t.withCursor (backspace o t.cursor), [])
  | .tab => (t.withCursor (tab font t.cursor), [])
  | .printable =>
      let drawn := printable font (BitVec.ofNat 8 o.fontIndex) (t.palette o) t.cursor b
      (t.withCursor drawn.1, drawn.2)
  | .unprintable => (t, [])

/-- `process_char` for bytes one after the other (R121, R180). -/
def processChars (cfg : Config) (o : TerminalOpenings) : List Byte → Terminal → Terminal × List Instr
  | [], t => (t, [])
  | b :: bs, t =>
      let first := processChar cfg o b t
      let rest := processChars cfg o bs first.1
      (rest.1, first.2 ++ rest.2)

end Sys2Proof.Boundary
end

