-- ==== Sys2Proof/Safety.lean ====
section
/-! DEFINITION. The terms claims are stated in: the invariant of the block's reachable states, what
it means that an operation changes nothing but pixels, and what a safe run is. -/

namespace Sys2Proof.Machine

open Sys2Proof

/-- In `BinaryFrame(pos,total)` with `pos >= 1`, `total = SCRATCH[0] + 1` (R138). -/
def State.frameLengthAgrees (s : State) : Bool :=
  match s.esc with
  | .binaryFrame 0 _ => true
  | .binaryFrame (_ + 1) total => total == (s.scratch[0]).toNat + 1
  | .idle => true
  | .sawEscape => true
  | .csi _ => true
  | .watching _ => true

/-- `FB[f]` is well-formed: canonical store of the right size (R25), legal clip (R26). -/
abbrev State.fbOk (s : State) (f : Fb) : Prop :=
  (s.fb f).pixels.wf = true ∧ (s.fb f).pixels.within (s.cfg.storeSize f) = true ∧
    s.clipOk f = true

/-- The invariant of the reachable states: both framebuffers well-formed (R25, R26), the escape state
in the ranges of R31 and in step with the length byte (R138), `BANNER` not empty (R8), `BLIT_BUSY` 0
between steps (R34). -/
abbrev State.Inv (s : State) : Prop :=
  s.fbOk .con ∧ s.fbOk .gfx ∧ s.esc.legal s.cfg = true ∧ s.frameLengthAgrees = true ∧
    s.cfg.banner ≠ [] ∧ s.blitBusy = false

/-- Nothing but `FB[f].pixels` differs. -/
def OnlyPixels (f : Fb) (s t : State) : Prop := t = s.setPixels f (t.fb f).pixels

/-- Nothing but `FB[f].pixels` and the counter of free values differs. -/
def OnlyPixelsAndFree (f : Fb) (s t : State) : Prop :=
  t = { s.setPixels f (t.fb f).pixels with free := t.free }

/-- Nothing but `ESC`, `SCRATCH` and the event output differs: all that a FRAMER step writes (R38,
R120). -/
def OnlyFramer (s t : State) : Prop :=
  t = { s with esc := t.esc, scratch := t.scratch, events := t.events }

/-- The column of an offset (R25). -/
def colOf (a : Nat) : Nat := a % screenWidth

/-- The row of an offset (R25). -/
def rowOf (a : Nat) : Nat := a / screenWidth

/-- The pixel at offset `a` lies in the clip rectangle of `FB[f]` (R26); no offset of a store lies
outside every row. -/
def State.offsetInClip (s : State) (f : Fb) (a : Nat) : Bool := (s.fb f).inClip (colOf a) (rowOf a)

/-- `n` steps of the block, through the host's interface. -/
def runSteps (n : Nat) (s : State) : Outcome := Host.Core.run Sys2Proof.core n s

/-- The state with bytes waiting at the FRAMER's input and no record at the ENGINE's port. -/
def State.receiving (s : State) (bytes : List Byte) : State := { s with rx := bytes, ops := [] }

/-- The same machine with the other back end (R27). -/
def State.withCap (s : State) (k : CapKind) : State := { s with cfg := { s.cfg with capKind := k } }

/-- The escape state, and for the banner rows the banner byte, that the row of a received byte names
in R91. -/
def rowStands (cfg : Config) (esc : EscState) : Instr → Prop
  | .idleEsc => esc = .idle
  | .idleChar _ => esc = .idle
  | .escEsc => esc = .sawEscape
  | .escCsi => esc = .sawEscape
  | .escRi => esc = .sawEscape
  | .escOther _ => esc = .sawEscape
  | .csiParam _ => ∃ pos, esc = .csi pos ∧ pos < cfg.csiOverflow.limit
  | .csiFinal _ => ∃ pos, esc = .csi pos ∧ pos < cfg.csiOverflow.limit
  | .csiFinalJ => ∃ pos, esc = .csi pos ∧ pos < cfg.csiOverflow.limit
  | .binLen0 => esc = .binaryFrame 0 0
  | .binLen _ => esc = .binaryFrame 0 0
  | .binData _ => ∃ pos total, esc = .binaryFrame pos total ∧ 1 ≤ pos ∧ pos < total ∧ total ≤ 256
  | .wbbMatch b => ∃ k, esc = .watching k ∧ cfg.banner[k]? = some b
  | .wbbMiss b => ∃ k x, esc = .watching k ∧ cfg.banner[k]? = some x ∧ b ≠ x
  | .setclip _ _ _ _ _ => False
  | .setpixel _ _ _ _ => False
  | .line _ _ _ _ _ _ => False
  | .rect _ _ _ _ _ _ => False
  | .clear _ _ => False
  | .copyrect _ _ _ _ _ _ _ => False
  | .text _ _ _ _ _ _ => False
  | .image _ _ _ _ _ _ _ => False
  | .scrollup _ _ => False
  | .activate _ => False
  | .hfill _ _ _ _ _ _ => False
  | .hcopy _ _ _ _ _ _ _ => False
  | .hact _ => False
  | .lutgen => False

/-- The framebuffer an instruction names, if it names one (R24, R104). -/
def framebufferOf : Instr → Option Fb
  | .setclip f _ _ _ _ => some f
  | .setpixel f _ _ _ => some f
  | .line f _ _ _ _ _ => some f
  | .rect f _ _ _ _ _ => some f
  | .clear f _ => some f
  | .copyrect f _ _ _ _ _ _ => some f
  | .text f _ _ _ _ _ => some f
  | .image f _ _ _ _ _ _ => some f
  | .scrollup f _ => some f
  | .activate f => some f
  | .hfill f _ _ _ _ _ => some f
  | .hcopy f _ _ _ _ _ _ => some f
  | .hact f => some f
  | .idleEsc => none
  | .idleChar _ => none
  | .escEsc => none
  | .escCsi => none
  | .escRi => none
  | .escOther _ => none
  | .csiParam _ => none
  | .csiFinal _ => none
  | .csiFinalJ => none
  | .binLen0 => none
  | .binLen _ => none
  | .binData _ => none
  | .wbbMatch _ => none
  | .wbbMiss _ => none
  | .lutgen => none

/-- The primitives that the clip rectangle bounds (R224). -/
def isClipped : Instr → Bool
  | .setpixel _ _ _ _ => true
  | .line _ _ _ _ _ _ => true
  | .rect _ _ _ _ _ _ => true
  | .clear _ _ => true
  | .copyrect _ _ _ _ _ _ _ => true
  | .text _ _ _ _ _ _ => true
  | .image _ _ _ _ _ _ _ => true
  | .idleEsc => false
  | .idleChar _ => false
  | .escEsc => false
  | .escCsi => false
  | .escRi => false
  | .escOther _ => false
  | .csiParam _ => false
  | .csiFinal _ => false
  | .csiFinalJ => false
  | .binLen0 => false
  | .binLen _ => false
  | .binData _ => false
  | .wbbMatch _ => false
  | .wbbMiss _ => false
  | .setclip _ _ _ _ _ => false
  | .scrollup _ _ => false
  | .activate _ => false
  | .hfill _ _ _ _ _ _ => false
  | .hcopy _ _ _ _ _ _ _ => false
  | .hact _ => false
  | .lutgen => false

/-- The capability's own fill and copy, issued directly (R240). -/
def isDirect : Instr → Bool
  | .hfill _ _ _ _ _ _ => true
  | .hcopy _ _ _ _ _ _ _ => true
  | .idleEsc => false
  | .idleChar _ => false
  | .escEsc => false
  | .escCsi => false
  | .escRi => false
  | .escOther _ => false
  | .csiParam _ => false
  | .csiFinal _ => false
  | .csiFinalJ => false
  | .binLen0 => false
  | .binLen _ => false
  | .binData _ => false
  | .wbbMatch _ => false
  | .wbbMiss _ => false
  | .setclip _ _ _ _ _ => false
  | .setpixel _ _ _ _ => false
  | .line _ _ _ _ _ _ => false
  | .rect _ _ _ _ _ _ => false
  | .clear _ _ => false
  | .copyrect _ _ _ _ _ _ _ => false
  | .text _ _ _ _ _ _ => false
  | .image _ _ _ _ _ _ _ => false
  | .scrollup _ _ => false
  | .activate _ => false
  | .hact _ => false
  | .lutgen => false

/-- The scroll, which no clip rectangle bounds (R222). -/
def isScroll : Instr → Bool
  | .idleEsc => false
  | .idleChar _ => false
  | .escEsc => false
  | .escCsi => false
  | .escRi => false
  | .escOther _ => false
  | .csiParam _ => false
  | .csiFinal _ => false
  | .csiFinalJ => false
  | .binLen0 => false
  | .binLen _ => false
  | .binData _ => false
  | .wbbMatch _ => false
  | .wbbMiss _ => false
  | .setclip _ _ _ _ _ => false
  | .setpixel _ _ _ _ => false
  | .line _ _ _ _ _ _ => false
  | .rect _ _ _ _ _ _ => false
  | .clear _ _ => false
  | .copyrect _ _ _ _ _ _ _ => false
  | .text _ _ _ _ _ _ => false
  | .image _ _ _ _ _ _ _ => false
  | .scrollup _ _ => true
  | .activate _ => false
  | .hfill _ _ _ _ _ _ => false
  | .hcopy _ _ _ _ _ _ _ => false
  | .hact _ => false
  | .lutgen => false

/-- The operations that write pixels (R20). -/
def writesPixels (i : Instr) : Bool :=
  isClipped i || isDirect i || isScroll i

/-- The 2-bit group of pixel number `n` in a picture whose data begins at index `off`: the closed
form of R217, least significant pair first. -/
def groupAt (data : List Byte) (off n : Nat) : BitVec 2 :=
  BitVec.ofNat 2 ((data.getD (off + n / 4) 0).toNat >>> (2 * (n % 4)))

/-- A safe run: `n` steps, each answering a next state. -/
def SafeRun (n : Nat) (s : State) : Prop := ∃ t, runSteps n s = .next t

end Sys2Proof.Machine
end

