-- ==== Sys2Proof/Certificates/Slice0/Obligations.lean ====
section
/-! DEFINITION. The statements for the provers. Each docstring names the rule of the spec it
formalises; a statement that rests on a choice of the model says so and names the log entry. -/

open Sys2Proof Sys2Proof.Machine

/-! ## Encodings -/

/-- R104, R105: the decoder reads the record of every well-formed operation back, with every operand
at every value, whatever bytes follow it. -/
def Obligations.OperationRecordsRoundTrip : Prop :=
  ∀ (i : Instr) (rest : List Byte), wellFormed i = true → isOperation i = true →
    decodeOp (encode i ++ rest) = .ok (i, rest)

/-- R104, R105: bytes that decode to an operation are that operation's record, and nothing else. -/
def Obligations.OperationRecordsHaveOneReading : Prop :=
  ∀ (bs rest : List Byte) (i : Instr), decodeOp bs = .ok (i, rest) →
    wellFormed i = true ∧ isOperation i = true ∧ bs = encode i ++ rest

/-- R91: in every escape state a byte decodes to exactly the received-byte instruction whose row
stands in that state and whose class holds the byte. -/
def Obligations.ReceivedBytesHaveOneReading : Prop :=
  ∀ (cfg : Config) (esc : EscState) (b : Byte) (i : Instr),
    decodeByte cfg esc b = .ok i ↔
      (isOperation i = false ∧ wellFormed i = true ∧ encode i = [b] ∧ rowStands cfg esc i)

/-- R91, R105: words written out from the tables decode to the instructions they stand for. -/
def Obligations.WrittenOutWordsDecode : Prop :=
  decodeOp [0x00, 0x01, 0x0A, 0x00, 0x0B, 0x00, 0xE0, 0x01, 0x80, 0x00] =
      .ok (.setclip .gfx 10 11 480 128, []) ∧
    decodeOp [0x06, 0x00, 0x02, 0x01, 0x03, 0x00, 0x01, 5, 6, 7, 8, 0x02, 0x00, 0x41, 0x42] =
      .ok (.text .con 258 3 1 ⟨5, 6, 7, 8⟩ [0x41, 0x42], []) ∧
    decodeOp [0x11, 0x00, 1, 0, 2, 0, 3, 0, 4, 0, 5, 0, 6, 0] = .ok (.hcopy .con 1 2 3 4 5 6, []) ∧
    decodeOp [0x20] = .ok (.lutgen, []) ∧
    decodeByte Config.standIn .idle 0x1B = .ok .idleEsc ∧
    decodeByte Config.standIn .sawEscape 0x4D = .ok .escRi ∧
    decodeByte Config.standIn (.csi 1) 0x1B = .ok (.csiFinal 0x1B) ∧
    decodeByte Config.standIn (.binaryFrame 1 3) 0x1B = .ok (.binData 0x1B)

/-! ## The step -/

/-- R70, R77, R78, R91: a step runs the instruction that the bytes at its input decode to, records
first. The other clauses: what decodes to nothing is refused by name, as R99, U18 and U20 say of
undefined records and of an empty banner, and as the model chooses for a record cut short
(notes/assumptions/15.md) and an escape state no run reaches (notes/assumptions/8.md); with nothing
at either input the block waits, the model's reading of an empty input (notes/assumptions/5.md). -/
def Obligations.StepRunsTheNextUnit : Prop :=
  (∀ (s : State) (i : Instr) (rest : List Byte), s.ops ≠ [] → decodeOp s.ops = .ok (i, rest) →
      step s = exec i { s with ops := rest }) ∧
    (∀ (s : State) (i : Instr) (b : Byte) (rest : List Byte), s.ops = [] → s.rx = b :: rest →
      decodeByte s.cfg s.esc b = .ok i → step s = exec i { s with rx := rest }) ∧
    (∀ (s : State) (e : DecodeError), s.ops ≠ [] → decodeOp s.ops = .error e →
      step s = .refused (.undecodable e)) ∧
    (∀ (s : State) (b : Byte) (rest : List Byte) (e : DecodeError), s.ops = [] →
      s.rx = b :: rest → decodeByte s.cfg s.esc b = .error e →
      step s = .refused (.undecodable e)) ∧
    (∀ s : State, s.ops = [] → s.rx = [] → step s = .next s)

/-- R99, D28, U18: a record with an opcode outside R105, or with a framebuffer byte other than 0 and
1, is refused by name. -/
def Obligations.UndefinedRecordsRefused : Prop :=
  (∀ (s : State) (opc : Byte) (bs : List Byte), s.ops = opc :: bs →
      opc ∉ ([0x00, 0x01, 0x02, 0x03, 0x04, 0x05, 0x06, 0x07, 0x08, 0x09, 0x10, 0x11, 0x12,
        0x20] : List Byte) →
      step s = .refused (.undecodable .undefinedOpcode)) ∧
    (∀ (s : State) (opc fb : Byte) (bs : List Byte), s.ops = opc :: fb :: bs →
      opc ∈ ([0x00, 0x01, 0x02, 0x03, 0x04, 0x05, 0x06, 0x07, 0x08, 0x09, 0x10, 0x11,
        0x12] : List Byte) →
      fb ≠ 0 → fb ≠ 1 → step s = .refused (.undecodable .undefinedFramebuffer))

/-- R77, R78: a step takes a record from the front of the waiting records and no byte, or, with no
record waiting, exactly the first byte; the parameters of R36 and the emitted events stay. -/
def Obligations.InputsAreTakenInOrder : Prop :=
  ∀ s t : State, step s = .next t →
    t.cfg = s.cfg ∧ s.events <+: t.events ∧
      (s.ops ≠ [] → t.rx = s.rx ∧ ∃ u, u ≠ [] ∧ s.ops = u ++ t.ops) ∧
      (s.ops = [] → t.ops = [] ∧ t.rx = s.rx.drop 1)

/-- R120: every byte value in every state has an outcome, and the step writes nothing but `ESC`,
`SCRATCH` and its events. -/
def Obligations.EveryByteIsTaken : Prop :=
  ∀ (s : State) (b : Byte) (rest : List Byte), s.ops = [] → s.rx = b :: rest →
    s.esc.legal s.cfg = true → s.cfg.banner ≠ [] →
    ∃ t, step s = .next t ∧ OnlyFramer { s with rx := rest } t ∧ s.events <+: t.events ∧
      t.esc.legal t.cfg = true

/-- R270, R136: no step faults; the nested replay of a banner mismatch always ends. -/
def Obligations.NoStepFaults : Prop :=
  ∀ (s : State) (r : Fault), step s ≠ .fault r

/-! ## The FRAMER's instructions -/

/-- R122, R123: the bytes of `Idle`. -/
def Obligations.IdleBytes : Prop :=
  ∀ s : State, s.esc = .idle →
    exec .idleEsc s = .next { s with esc := .sawEscape } ∧
      ∀ b : Byte, b ≠ 0x1B →
        exec (.idleChar b) s = .next { s with events := s.events ++ [.char b] }

/-- R124 to R127: the bytes of `SawEscape`. -/
def Obligations.EscapeBytes : Prop :=
  ∀ s : State, s.esc = .sawEscape →
    exec .escEsc s = .next { s with esc := .binaryFrame 0 0 } ∧
      exec .escCsi s = .next { s with esc := .csi 0 } ∧
      exec .escRi s = .next { s with esc := .idle, events := s.events ++ [.csi 0x4C []] } ∧
      ∀ b : Byte, b ≠ 0x1B → b ≠ 0x5B → b ≠ 0x4D →
        exec (.escOther b) s = .next { s with esc := .idle }

/-- R128: a parameter byte is buffered, or drops the sequence at the overflow point. -/
def Obligations.CsiParameterBytes : Prop :=
  ∀ (s : State) (pos : Nat) (b : Byte), s.esc = .csi pos → pos < s.cfg.csiOverflow.limit →
    isParamByte b = true →
    exec (.csiParam b) s =
      .next (if s.cfg.csiOverflow.limit ≤ pos + 1 then { s with esc := .idle }
        else { s with scratch := s.scratch.setIfInBounds pos b, esc := .csi (pos + 1) })

/-- R129, R130: a final byte dispatches the sequence; after `J` the banner watch begins. -/
def Obligations.CsiFinalBytes : Prop :=
  ∀ (s : State) (pos : Nat), s.esc = .csi pos → pos < s.cfg.csiOverflow.limit →
    exec .csiFinalJ s =
        .next { s with
          esc := .watching 0
          events := s.events ++ [.csi 0x4A (s.scratch.toList.take pos)] } ∧
      ∀ b : Byte, isParamByte b = false → b ≠ 0x4A →
        exec (.csiFinal b) s =
          .next { s with
            esc := .idle
            events := s.events ++ [.csi b (s.scratch.toList.take pos)] }

/-- R131, R132, R133: the bytes of a binary frame. -/
def Obligations.BinaryFrameBytes : Prop :=
  (∀ s : State, s.esc = .binaryFrame 0 0 →
      exec .binLen0 s = .next { s with esc := .idle } ∧
        ∀ n : Byte, n ≠ 0 →
          exec (.binLen n) s =
            .next { s with
              scratch := s.scratch.setIfInBounds 0 n
              esc := .binaryFrame 1 (n.toNat + 1) }) ∧
    ∀ (s : State) (pos total : Nat) (b : Byte), s.esc = .binaryFrame pos total → 1 ≤ pos →
      pos < total → total ≤ 256 →
      exec (.binData b) s =
        .next (if pos + 1 = total then
            { s with
              scratch := s.scratch.setIfInBounds pos b
              esc := .idle
              events := s.events ++
                [.frame ((s.scratch.setIfInBounds pos b).toList.take total)] }
          else
            { s with
              scratch := s.scratch.setIfInBounds pos b
              esc := .binaryFrame (pos + 1) total })

/-- R134: a banner byte is held back; the last one emits `Reset`. -/
def Obligations.BannerMatchBytes : Prop :=
  ∀ (s : State) (k : Nat) (b : Byte), s.esc = .watching k → s.cfg.banner[k]? = some b →
    exec (.wbbMatch b) s =
      .next (if k + 1 = s.cfg.banner.length then
          { s with esc := .idle, events := s.events ++ [.reset] }
        else { s with esc := .watching (k + 1) })

/-- R135: a banner mismatch does what the block does from `Idle` with the held bytes and the
mismatching byte at its input, one step per byte, in order. -/
def Obligations.BannerMissIsReplay : Prop :=
  ∀ (s : State) (k : Nat) (x b : Byte), s.esc = .watching k → s.cfg.banner[k]? = some x → b ≠ x →
    ∃ t, exec (.wbbMiss b) s = .next t ∧ OnlyFramer s t ∧
      runSteps (k + 1)
          (State.receiving { s with esc := .idle } (s.cfg.banner.take k ++ [b])) =
        .next (t.receiving [])

/-- R135, R136: with no `0x1B` in the banner the held bytes come out as characters, then the
mismatching byte is read as in `Idle`; no `Reset`. -/
def Obligations.BannerMissWithoutEscape : Prop :=
  ∀ (s : State) (k : Nat) (x b : Byte), s.esc = .watching k → s.cfg.banner[k]? = some x → b ≠ x →
    0x1B ∉ s.cfg.banner →
    exec (.wbbMiss b) s =
      .next (if b = 0x1B then
          { s with esc := .sawEscape, events := s.events ++ (s.cfg.banner.take k).map .char }
        else
          { s with
            esc := .idle
            events := s.events ++ (s.cfg.banner.take k ++ [b]).map .char })

/-- The model's choice (notes/assumptions/8.md; the step selects the row by the state, so no run
meets it): a FRAMER instruction in a state its row of R91 does not name is refused by name. -/
def Obligations.FramerRefusesOtherStates : Prop :=
  ∀ (s : State) (b : Byte),
    (s.esc ≠ .idle →
      exec .idleEsc s = .refused .notInThisState ∧
        exec (.idleChar b) s = .refused .notInThisState) ∧
    (s.esc ≠ .sawEscape →
      exec .escEsc s = .refused .notInThisState ∧ exec .escCsi s = .refused .notInThisState ∧
        exec .escRi s = .refused .notInThisState ∧
        exec (.escOther b) s = .refused .notInThisState) ∧
    ((∀ pos, s.esc ≠ .csi pos) →
      exec (.csiParam b) s = .refused .notInThisState ∧
        exec (.csiFinal b) s = .refused .notInThisState ∧
        exec .csiFinalJ s = .refused .notInThisState) ∧
    (s.esc ≠ .binaryFrame 0 0 →
      exec .binLen0 s = .refused .notInThisState ∧
        exec (.binLen b) s = .refused .notInThisState) ∧
    ((∀ pos total, s.esc = .binaryFrame pos total → ¬(1 ≤ pos ∧ pos < total ∧ total ≤ 256)) →
      exec (.binData b) s = .refused .notInThisState) ∧
    ((∀ k, s.esc = .watching k → s.cfg.banner[k]? ≠ some b) →
      exec (.wbbMatch b) s = .refused .notInThisState) ∧
    ((∀ k, s.esc = .watching k → s.cfg.banner[k]? = none ∨ s.cfg.banner[k]? = some b) →
      exec (.wbbMiss b) s = .refused .notInThisState)

/-- R120, R38: a FRAMER instruction writes nothing but `ESC`, `SCRATCH` and events, and takes no
event back. -/
def Obligations.FramerWritesOnlyItsState : Prop :=
  ∀ (i : Instr) (s t : State), isOperation i = false → exec i s = .next t →
    OnlyFramer s t ∧ s.events <+: t.events

/-- R120, R38: what a FRAMER instruction does depends on nothing of the ENGINE, the CAP or the LUT,
nor on what waits at the inputs. -/
def Obligations.FramerIgnoresTheScreen : Prop :=
  ∀ (i : Instr) (s t : State) (c g : Framebuffer) (a : Option Fb) (e busy : Bool)
    (l : Vector Rgb 256) (rx ops : List Byte),
    isOperation i = false → exec i s = .next t →
    exec i { s with
        con := c, gfx := g, active := a, cursorEn := e, lut := l, blitBusy := busy
        rx := rx, ops := ops } =
      .next { t with
        con := c, gfx := g, active := a, cursorEn := e, lut := l, blitBusy := busy
        rx := rx, ops := ops }

/-! ## Sequences at the FRAMER -/

/-- R133, R140: a frame in flight takes the bytes it is short of, whatever they are, with no event
before the last, and then dispatches them all. -/
def Obligations.FrameSwallowsItsBytes : Prop :=
  ∀ (s : State) (pos total : Nat) (bs more : List Byte), s.ops = [] →
    s.esc = .binaryFrame pos total → 1 ≤ pos → pos < total → total ≤ 256 →
    bs.length = total - pos → s.rx = bs ++ more →
    (∀ m, m < bs.length →
      ∃ sc, runSteps m s =
        .next { s with
          rx := (bs ++ more).drop m, esc := .binaryFrame (pos + m) total, scratch := sc }) ∧
    ∃ sc, runSteps bs.length s =
      .next { s with
        rx := more
        esc := .idle
        scratch := sc
        events := s.events ++ [.frame (s.scratch.toList.take pos ++ bs)] }

/-- R139: `ESC ESC N cmd data` gives exactly one event, the frame, with the last byte, and ends in
`Idle`, for every command id and 0 to 254 data bytes. -/
def Obligations.FramingRoundTrip : Prop :=
  ∀ (s : State) (cmd : Byte) (data more : List Byte), s.ops = [] → s.esc = .idle →
    data.length ≤ 254 → s.rx = wireFrame cmd data ++ more →
    (∀ m, m < data.length + 4 →
      ∃ e sc, runSteps m s =
        .next { s with rx := (wireFrame cmd data ++ more).drop m, esc := e, scratch := sc }) ∧
    ∃ sc, runSteps (data.length + 4) s =
      .next { s with
        rx := more
        esc := .idle
        scratch := sc
        events := s.events ++
          [.frame ([BitVec.ofNat 8 (data.length + 1), cmd] ++ data)] }

/-- R94, R129, R130: a CSI sequence below the overflow point is dispatched with its parameter bytes
and its final byte. -/
def Obligations.CsiRoundTrip : Prop :=
  ∀ (s : State) (params more : List Byte) (final : Byte), s.ops = [] → s.esc = .idle →
    (∀ p ∈ params, isParamByte p = true) → params.length < s.cfg.csiOverflow.limit →
    isParamByte final = false → s.rx = wireCsi params final ++ more →
    ∃ sc, runSteps (params.length + 3) s =
      .next { s with
        rx := more
        esc := if final = 0x4A then .watching 0 else .idle
        scratch := sc
        events := s.events ++ [.csi final params] }

/-- R94, R128: the parameter byte at the overflow point drops the sequence with no event. -/
def Obligations.CsiOverflowDrops : Prop :=
  ∀ (s : State) (params more : List Byte), s.ops = [] → s.esc = .idle →
    (∀ p ∈ params, isParamByte p = true) → params.length = s.cfg.csiOverflow.limit →
    s.rx = [0x1B, 0x5B] ++ params ++ more →
    ∃ sc, runSteps (params.length + 2) s = .next { s with rx := more, esc := .idle, scratch := sc }

/-- R130, R134: after an erase-screen CSI the banner's bytes are held back, and `Reset` comes with
the last of them and no earlier. -/
def Obligations.BannerAfterErase : Prop :=
  ∀ (s : State) (params more : List Byte), s.ops = [] → s.esc = .idle →
    (∀ p ∈ params, isParamByte p = true) → params.length < s.cfg.csiOverflow.limit →
    s.cfg.banner ≠ [] → s.rx = wireCsi params 0x4A ++ s.cfg.banner ++ more →
    (∀ m, m < s.cfg.banner.length →
      ∃ sc, runSteps (params.length + 3 + m) s =
        .next { s with
          rx := (s.cfg.banner ++ more).drop m
          esc := .watching m
          scratch := sc
          events := s.events ++ [.csi 0x4A params] }) ∧
    ∃ sc, runSteps (params.length + 3 + s.cfg.banner.length) s =
      .next { s with
        rx := more
        esc := .idle
        scratch := sc
        events := s.events ++ [.csi 0x4A params, .reset] }

/-! ## The ENGINE's instructions -/

/-- R210: `SETCLIP` writes the clip rectangle of `FB[f]` and nothing else, or is refused (U6). -/
def Obligations.SetclipResult : Prop :=
  ∀ (s : State) (f : Fb) (x1 y1 x2 y2 : U16),
    (x1.toNat ≤ x2.toNat ∧ x2.toNat ≤ 480 ∧ y1.toNat ≤ y2.toNat ∧ y2.toNat ≤ 128 →
      ∃ t, exec (.setclip f x1 y1 x2 y2) s = .next t ∧
        t.fb f = { s.fb f with clip1 := ⟨x1, y1⟩, clip2 := ⟨x2, y2⟩ } ∧
        (∀ g, g ≠ f → t.fb g = s.fb g) ∧ { t with con := s.con, gfx := s.gfx } = s) ∧
    (¬(x1.toNat ≤ x2.toNat ∧ x2.toNat ≤ 480 ∧ y1.toNat ≤ y2.toNat ∧ y2.toNat ≤ 128) →
      exec (.setclip f x1 y1 x2 y2) s = .refused .clipOperands)

/-- R211: `SETPIXEL` writes its pixel if it lies in the clip rectangle; every other byte stays. -/
def Obligations.SetpixelResult : Prop :=
  ∀ (s : State) (f : Fb) (x y : U16) (c : Byte), s.clipOk f = true →
    ∃ t, exec (.setpixel f x y c) s = .next t ∧ OnlyPixels f s t ∧
      ∀ a, (t.fb f).pixels.read a =
        if a = pixelOffset x.toNat y.toNat ∧
            (s.fb f).clip1.x.toNat ≤ x.toNat ∧ x.toNat < (s.fb f).clip2.x.toNat ∧
            (s.fb f).clip1.y.toNat ≤ y.toNat ∧ y.toNat < (s.fb f).clip2.y.toNat then c
        else (s.fb f).pixels.read a

/-- R212, R226: `LINE` colours the visited pixels that lie in the clip rectangle; every other byte
stays. -/
def Obligations.LineResult : Prop :=
  ∀ (s : State) (f : Fb) (x1 y1 x2 y2 : U16) (c : Byte), s.clipOk f = true →
    ∃ t, exec (.line f x1 y1 x2 y2 c) s = .next t ∧ OnlyPixels f s t ∧
      ∀ a, (t.fb f).pixels.read a =
        if s.offsetInClip f a = true ∧
            ((colOf a : Int), (rowOf a : Int)) ∈ linePoints x1 y1 x2 y2 then c
        else (s.fb f).pixels.read a

/-- R213 (a), (b), (c): a line visits its two ends first and last, `max(|dx|,|dy|) + 1` pixels and
none twice, neighbours at most 1 apart in each coordinate. -/
def Obligations.LineVisitsEndToEnd : Prop :=
  ∀ x1 y1 x2 y2 : U16,
    (linePoints x1 y1 x2 y2).head? = some ((x1.toNat : Int), (y1.toNat : Int)) ∧
    (linePoints x1 y1 x2 y2).getLast? = some ((x2.toNat : Int), (y2.toNat : Int)) ∧
    (linePoints x1 y1 x2 y2).length =
      max ((x2.toNat : Int) - x1.toNat).natAbs ((y2.toNat : Int) - y1.toNat).natAbs + 1 ∧
    (linePoints x1 y1 x2 y2).Nodup ∧
    ∀ (i : Nat) (p q : Int × Int), (linePoints x1 y1 x2 y2)[i]? = some p →
      (linePoints x1 y1 x2 y2)[i + 1]? = some q →
      (q.1 - p.1).natAbs ≤ 1 ∧ (q.2 - p.2).natAbs ≤ 1

/-- R213 (d), (e): a line steps once along its major axis per pixel and stays within half a pixel of
the ideal line in the minor axis; horizontal, vertical and diagonal lines are exact. -/
def Obligations.LineStaysNearTheIdeal : Prop :=
  ∀ (x1 y1 x2 y2 : U16) (i : Nat) (p : Int × Int), (linePoints x1 y1 x2 y2)[i]? = some p →
    let dx : Int := (x2.toNat : Int) - x1.toNat
    let dy : Int := (y2.toNat : Int) - y1.toNat
    let u : Int := p.1 - x1.toNat
    let v : Int := p.2 - y1.toNat
    (dy.natAbs ≤ dx.natAbs → u.natAbs = i ∧ 2 * (v * dx - u * dy).natAbs ≤ dx.natAbs) ∧
    (dx.natAbs ≤ dy.natAbs → v.natAbs = i ∧ 2 * (v * dx - u * dy).natAbs ≤ dy.natAbs) ∧
    (dy = 0 → v = 0) ∧ (dx = 0 → u = 0) ∧ (dx.natAbs = dy.natAbs → v * dx = u * dy)

/-- R215: `RECT` colours exactly the pixels of its half-open rectangle that lie in the clip
rectangle, with either back end. -/
def Obligations.RectResult : Prop :=
  ∀ (s : State) (f : Fb) (x1 y1 x2 y2 : U16) (c : Byte), s.clipOk f = true →
    s.blitBusy = false →
    ∃ t, exec (.rect f x1 y1 x2 y2 c) s = .next t ∧ OnlyPixels f s t ∧
      ∀ a, (t.fb f).pixels.read a =
        if max x1.toNat (s.fb f).clip1.x.toNat ≤ colOf a ∧
            colOf a < min x2.toNat (s.fb f).clip2.x.toNat ∧
            max y1.toNat (s.fb f).clip1.y.toNat ≤ rowOf a ∧
            rowOf a < min y2.toNat (s.fb f).clip2.y.toNat then c
        else (s.fb f).pixels.read a

/-- R216: `CLEAR` colours every pixel of the clip rectangle and no other. -/
def Obligations.ClearResult : Prop :=
  ∀ (s : State) (f : Fb) (c : Byte), s.clipOk f = true → s.blitBusy = false →
    ∃ t, exec (.clear f c) s = .next t ∧ OnlyPixels f s t ∧
      ∀ a, (t.fb f).pixels.read a =
        if s.offsetInClip f a = true then c else (s.fb f).pixels.read a

/-- R218: `COPYRECT` moves what `COPY_CLIP` leaves of the rectangle, all reads before all writes
(under `COPY_OVERLAP = snapshot`, the spec's default), or does nothing. -/
def Obligations.CopyrectResult : Prop :=
  ∀ (s : State) (f : Fb) (sx1 sy1 sx2 sy2 dx dy : U16), s.clipOk f = true → s.blitBusy = false →
    s.cfg.copyOverlap = .snapshot →
    copySumOverflows (copyOperands s f sx1 sy1 sx2 sy2 dx dy) = false →
    ∃ t, exec (.copyrect f sx1 sy1 sx2 sy2 dx dy) s = .next t ∧
      (copyClip s.cfg.copyClip (copyOperands s f sx1 sy1 sx2 sy2 dx dy) = none → t = s) ∧
      ∀ j, copyClip s.cfg.copyClip (copyOperands s f sx1 sy1 sx2 sy2 dx dy) = some j →
        OnlyPixels f s t ∧
        ∀ a, (t.fb f).pixels.read a =
          if j.tx ≤ colOf a ∧ colOf a < j.tx + j.nx ∧ j.ty ≤ rowOf a ∧ rowOf a < j.ty + j.ny then
            (s.fb f).pixels.read
              (pixelOffset (j.sx + (colOf a - j.tx)) (j.sy + (rowOf a - j.ty)))
          else (s.fb f).pixels.read a

/-- R219: every `COPY_CLIP` of the model has P1, P2 and P3 and answers no empty rectangle. -/
def Obligations.CopyClipProperties : Prop :=
  ∀ (kind : CopyClipKind) (o : CopyOperands), clipLegal o.clip1 o.clip2 = true →
    (∀ j, copyClip kind o = some j →
      (o.clip1.x.toNat ≤ j.tx ∧ j.tx + j.nx ≤ o.clip2.x.toNat ∧
        o.clip1.y.toNat ≤ j.ty ∧ j.ty + j.ny ≤ o.clip2.y.toNat) ∧
      (o.clip1.x.toNat ≤ j.sx ∧ j.sx + j.nx ≤ o.clip2.x.toNat ∧
        o.clip1.y.toNat ≤ j.sy ∧ j.sy + j.ny ≤ o.clip2.y.toNat) ∧
      (o.sx1.toNat ≤ j.sx ∧ j.sx + j.nx ≤ o.sx2.toNat ∧
        o.sy1.toNat ≤ j.sy ∧ j.sy + j.ny ≤ o.sy2.toNat) ∧
      1 ≤ j.nx ∧ 1 ≤ j.ny) ∧
    (o.sx1.toNat < o.sx2.toNat → o.sy1.toNat < o.sy2.toNat →
      o.clip1.x.toNat ≤ o.sx1.toNat → o.sx2.toNat ≤ o.clip2.x.toNat →
      o.clip1.y.toNat ≤ o.sy1.toNat → o.sy2.toNat ≤ o.clip2.y.toNat →
      o.clip1.x.toNat ≤ o.dx.toNat →
      o.dx.toNat + (o.sx2.toNat - o.sx1.toNat) ≤ o.clip2.x.toNat →
      o.clip1.y.toNat ≤ o.dy.toNat →
      o.dy.toNat + (o.sy2.toNat - o.sy1.toNat) ≤ o.clip2.y.toNat →
      copyClip kind o =
        some ⟨o.sx1.toNat, o.sy1.toNat, o.dx.toNat, o.dy.toNat, o.sx2.toNat - o.sx1.toNat,
          o.sy2.toNat - o.sy1.toNat⟩)

/-- R219: the two named readings of `COPY_CLIP` answer alike where nothing is trimmed at a left or
top edge. -/
def Obligations.CopyClipReadingsAgree : Prop :=
  ∀ o : CopyOperands, o.clip1.x.toNat ≤ o.sx1.toNat → o.clip1.x.toNat ≤ o.dx.toNat →
    o.clip1.y.toNat ≤ o.sy1.toNat → o.clip1.y.toNat ≤ o.dy.toNat →
    copyClip .translate o = copyClip .independent o

/-- R217: the sentinel accumulator reads pixel number `n` from the bits the closed form names. -/
def Obligations.AccumulatorReadsTheClosedForm : Prop :=
  ∀ (n : Nat) (data : List Byte), n ≤ 4 * data.length →
    unpack2bpp n 1 data = (List.range n).map (groupAt data 0)

/-- R220, R217: `TEXT` writes every pixel of its glyph cells that lies in the clip rectangle, glyph
`i` at `x + i*char_w`, with the palette entry its 2-bit group selects; every other byte stays. -/
def Obligations.TextResult : Prop :=
  ∀ (s : State) (f : Fb) (x y : U16) (k : Byte) (pal : Palette) (codes : List Byte) (t : Font),
    s.cfg.font? k = some t → t.wf = true → s.clipOk f = true →
    (codes = [] ∨ (x.toNat + codes.length * t.charW ≤ 65536 ∧ y.toNat + t.charH ≤ 65536)) →
    ∃ u, exec (.text f x y k pal codes) s = .next u ∧ OnlyPixels f s u ∧
      ∀ a, (u.fb f).pixels.read a =
        if s.offsetInClip f a = true ∧
            x.toNat ≤ colOf a ∧ colOf a < x.toNat + codes.length * t.charW ∧
            y.toNat ≤ rowOf a ∧ rowOf a < y.toNat + t.charH then
          pal.pick (groupAt t.glyphData
            (t.offsetOf (codes.getD ((colOf a - x.toNat) / t.charW) 0))
            ((rowOf a - y.toNat) * t.charW + (colOf a - x.toNat) % t.charW))
        else (s.fb f).pixels.read a

/-- R221, R217: `IMAGE` writes every pixel of its picture that lies in the clip rectangle with the
palette entry its 2-bit group selects; every other byte stays. -/
def Obligations.ImageResult : Prop :=
  ∀ (s : State) (f : Fb) (x y w h : U16) (pal : Palette) (data : List Byte),
    (w.toNat * h.toNat + 3) / 4 ≤ data.length → s.clipOk f = true →
    (w.toNat = 0 ∨ h.toNat = 0 ∨ (x.toNat + w.toNat ≤ 65536 ∧ y.toNat + h.toNat ≤ 65536)) →
    ∃ t, exec (.image f x y w h pal data) s = .next t ∧ OnlyPixels f s t ∧
      ∀ a, (t.fb f).pixels.read a =
        if s.offsetInClip f a = true ∧
            x.toNat ≤ colOf a ∧ colOf a < x.toNat + w.toNat ∧
            y.toNat ≤ rowOf a ∧ rowOf a < y.toNat + h.toNat then
          pal.pick (groupAt data 0
            ((rowOf a - y.toNat) * w.toNat + (colOf a - x.toNat)))
        else (s.fb f).pixels.read a

/-- R222: `SCROLLUP` moves rows `h .. h+127` to rows `0 .. 127`, whatever the clip rectangle, and
leaves the extra rows. -/
def Obligations.ScrollupResult : Prop :=
  ∀ (s : State) (f : Fb) (h : U16), h.toNat ≤ s.cfg.extraRows f → h.toNat + 128 ≤ 65535 →
    s.blitBusy = false →
    ∃ t, exec (.scrollup f h) s = .next t ∧ OnlyPixels f s t ∧
      ∀ a, (t.fb f).pixels.read a =
        if rowOf a < 128 then (s.fb f).pixels.read (pixelOffset (colOf a) (rowOf a + h.toNat))
        else (s.fb f).pixels.read a

/-- R241, R245: `HFILL` colours exactly the pixels of its rectangle, with either back end and any
parity of its edges. -/
def Obligations.HfillResult : Prop :=
  ∀ (s : State) (f : Fb) (x1 y1 x2 y2 : U16) (c : Byte), x1.toNat ≤ x2.toNat → x2.toNat ≤ 480 →
    y1.toNat ≤ y2.toNat → y2.toNat ≤ 128 + s.cfg.extraRows f → s.blitBusy = false →
    ∃ t, exec (.hfill f x1 y1 x2 y2 c) s = .next t ∧ OnlyPixels f s t ∧
      ∀ a, (t.fb f).pixels.read a =
        if x1.toNat ≤ colOf a ∧ colOf a < x2.toNat ∧ y1.toNat ≤ rowOf a ∧ rowOf a < y2.toNat then c
        else (s.fb f).pixels.read a

/-- R242, R246: `HCOPY` gives the destination rectangle what the source rectangle held before,
overlapping or not (under `COPY_OVERLAP = snapshot`, the spec's default). -/
def Obligations.HcopyResult : Prop :=
  ∀ (s : State) (f : Fb) (sx sy dx dy nx ny : U16),
    sx.toNat + nx.toNat ≤ 480 → dx.toNat + nx.toNat ≤ 480 →
    sy.toNat + ny.toNat ≤ 128 + s.cfg.extraRows f → dy.toNat + ny.toNat ≤ 128 + s.cfg.extraRows f →
    sy.toNat + ny.toNat ≤ 65535 → dy.toNat + ny.toNat ≤ 65535 → s.blitBusy = false →
    s.cfg.copyOverlap = .snapshot →
    ∃ t, exec (.hcopy f sx sy dx dy nx ny) s = .next t ∧ OnlyPixels f s t ∧
      ∀ a, (t.fb f).pixels.read a =
        if dx.toNat ≤ colOf a ∧ colOf a < dx.toNat + nx.toNat ∧
            dy.toNat ≤ rowOf a ∧ rowOf a < dy.toNat + ny.toNat then
          (s.fb f).pixels.read
            (pixelOffset (sx.toNat + (colOf a - dx.toNat)) (sy.toNat + (rowOf a - dy.toNat)))
        else (s.fb f).pixels.read a

/-- U5, with the model's reading of "the overlapped part" (notes/assumptions/7.md): whatever
`COPY_OVERLAP` is, a direct copy is exact where neither the pixel's source lies in the destination
rectangle nor the pixel in the source rectangle, and where the copy does not follow its source. -/
def Obligations.HcopyOutsideTheOverlap : Prop :=
  ∀ (s : State) (f : Fb) (sx sy dx dy nx ny : U16),
    sx.toNat + nx.toNat ≤ 480 → dx.toNat + nx.toNat ≤ 480 →
    sy.toNat + ny.toNat ≤ 128 + s.cfg.extraRows f → dy.toNat + ny.toNat ≤ 128 + s.cfg.extraRows f →
    sy.toNat + ny.toNat ≤ 65535 → dy.toNat + ny.toNat ≤ 65535 → s.blitBusy = false →
    ∃ t, exec (.hcopy f sx sy dx dy nx ny) s = .next t ∧ OnlyPixelsAndFree f s t ∧
      (∀ a, ¬(dx.toNat ≤ colOf a ∧ colOf a < dx.toNat + nx.toNat ∧
          dy.toNat ≤ rowOf a ∧ rowOf a < dy.toNat + ny.toNat) →
        (t.fb f).pixels.read a = (s.fb f).pixels.read a) ∧
      ∀ i j, i < nx.toNat → j < ny.toNat →
        (copyTouched ⟨sx.toNat, sy.toNat, dx.toNat, dy.toNat, nx.toNat, ny.toNat⟩ i j = false ∨
          pixelOffset dx.toNat dy.toNat ≤ pixelOffset sx.toNat sy.toNat) →
        (t.fb f).pixels.read (pixelOffset (dx.toNat + i) (dy.toNat + j)) =
          (s.fb f).pixels.read (pixelOffset (sx.toNat + i) (sy.toNat + j))

/-- R223, R243, R156: `ACTIVATE` names the buffer and sets the cursor flag for the console, clears it
for graphics, twice as once; `HACT` names the buffer alone. -/
def Obligations.ActivateResult : Prop :=
  ∀ s : State,
    exec (.activate .con) s = .next { s with active := some .con, cursorEn := true } ∧
    exec (.activate .gfx) s = .next { s with active := some .gfx, cursorEn := false } ∧
    (∀ f, exec (.hact f) s = .next { s with active := some f }) ∧
    ∀ f t, exec (.activate f) s = .next t → exec (.activate f) t = .next t

/-- R260 to R263: `LUTGEN` writes all 256 entries by the three formulas and nothing else. -/
def Obligations.LutgenResult : Prop :=
  ∀ s : State, ∃ t, exec .lutgen s = .next t ∧ { t with lut := s.lut } = s ∧
    (∀ i : Fin 16, t.lut[i.val]'(by omega) =
      let part (n : Nat) : Byte :=
        BitVec.ofNat 8 (0x55 * ((((i.val >>> n) % 2) <<< 1) ||| ((i.val >>> 3) % 2)))
      ⟨part 0, part 1, part 2⟩) ∧
    (∀ r g b : Fin 6, t.lut[16 + 36 * r.val + 6 * g.val + b.val]'(by omega) =
      ⟨BitVec.ofNat 8 (0x33 * r.val), BitVec.ofNat 8 (0x33 * g.val),
        BitVec.ofNat 8 (0x33 * b.val)⟩) ∧
    (∀ j : Fin 24, t.lut[232 + j.val]'(by omega) =
      ⟨BitVec.ofNat 8 (8 + 10 * j.val), BitVec.ofNat 8 (8 + 10 * j.val),
        BitVec.ofNat 8 (8 + 10 * j.val)⟩)

/-! ## Laws of the whole block -/

/-- R247, R225: the software back end and the blitter leave the same state, for every instruction;
the stores are in their canonical form, as every reachable store is. -/
def Obligations.BackEndsAgree : Prop :=
  ∀ (i : Instr) (s : State), s.con.pixels.wf = true → s.gfx.pixels.wf = true →
    s.blitBusy = false →
    (∀ t, exec i (s.withCap .software) = .next t →
      exec i (s.withCap .blitter) = .next (t.withCap .blitter)) ∧
    (∀ r, exec i (s.withCap .software) = .refused r → exec i (s.withCap .blitter) = .refused r)

/-- R224: a clipped primitive changes no pixel of `FB[f]` outside the clip rectangle and no pixel of
the other framebuffer. -/
def Obligations.ClipContainment : Prop :=
  ∀ (i : Instr) (s t : State) (f : Fb), isClipped i = true → framebufferOf i = some f →
    exec i s = .next t →
    ∀ g a, (g ≠ f ∨ s.offsetInClip f a = false) →
      (t.fb g).pixels.read a = (s.fb g).pixels.read a

/-- R24: an operation on one framebuffer neither reads nor writes the other's pixels or clip. -/
def Obligations.FramebuffersDoNotInterfere : Prop :=
  ∀ (i : Instr) (s t : State) (f g : Fb) (b : Framebuffer), framebufferOf i = some f → g ≠ f →
    exec i s = .next t → exec i (s.setFb g b) = .next (t.setFb g b)

/-- R25, R315: but for a direct call of the capability, nothing writes an extra row. -/
def Obligations.ExtraRowsAreNeverWritten : Prop :=
  ∀ (i : Instr) (s t : State) (f : Fb) (a : Nat), isDirect i = false → exec i s = .next t →
    128 ≤ rowOf a → (t.fb f).pixels.read a = (s.fb f).pixels.read a

/-- R38: a drawing operation changes nothing but the pixels of its framebuffer (and, where the
overlap of a copy is any value, the model's own counter of free values). -/
def Obligations.DrawingTouchesOnlyPixels : Prop :=
  ∀ (i : Instr) (s t : State) (f : Fb), writesPixels i = true → framebufferOf i = some f →
    s.blitBusy = false → exec i s = .next t →
    OnlyPixelsAndFree f s t ∧ (s.cfg.copyOverlap = .snapshot → t.free = s.free)

/-- R38, R302, R304: what an operation does to the framebuffers depends on nothing of the FRAMER, the
LUT or the display, nor on what waits at the inputs. -/
def Obligations.DrawingIgnoresTheRest : Prop :=
  ∀ (i : Instr) (s t : State) (a : Option Fb) (e : Bool) (l : Vector Rgb 256) (esc : EscState)
    (sc : Vector Byte 256) (rx ops : List Byte) (ev : List Event),
    isOperation i = true → exec i s = .next t →
    ∃ u, exec i { s with
        active := a, cursorEn := e, lut := l, esc := esc, scratch := sc, rx := rx, ops := ops
        events := ev } = .next u ∧
      u.con = t.con ∧ u.gfx = t.gfx ∧ u.free = t.free ∧ u.blitBusy = t.blitBusy

/-- R25, R61: a pixel write changes the pixel it names and no other, of neither framebuffer. -/
def Obligations.PixelsDoNotAlias : Prop :=
  ∀ (s : State) (f g : Fb) (x y x' y' : Nat) (c : Byte), x < 480 → x' < 480 →
    (s.putPixel f x y c).pixel g x' y' =
      if g = f ∧ x' = x ∧ y' = y then c else s.pixel g x' y'

/-- R25, R26, R31, R34, R138: every step keeps the invariant of the reachable states. -/
def Obligations.StepKeepsTheInvariant : Prop :=
  ∀ s t : State, s.Inv → step s = .next t → t.Inv

/-! ## Reset -/

/-- R37: the reset state has the invariant, for every parameter and every unspecified content that
R8 and R25 allow; so has `State.reset`, whose parameters and contents are the model's choice
(notes/assumptions/1.md, 2.md, 3.md). -/
def Obligations.ResetMeetsTheInvariant : Prop :=
  (∀ (cfg : Config) (p : PowerOn), cfg.banner ≠ [] → p.conPixels.wf = true →
      p.gfxPixels.wf = true → p.conPixels.within (cfg.storeSize .con) = true →
      p.gfxPixels.within (cfg.storeSize .gfx) = true → (State.powerOn cfg p).Inv) ∧
    State.reset.Inv

/-- R37, R300: the values reset gives, for every parameter and every unspecified content. -/
def Obligations.ResetValues : Prop :=
  ∀ (cfg : Config) (p : PowerOn),
    let s := State.powerOn cfg p
    s.esc = .idle ∧ s.active = none ∧ s.blitBusy = false ∧
      (∀ f, (s.fb f).clip1 = ⟨0, 0⟩ ∧ (s.fb f).clip2 = ⟨480, 128⟩) ∧
      s.con.pixels = p.conPixels ∧ s.gfx.pixels = p.gfxPixels ∧ s.cursorEn = p.cursorEn ∧
      s.lut = p.lut ∧ s.scratch = p.scratch ∧ s.cfg.fonts = cfg.fonts

/-! ## Refusals -/

/-- R274, U7, U8, U9, U10: operands outside an operation's premise are refused by name, with the
model's exact reading of the coordinate sums of U10 (notes/assumptions/10.md). -/
def Obligations.OperandsOutsideThePremiseRefused : Prop :=
  (∀ (s : State) (f : Fb) (h : U16), s.cfg.extraRows f < h.toNat →
      exec (.scrollup f h) s = .refused .beyondExtraRows) ∧
    (∀ (s : State) (f : Fb) (x1 y1 x2 y2 : U16) (c : Byte),
      ¬(x1.toNat ≤ x2.toNat ∧ x2.toNat ≤ 480 ∧ y1.toNat ≤ y2.toNat ∧
        y2.toNat ≤ 128 + s.cfg.extraRows f) →
      exec (.hfill f x1 y1 x2 y2 c) s = .refused .outsideStore) ∧
    (∀ (s : State) (f : Fb) (sx sy dx dy nx ny : U16),
      ¬(sx.toNat + nx.toNat ≤ 480 ∧ dx.toNat + nx.toNat ≤ 480 ∧
        sy.toNat + ny.toNat ≤ 128 + s.cfg.extraRows f ∧
        dy.toNat + ny.toNat ≤ 128 + s.cfg.extraRows f) →
      exec (.hcopy f sx sy dx dy nx ny) s = .refused .outsideStore) ∧
    (∀ (s : State) (f : Fb) (x y : U16) (k : Byte) (pal : Palette) (codes : List Byte),
      (4 ≤ k.toNat → exec (.text f x y k pal codes) s = .refused .fontIndex) ∧
      ∀ t, s.cfg.font? k = some t →
        (t.wf = false → exec (.text f x y k pal codes) s = .refused .illFormedFont) ∧
        (t.wf = true → codes ≠ [] →
          65536 < x.toNat + codes.length * t.charW ∨ 65536 < y.toNat + t.charH →
          exec (.text f x y k pal codes) s = .refused .coordinateOverflow)) ∧
    (∀ (s : State) (f : Fb) (x y w h : U16) (pal : Palette) (data : List Byte),
      (data.length < (w.toNat * h.toNat + 3) / 4 →
        exec (.image f x y w h pal data) s = .refused .shortImageData) ∧
      ((w.toNat * h.toNat + 3) / 4 ≤ data.length → w.toNat ≠ 0 → h.toNat ≠ 0 →
        65536 < x.toNat + w.toNat ∨ 65536 < y.toNat + h.toNat →
        exec (.image f x y w h pal data) s = .refused .coordinateOverflow)) ∧
    (∀ (s : State) (f : Fb) (sx1 sy1 sx2 sy2 dx dy : U16), s.clipOk f = true →
      sx1.toNat < sx2.toNat → sy1.toNat < sy2.toNat →
      65535 < dx.toNat + (sx2.toNat - sx1.toNat) ∨ 65535 < dy.toNat + (sy2.toNat - sy1.toNat) →
      exec (.copyrect f sx1 sy1 sx2 sy2 dx dy) s = .refused .coordinateOverflow) ∧
    (∀ (s : State) (f : Fb) (h : U16), h.toNat ≤ s.cfg.extraRows f → 65535 < h.toNat + 128 →
      exec (.scrollup f h) s = .refused .coordinateOverflow) ∧
    (∀ (s : State) (f : Fb) (sx sy dx dy nx ny : U16),
      sx.toNat + nx.toNat ≤ 480 → dx.toNat + nx.toNat ≤ 480 →
      sy.toNat + ny.toNat ≤ 128 + s.cfg.extraRows f →
      dy.toNat + ny.toNat ≤ 128 + s.cfg.extraRows f →
      65535 < sy.toNat + ny.toNat ∨ 65535 < dy.toNat + ny.toNat →
      exec (.hcopy f sx sy dx dy nx ny) s = .refused .coordinateOverflow)

/-- The model's choice (notes/assumptions/8.md; no run reaches such a state): while the clip rectangle
breaks the invariant of R26 each clipped primitive is refused by name, whatever it would draw; `TEXT`
and `IMAGE` whose operands break another premise are refused for that first. -/
def Obligations.IllegalClipRefused : Prop :=
  ∀ (s : State) (f : Fb) (x y x1 y1 x2 y2 dx dy : U16) (c : Byte), s.clipOk f = false →
    exec (.setpixel f x y c) s = .refused .illegalClipState ∧
    exec (.line f x1 y1 x2 y2 c) s = .refused .illegalClipState ∧
    exec (.rect f x1 y1 x2 y2 c) s = .refused .illegalClipState ∧
    exec (.clear f c) s = .refused .illegalClipState ∧
    exec (.copyrect f x1 y1 x2 y2 dx dy) s = .refused .illegalClipState ∧
    (∀ (k : Byte) (pal : Palette) (codes : List Byte) (t : Font), s.cfg.font? k = some t →
      t.wf = true → pictureFits x.toNat y.toNat (codes.length * t.charW) t.charH = true →
      exec (.text f x y k pal codes) s = .refused .illegalClipState) ∧
    (∀ (w h : U16) (pal : Palette) (data : List Byte),
      pictureBytes w.toNat h.toNat ≤ data.length →
      pictureFits x.toNat y.toNat w.toNat h.toNat = true →
      exec (.image f x y w h pal data) s = .refused .illegalClipState)

/-! ## The boundary -/

/-- R100: the two bytes of a packed position, the numbers they read back as, and that the two are
inverse to each other, both ways. -/
def Obligations.PackedPositionRoundTrip : Prop :=
  (∀ p : Pos, p.x.toNat < 512 → p.y.toNat < 128 →
      posToBytes p =
          (BitVec.ofNat 8 ((p.y.toNat <<< 1) ||| (p.x.toNat >>> 8)),
            BitVec.ofNat 8 (p.x.toNat &&& 0xFF)) ∧
        posFromBytes (posToBytes p).1 (posToBytes p).2 = p) ∧
    (∀ b0 b1 : Byte,
      (posFromBytes b0 b1).x.toNat = (((b0.toNat &&& 1) <<< 8) ||| b1.toNat) ∧
        (posFromBytes b0 b1).y.toNat = b0.toNat >>> 1) ∧
    (∀ b0 b1 : Byte, posToBytes (posFromBytes b0 b1) = (b0, b1)) ∧
    posToBytes ⟨10, 20⟩ = (0x28, 0x0A) ∧ posToBytes ⟨479, 127⟩ = (0xFF, 0xDF)

/-- R159, R160, R317: restoring a slot brings back the setting saved there, whatever became of the
current setting, and leads to the `SETCLIP` that gives the framebuffer the saved clip. -/
def Obligations.RestoreBringsBackTheSetting : Prop :=
  ∀ (g : Boundary.GraphicsContext) (slot : Fin 32) (other : Boundary.GraphicsSetting) (s : State),
    clipLegal g.current.clip1 g.current.clip2 = true →
    let saved := { Boundary.saveAttrs g slot with current := other }
    (Boundary.selAttrs saved slot).1.current = g.current ∧
      ∃ i t, (Boundary.selAttrs saved slot).2 = [i] ∧ exec i s = .next t ∧
        t.gfx.clip1 = g.current.clip1 ∧ t.gfx.clip2 = g.current.clip2 ∧
        t.gfx.pixels = s.gfx.pixels

/-! ## Added after the first review -/

/-- R218, R242, U5, with the model's reading of "the overlapped part" (notes/assumptions/7.md):
whatever `COPY_OVERLAP` is, a clipped copy completes, leaves every byte outside its destination, and
is exact where neither the pixel's source lies in the destination rectangle nor the pixel in the
source rectangle, and where the copy does not follow its source. -/
def Obligations.CopyrectOutsideTheOverlap : Prop :=
  ∀ (s : State) (f : Fb) (sx1 sy1 sx2 sy2 dx dy : U16), s.clipOk f = true → s.blitBusy = false →
    copySumOverflows (copyOperands s f sx1 sy1 sx2 sy2 dx dy) = false →
    ∃ t, exec (.copyrect f sx1 sy1 sx2 sy2 dx dy) s = .next t ∧
      (copyClip s.cfg.copyClip (copyOperands s f sx1 sy1 sx2 sy2 dx dy) = none → t = s) ∧
      ∀ j, copyClip s.cfg.copyClip (copyOperands s f sx1 sy1 sx2 sy2 dx dy) = some j →
        OnlyPixelsAndFree f s t ∧
        (∀ a, ¬(j.tx ≤ colOf a ∧ colOf a < j.tx + j.nx ∧
            j.ty ≤ rowOf a ∧ rowOf a < j.ty + j.ny) →
          (t.fb f).pixels.read a = (s.fb f).pixels.read a) ∧
        ∀ u v, u < j.nx → v < j.ny →
          (copyTouched j u v = false ∨ pixelOffset j.tx j.ty ≤ pixelOffset j.sx j.sy) →
          (t.fb f).pixels.read (pixelOffset (j.tx + u) (j.ty + v)) =
            (s.fb f).pixels.read (pixelOffset (j.sx + u) (j.sy + v))

/-- R151, R152, at the boundary (the environment beside the block, notes/assumptions/13.md): a command
with less data than it requires, and a command id the environment does not have, change nothing and
issue no operation, whatever the spec leaves open of the commands. Set clip alone may have no data
(R157); that one to three bytes are too few for it, and that an image needs one byte of table index,
are the model's choices. -/
def Obligations.ShortCommandsDoNothing : Prop :=
  ∀ (o : Boundary.Openings) (ids : Boundary.CommandIds) (n id : Byte) (data : List Byte)
    (e : Boundary.Environment),
    (ids.command id = none → Boundary.interpret o ids (n :: id :: data) e = (e, [])) ∧
    ∀ c, ids.command id = some c → data.length < c.required → (c = .plain .setClip → data ≠ []) →
      Boundary.interpret o ids (n :: id :: data) e = (e, [])
end

