-- ==== Sys2Proof/Laws/Memory.lean ====
section
/-! SUPPORT. What a pixel store does: a read after a store, the canonical form and the size of the
store kept, and that canonical stores that read alike are equal. -/

namespace Sys2Proof.Machine

open Sys2Proof

/-! ## Looking up -/

theorem lookupCell_of_absent {cells : List Host.Cell} {a : Nat}
    (h : ∀ p ∈ cells, p.1 ≠ a) : lookupCell cells a = unlistedByte := by
  induction cells with
  | nil => rfl
  | cons p rest ih =>
    obtain ⟨k, v⟩ := p
    have hk : k ≠ a := h (k, v) (by simp)
    simp [lookupCell, hk, ih (fun q hq => h q (by simp [hq]))]

theorem lookupCell_append_left {xs ys : List Host.Cell} {a : Nat}
    (h : ∀ p ∈ ys, p.1 ≠ a) : lookupCell (xs ++ ys) a = lookupCell xs a := by
  induction xs with
  | nil => simpa [lookupCell] using lookupCell_of_absent h
  | cons p rest ih => obtain ⟨k, v⟩ := p; simp [lookupCell, ih]

theorem lookupCell_append_right {xs ys : List Host.Cell} {a : Nat}
    (h : ∀ p ∈ xs, p.1 ≠ a) : lookupCell (xs ++ ys) a = lookupCell ys a := by
  induction xs with
  | nil => rfl
  | cons p rest ih =>
    obtain ⟨k, v⟩ := p
    have hk : k ≠ a := h (k, v) (by simp)
    simp [lookupCell, hk, ih (fun q hq => h q (by simp [hq]))]

theorem lookupCell_filter {cells : List Host.Cell} {q : Nat → Bool} {a : Nat} (h : q a = true) :
    lookupCell (cells.filter (fun p => q p.1)) a = lookupCell cells a := by
  induction cells with
  | nil => rfl
  | cons p rest ih =>
    obtain ⟨k, v⟩ := p
    by_cases hk : k = a
    · subst hk; simp [lookupCell, h]
    · by_cases hq : q k = true <;> simp [lookupCell, hk, hq, ih]

theorem runCells_fst {o : Nat} {bs : List Byte} {p : Host.Cell} (h : p ∈ runCells o bs) :
    o ≤ p.1 ∧ p.1 < o + bs.length := by
  induction bs generalizing o with
  | nil => simp [runCells] at h
  | cons b bs ih =>
    simp only [runCells] at h
    split at h
    · have := ih h; simp; omega
    · rcases List.mem_cons.mp h with h | h
      · subst h; simp
      · have := ih h; simp; omega

theorem lookupCell_runCells {o : Nat} {bs : List Byte} {a : Nat} (h1 : o ≤ a)
    (h2 : a < o + bs.length) : lookupCell (runCells o bs) a = bs.getD (a - o) 0 := by
  induction bs generalizing o with
  | nil => simp at h2; omega
  | cons b bs ih =>
    by_cases ho : o = a
    · subst ho
      by_cases hb : b = unlistedByte
      · have : lookupCell (runCells (o + 1) bs) o = unlistedByte :=
          lookupCell_of_absent (fun p hp => by have := (runCells_fst hp).1; omega)
        simp [runCells, hb, this]
      · simp [runCells, hb, lookupCell]
    · have hlt : o + 1 ≤ a := by omega
      have hi := ih hlt (by simp at h2; omega)
      obtain ⟨d, rfl⟩ : ∃ d, a = o + 1 + d := ⟨a - (o + 1), by omega⟩
      have e1 : o + 1 + d - o = d + 1 := by omega
      have e2 : o + 1 + d - (o + 1) = d := by omega
      rw [e2] at hi
      rw [e1]
      by_cases hb : b = unlistedByte
      · simp [runCells, hb, hi]
      · simp [runCells, hb, lookupCell, ho, hi]

/-! ## Reading after storing -/

/-- Every byte after a store: the stored bytes at the consecutive offsets, every other as before. -/
theorem Memory.read_store (m : Memory) (o : Nat) (bs : List Byte) (a : Nat) :
    (m.store o bs).read a =
      if o ≤ a ∧ a < o + bs.length then bs.getD (a - o) 0 else m.read a := by
  unfold Memory.store
  by_cases hbs : bs = []
  · subst hbs
    have h : ¬ (o ≤ a ∧ a < o + ([] : List Byte).length) := by simp
    rw [if_pos rfl, if_neg h]
  · rw [if_neg hbs]
    simp only [Memory.read]
    by_cases h1 : a < o
    · rw [if_neg (by omega), List.append_assoc, lookupCell_append_left,
        lookupCell_filter (q := fun k => decide (k < o)) (by simpa using h1)]
      intro p hp
      rcases List.mem_append.mp hp with hp | hp
      · have := (runCells_fst hp).1; omega
      · simp at hp; omega
    · by_cases h2 : a < o + bs.length
      · rw [if_pos (by omega), lookupCell_append_left, lookupCell_append_right,
          lookupCell_runCells (by omega) h2]
        · intro p hp; simp at hp; omega
        · intro p hp; simp at hp; omega
      · rw [if_neg (by omega), lookupCell_append_right,
          lookupCell_filter (q := fun k => decide (o + bs.length ≤ k)) (by simp; omega)]
        intro p hp
        rcases List.mem_append.mp hp with hp | hp
        · simp at hp; omega
        · have := (runCells_fst hp).2; omega

theorem Memory.read_write (m : Memory) (a : Nat) (b : Byte) (k : Nat) :
    (m.write a b).read k = if k = a then b else m.read k := by
  unfold Memory.write
  rw [Memory.read_store]
  by_cases h : k = a
  · subst h; simp
  · have h' : ¬ (a ≤ k ∧ k < a + [b].length) := by simp; omega
    rw [if_neg h, if_neg h']

/-- The loaded bytes are the bytes read one by one. -/
theorem Memory.load_eq (m : Memory) (o n : Nat) :
    m.load o n = (List.range' o n).map m.read := by
  unfold Memory.load Memory.read
  apply List.map_congr_left
  intro a ha
  rw [List.mem_range'_1] at ha
  exact lookupCell_filter (q := fun k => decide (o ≤ k) && decide (k < o + n)) (by simp; omega)

@[simp] theorem Memory.load_length (m : Memory) (o n : Nat) : (m.load o n).length = n := by
  simp [Memory.load_eq]

theorem Memory.load_getD (m : Memory) (o n i : Nat) (h : i < n) :
    (m.load o n).getD i 0 = m.read (o + i) := by
  simp [Memory.load_eq, List.getD, h]

/-! ## The canonical form -/

theorem cellsWf_mono {lo lo' : Nat} {cells : List Host.Cell} (h : lo' ≤ lo)
    (hw : cellsWf lo cells = true) : cellsWf lo' cells = true := by
  cases cells with
  | nil => rfl
  | cons p rest =>
    simp [cellsWf] at hw ⊢
    exact ⟨⟨by omega, hw.1.2⟩, hw.2⟩

theorem cellsWf_fst {lo : Nat} {cells : List Host.Cell} (hw : cellsWf lo cells = true) :
    ∀ p ∈ cells, lo ≤ p.1 := by
  induction cells generalizing lo with
  | nil => simp
  | cons p rest ih =>
    simp [cellsWf] at hw
    intro q hq
    rcases List.mem_cons.mp hq with rfl | hq
    · exact hw.1.1
    · have := ih hw.2 q hq; omega

theorem cellsWf_filter {lo : Nat} {cells : List Host.Cell} (q : Host.Cell → Bool)
    (hw : cellsWf lo cells = true) : cellsWf lo (cells.filter q) = true := by
  induction cells generalizing lo with
  | nil => rfl
  | cons p rest ih =>
    simp [cellsWf] at hw
    by_cases hq : q p = true
    · simp [hq, cellsWf, hw.1.1, hw.1.2, ih hw.2]
    · simp only [List.filter_cons, hq]
      exact ih (cellsWf_mono (by omega) hw.2)

theorem cellsWf_append {lo mid : Nat} {xs ys : List Host.Cell} (hx : cellsWf lo xs = true)
    (hlt : ∀ p ∈ xs, p.1 < mid) (hy : cellsWf mid ys = true) (hle : lo ≤ mid) :
    cellsWf lo (xs ++ ys) = true := by
  induction xs generalizing lo with
  | nil => exact cellsWf_mono hle hy
  | cons p rest ih =>
    simp [cellsWf] at hx ⊢
    refine ⟨hx.1, ih hx.2 (fun q hq => hlt q (by simp [hq])) ?_⟩
    have := hlt p (by simp)
    omega

theorem cellsWf_runCells (o : Nat) (bs : List Byte) : cellsWf o (runCells o bs) = true := by
  induction bs generalizing o with
  | nil => rfl
  | cons b bs ih =>
    by_cases hb : b = unlistedByte
    · simp only [runCells, hb, if_true]
      exact cellsWf_mono (by omega) (ih (o + 1))
    · simp [runCells, hb, cellsWf, ih (o + 1)]

theorem cellsWf_raise {lo mid : Nat} {cells : List Host.Cell} (hw : cellsWf lo cells = true)
    (h : ∀ p ∈ cells, mid ≤ p.1) : cellsWf mid cells = true := by
  cases cells with
  | nil => rfl
  | cons p rest =>
    simp [cellsWf] at hw ⊢
    exact ⟨⟨h p (by simp), hw.1.2⟩, hw.2⟩

/-- A store keeps the canonical form. -/
theorem Memory.store_wf {m : Memory} (o : Nat) (bs : List Byte) (h : m.wf = true) :
    (m.store o bs).wf = true := by
  unfold Memory.store
  by_cases hbs : bs = []
  · rwa [if_pos hbs]
  · rw [if_neg hbs]
    unfold Memory.wf at h ⊢
    rw [List.append_assoc]
    apply cellsWf_append (mid := o) (cellsWf_filter _ h) (by intro p hp; simp at hp; omega)
    · apply cellsWf_append (mid := o + bs.length) (cellsWf_runCells o bs)
        (fun p hp => (runCells_fst hp).2)
      · exact cellsWf_raise (cellsWf_filter _ h) (by intro p hp; simp at hp; omega)
      · omega
    · omega

theorem Memory.write_wf {m : Memory} (a : Nat) (b : Byte) (h : m.wf = true) :
    (m.write a b).wf = true := Memory.store_wf a [b] h

/-- A store inside the size of the memory keeps its size. -/
theorem Memory.store_within {m : Memory} {o n : Nat} {bs : List Byte} (h : m.within n = true)
    (ho : o + bs.length ≤ n) : (m.store o bs).within n = true := by
  unfold Memory.store
  by_cases hbs : bs = []
  · rwa [if_pos hbs]
  · rw [if_neg hbs]
    simp only [Memory.within, List.all_eq_true, decide_eq_true_eq] at h ⊢
    intro p hp
    rcases List.mem_append.mp hp with hp | hp
    · rcases List.mem_append.mp hp with hp | hp
      · exact h p (List.mem_filter.mp hp).1
      · have := (runCells_fst hp).2; omega
    · exact h p (List.mem_filter.mp hp).1

theorem Memory.write_within {m : Memory} {a n : Nat} (b : Byte) (h : m.within n = true)
    (ha : a < n) : (m.write a b).within n = true :=
  Memory.store_within h (by simpa using ha)

/-- The store with nothing listed is canonical. -/
theorem Memory.empty_wf : (Memory.mk []).wf = true := rfl

theorem lookupCell_below {lo : Nat} {cells : List Host.Cell} (hw : cellsWf lo cells = true) {a : Nat}
    (ha : a < lo) : lookupCell cells a = unlistedByte :=
  lookupCell_of_absent (fun p hp => by have := cellsWf_fst hw p hp; omega)

/-- Canonical lists that read alike at every offset are equal. -/
theorem cells_ext : ∀ {lo : Nat} {xs ys : List Host.Cell}, cellsWf lo xs = true →
    cellsWf lo ys = true → (∀ a, lookupCell xs a = lookupCell ys a) → xs = ys
  | _, [], [], _, _, _ => rfl
  | _, [], (k, v) :: ys, _, hy, h => by
    simp [cellsWf] at hy
    have := h k
    simp [lookupCell] at this
    exact absurd this.symm hy.1.2
  | _, (k, v) :: xs, [], hx, _, h => by
    simp [cellsWf] at hx
    have := h k
    simp [lookupCell] at this
    exact absurd this hx.1.2
  | lo, (k, v) :: xs, (l, w) :: ys, hx, hy, h => by
    simp [cellsWf] at hx hy
    have hk := h k
    have hl := h l
    simp only [lookupCell, if_true] at hk hl
    have hkl : k = l := by
      rcases Nat.lt_trichotomy k l with hlt | heq | hgt
      · have : ¬ l = k := by omega
        rw [if_neg this, lookupCell_below hy.2 (by omega)] at hk
        exact absurd hk hx.1.2
      · exact heq
      · have : ¬ k = l := by omega
        rw [if_neg this, lookupCell_below hx.2 (by omega)] at hl
        exact absurd hl.symm hy.1.2
    subst hkl
    simp only [if_true] at hk
    subst hk
    congr 1
    apply cells_ext hx.2 hy.2
    intro a
    by_cases ha : k = a
    · subst ha
      rw [lookupCell_below hx.2 (by omega), lookupCell_below hy.2 (by omega)]
    · simpa [lookupCell, ha] using h a

/-- Canonical stores that read alike at every offset are equal. -/
theorem Memory.ext_of_wf {m n : Memory} (hm : m.wf = true) (hn : n.wf = true)
    (h : ∀ a, m.read a = n.read a) : m = n := by
  cases m; cases n
  exact congrArg Memory.mk (cells_ext hm hn h)

end Sys2Proof.Machine
end

