-- ==== Sys2Proof/Laws/State.lean ====
section
/-! SUPPORT. One lemma per field per update of `State`, all true by `rfl` (after a case split on the
framebuffer), tagged `@[simp]`, so that no later proof unfolds a record update. -/

namespace Sys2Proof.Machine

open Sys2Proof

/-! ## `setFb` and `fb` -/

@[simp] theorem State.fb_con (s : State) : s.fb .con = s.con := rfl
@[simp] theorem State.fb_gfx (s : State) : s.fb .gfx = s.gfx := rfl
@[simp] theorem State.setFb_con (s : State) (b : Framebuffer) : s.setFb .con b = { s with con := b } := rfl
@[simp] theorem State.setFb_gfx (s : State) (b : Framebuffer) : s.setFb .gfx b = { s with gfx := b } := rfl
@[simp] theorem State.setFb_fb (s : State) (f : Fb) (b : Framebuffer) : (s.setFb f b).fb f = b := by
  cases f <;> rfl
theorem State.setFb_fb_ne (s : State) {f g : Fb} (b : Framebuffer) (h : g ≠ f) : (s.setFb f b).fb g = s.fb g := by
  cases f <;> cases g <;> first | rfl | exact absurd rfl h
@[simp] theorem State.setFb_setFb (s : State) (f : Fb) (a b : Framebuffer) : (s.setFb f a).setFb f b = s.setFb f b := by
  cases f <;> rfl
@[simp] theorem State.setFb_self (s : State) (f : Fb) : s.setFb f (s.fb f) = s := by
  cases f <;> rfl

@[simp] theorem State.setFb_cfg_eq (s : State) (f : Fb) (b : Framebuffer) : (s.setFb f b).cfg = s.cfg := by
  cases f <;> rfl
@[simp] theorem State.setFb_active_eq (s : State) (f : Fb) (b : Framebuffer) : (s.setFb f b).active = s.active := by
  cases f <;> rfl
@[simp] theorem State.setFb_cursorEn_eq (s : State) (f : Fb) (b : Framebuffer) : (s.setFb f b).cursorEn = s.cursorEn := by
  cases f <;> rfl
@[simp] theorem State.setFb_lut_eq (s : State) (f : Fb) (b : Framebuffer) : (s.setFb f b).lut = s.lut := by
  cases f <;> rfl
@[simp] theorem State.setFb_esc_eq (s : State) (f : Fb) (b : Framebuffer) : (s.setFb f b).esc = s.esc := by
  cases f <;> rfl
@[simp] theorem State.setFb_scratch_eq (s : State) (f : Fb) (b : Framebuffer) : (s.setFb f b).scratch = s.scratch := by
  cases f <;> rfl
@[simp] theorem State.setFb_blitBusy_eq (s : State) (f : Fb) (b : Framebuffer) : (s.setFb f b).blitBusy = s.blitBusy := by
  cases f <;> rfl
@[simp] theorem State.setFb_rx_eq (s : State) (f : Fb) (b : Framebuffer) : (s.setFb f b).rx = s.rx := by
  cases f <;> rfl
@[simp] theorem State.setFb_ops_eq (s : State) (f : Fb) (b : Framebuffer) : (s.setFb f b).ops = s.ops := by
  cases f <;> rfl
@[simp] theorem State.setFb_events_eq (s : State) (f : Fb) (b : Framebuffer) : (s.setFb f b).events = s.events := by
  cases f <;> rfl
@[simp] theorem State.setFb_free_eq (s : State) (f : Fb) (b : Framebuffer) : (s.setFb f b).free = s.free := by
  cases f <;> rfl

/-! ## `setPixels` -/

@[simp] theorem State.setPixels_pixels (s : State) (f : Fb) (m : Memory) : ((s.setPixels f m).fb f).pixels = m := by
  cases f <;> rfl
@[simp] theorem State.setPixels_clip1 (s : State) (f : Fb) (m : Memory) (g : Fb) : ((s.setPixels f m).fb g).clip1 = (s.fb g).clip1 := by
  cases f <;> cases g <;> rfl
@[simp] theorem State.setPixels_clip2 (s : State) (f : Fb) (m : Memory) (g : Fb) : ((s.setPixels f m).fb g).clip2 = (s.fb g).clip2 := by
  cases f <;> cases g <;> rfl
theorem State.setPixels_fb_ne (s : State) {f g : Fb} (m : Memory) (h : g ≠ f) : (s.setPixels f m).fb g = s.fb g :=
  s.setFb_fb_ne _ h
@[simp] theorem State.setPixels_setPixels (s : State) (f : Fb) (m n : Memory) : (s.setPixels f m).setPixels f n = s.setPixels f n := by
  cases f <;> rfl
@[simp] theorem State.setPixels_self (s : State) (f : Fb) : s.setPixels f (s.fb f).pixels = s := by
  cases f <;> rfl
@[simp] theorem State.setPixels_inClip (s : State) (f : Fb) (m : Memory) (g : Fb) (x y : Nat) : ((s.setPixels f m).fb g).inClip x y = (s.fb g).inClip x y := by
  simp [Framebuffer.inClip]
@[simp] theorem State.setPixels_clipOk (s : State) (f : Fb) (m : Memory) (g : Fb) : (s.setPixels f m).clipOk g = s.clipOk g := by
  simp [State.clipOk]
@[simp] theorem State.setPixels_cfg (s : State) (f : Fb) (m : Memory) : (s.setPixels f m).cfg = s.cfg := by
  cases f <;> rfl
@[simp] theorem State.setPixels_active (s : State) (f : Fb) (m : Memory) : (s.setPixels f m).active = s.active := by
  cases f <;> rfl
@[simp] theorem State.setPixels_cursorEn (s : State) (f : Fb) (m : Memory) : (s.setPixels f m).cursorEn = s.cursorEn := by
  cases f <;> rfl
@[simp] theorem State.setPixels_lut (s : State) (f : Fb) (m : Memory) : (s.setPixels f m).lut = s.lut := by
  cases f <;> rfl
@[simp] theorem State.setPixels_esc (s : State) (f : Fb) (m : Memory) : (s.setPixels f m).esc = s.esc := by
  cases f <;> rfl
@[simp] theorem State.setPixels_scratch (s : State) (f : Fb) (m : Memory) : (s.setPixels f m).scratch = s.scratch := by
  cases f <;> rfl
@[simp] theorem State.setPixels_blitBusy (s : State) (f : Fb) (m : Memory) : (s.setPixels f m).blitBusy = s.blitBusy := by
  cases f <;> rfl
@[simp] theorem State.setPixels_rx (s : State) (f : Fb) (m : Memory) : (s.setPixels f m).rx = s.rx := by
  cases f <;> rfl
@[simp] theorem State.setPixels_ops (s : State) (f : Fb) (m : Memory) : (s.setPixels f m).ops = s.ops := by
  cases f <;> rfl
@[simp] theorem State.setPixels_events (s : State) (f : Fb) (m : Memory) : (s.setPixels f m).events = s.events := by
  cases f <;> rfl
@[simp] theorem State.setPixels_free (s : State) (f : Fb) (m : Memory) : (s.setPixels f m).free = s.free := by
  cases f <;> rfl

/-! ## `setClip` -/

@[simp] theorem State.setClip_clip1 (s : State) (f : Fb) (c1 c2 : Pos) : ((s.setClip f c1 c2).fb f).clip1 = c1 := by
  cases f <;> rfl
@[simp] theorem State.setClip_clip2 (s : State) (f : Fb) (c1 c2 : Pos) : ((s.setClip f c1 c2).fb f).clip2 = c2 := by
  cases f <;> rfl
@[simp] theorem State.setClip_pixels (s : State) (f : Fb) (c1 c2 : Pos) (g : Fb) : ((s.setClip f c1 c2).fb g).pixels = (s.fb g).pixels := by
  cases f <;> cases g <;> rfl
theorem State.setClip_fb_ne (s : State) {f g : Fb} (c1 c2 : Pos) (h : g ≠ f) : (s.setClip f c1 c2).fb g = s.fb g :=
  s.setFb_fb_ne _ h
@[simp] theorem State.setClip_cfg (s : State) (f : Fb) (c1 c2 : Pos) : (s.setClip f c1 c2).cfg = s.cfg := by
  cases f <;> rfl
@[simp] theorem State.setClip_active (s : State) (f : Fb) (c1 c2 : Pos) : (s.setClip f c1 c2).active = s.active := by
  cases f <;> rfl
@[simp] theorem State.setClip_cursorEn (s : State) (f : Fb) (c1 c2 : Pos) : (s.setClip f c1 c2).cursorEn = s.cursorEn := by
  cases f <;> rfl
@[simp] theorem State.setClip_lut (s : State) (f : Fb) (c1 c2 : Pos) : (s.setClip f c1 c2).lut = s.lut := by
  cases f <;> rfl
@[simp] theorem State.setClip_esc (s : State) (f : Fb) (c1 c2 : Pos) : (s.setClip f c1 c2).esc = s.esc := by
  cases f <;> rfl
@[simp] theorem State.setClip_scratch (s : State) (f : Fb) (c1 c2 : Pos) : (s.setClip f c1 c2).scratch = s.scratch := by
  cases f <;> rfl
@[simp] theorem State.setClip_blitBusy (s : State) (f : Fb) (c1 c2 : Pos) : (s.setClip f c1 c2).blitBusy = s.blitBusy := by
  cases f <;> rfl
@[simp] theorem State.setClip_rx (s : State) (f : Fb) (c1 c2 : Pos) : (s.setClip f c1 c2).rx = s.rx := by
  cases f <;> rfl
@[simp] theorem State.setClip_ops (s : State) (f : Fb) (c1 c2 : Pos) : (s.setClip f c1 c2).ops = s.ops := by
  cases f <;> rfl
@[simp] theorem State.setClip_events (s : State) (f : Fb) (c1 c2 : Pos) : (s.setClip f c1 c2).events = s.events := by
  cases f <;> rfl
@[simp] theorem State.setClip_free (s : State) (f : Fb) (c1 c2 : Pos) : (s.setClip f c1 c2).free = s.free := by
  cases f <;> rfl

/-! ## `emit` -/

@[simp] theorem State.emit_fb (s : State) (e : Event) (g : Fb) : (s.emit e).fb g = s.fb g := by
  cases g <;> rfl
@[simp] theorem State.emit_cfg (s : State) (e : Event) : (s.emit e).cfg = s.cfg := rfl
@[simp] theorem State.emit_con (s : State) (e : Event) : (s.emit e).con = s.con := rfl
@[simp] theorem State.emit_gfx (s : State) (e : Event) : (s.emit e).gfx = s.gfx := rfl
@[simp] theorem State.emit_active (s : State) (e : Event) : (s.emit e).active = s.active := rfl
@[simp] theorem State.emit_cursorEn (s : State) (e : Event) : (s.emit e).cursorEn = s.cursorEn := rfl
@[simp] theorem State.emit_lut (s : State) (e : Event) : (s.emit e).lut = s.lut := rfl
@[simp] theorem State.emit_esc (s : State) (e : Event) : (s.emit e).esc = s.esc := rfl
@[simp] theorem State.emit_scratch (s : State) (e : Event) : (s.emit e).scratch = s.scratch := rfl
@[simp] theorem State.emit_blitBusy (s : State) (e : Event) : (s.emit e).blitBusy = s.blitBusy := rfl
@[simp] theorem State.emit_rx (s : State) (e : Event) : (s.emit e).rx = s.rx := rfl
@[simp] theorem State.emit_ops (s : State) (e : Event) : (s.emit e).ops = s.ops := rfl
@[simp] theorem State.emit_events (s : State) (e : Event) : (s.emit e).events = s.events ++ [e] := rfl
@[simp] theorem State.emit_free (s : State) (e : Event) : (s.emit e).free = s.free := rfl

/-! ## `setEsc` -/

@[simp] theorem State.setEsc_fb (s : State) (e : EscState) (g : Fb) : (s.setEsc e).fb g = s.fb g := by
  cases g <;> rfl
@[simp] theorem State.setEsc_cfg (s : State) (e : EscState) : (s.setEsc e).cfg = s.cfg := rfl
@[simp] theorem State.setEsc_con (s : State) (e : EscState) : (s.setEsc e).con = s.con := rfl
@[simp] theorem State.setEsc_gfx (s : State) (e : EscState) : (s.setEsc e).gfx = s.gfx := rfl
@[simp] theorem State.setEsc_active (s : State) (e : EscState) : (s.setEsc e).active = s.active := rfl
@[simp] theorem State.setEsc_cursorEn (s : State) (e : EscState) : (s.setEsc e).cursorEn = s.cursorEn := rfl
@[simp] theorem State.setEsc_lut (s : State) (e : EscState) : (s.setEsc e).lut = s.lut := rfl
@[simp] theorem State.setEsc_esc (s : State) (e : EscState) : (s.setEsc e).esc = e := rfl
@[simp] theorem State.setEsc_scratch (s : State) (e : EscState) : (s.setEsc e).scratch = s.scratch := rfl
@[simp] theorem State.setEsc_blitBusy (s : State) (e : EscState) : (s.setEsc e).blitBusy = s.blitBusy := rfl
@[simp] theorem State.setEsc_rx (s : State) (e : EscState) : (s.setEsc e).rx = s.rx := rfl
@[simp] theorem State.setEsc_ops (s : State) (e : EscState) : (s.setEsc e).ops = s.ops := rfl
@[simp] theorem State.setEsc_events (s : State) (e : EscState) : (s.setEsc e).events = s.events := rfl
@[simp] theorem State.setEsc_free (s : State) (e : EscState) : (s.setEsc e).free = s.free := rfl

/-! ## `setScratch` -/

@[simp] theorem State.setScratch_fb (s : State) (i : Nat) (b : Byte) (g : Fb) : (s.setScratch i b).fb g = s.fb g := by
  cases g <;> rfl
@[simp] theorem State.setScratch_cfg (s : State) (i : Nat) (b : Byte) : (s.setScratch i b).cfg = s.cfg := rfl
@[simp] theorem State.setScratch_con (s : State) (i : Nat) (b : Byte) : (s.setScratch i b).con = s.con := rfl
@[simp] theorem State.setScratch_gfx (s : State) (i : Nat) (b : Byte) : (s.setScratch i b).gfx = s.gfx := rfl
@[simp] theorem State.setScratch_active (s : State) (i : Nat) (b : Byte) : (s.setScratch i b).active = s.active := rfl
@[simp] theorem State.setScratch_cursorEn (s : State) (i : Nat) (b : Byte) : (s.setScratch i b).cursorEn = s.cursorEn := rfl
@[simp] theorem State.setScratch_lut (s : State) (i : Nat) (b : Byte) : (s.setScratch i b).lut = s.lut := rfl
@[simp] theorem State.setScratch_esc (s : State) (i : Nat) (b : Byte) : (s.setScratch i b).esc = s.esc := rfl
@[simp] theorem State.setScratch_scratch (s : State) (i : Nat) (b : Byte) : (s.setScratch i b).scratch = s.scratch.setIfInBounds i b := rfl
@[simp] theorem State.setScratch_blitBusy (s : State) (i : Nat) (b : Byte) : (s.setScratch i b).blitBusy = s.blitBusy := rfl
@[simp] theorem State.setScratch_rx (s : State) (i : Nat) (b : Byte) : (s.setScratch i b).rx = s.rx := rfl
@[simp] theorem State.setScratch_ops (s : State) (i : Nat) (b : Byte) : (s.setScratch i b).ops = s.ops := rfl
@[simp] theorem State.setScratch_events (s : State) (i : Nat) (b : Byte) : (s.setScratch i b).events = s.events := rfl
@[simp] theorem State.setScratch_free (s : State) (i : Nat) (b : Byte) : (s.setScratch i b).free = s.free := rfl

/-! ## `setCursorEn` -/

@[simp] theorem State.setCursorEn_fb (s : State) (v : Bool) (g : Fb) : (s.setCursorEn v).fb g = s.fb g := by
  cases g <;> rfl
@[simp] theorem State.setCursorEn_cfg (s : State) (v : Bool) : (s.setCursorEn v).cfg = s.cfg := rfl
@[simp] theorem State.setCursorEn_con (s : State) (v : Bool) : (s.setCursorEn v).con = s.con := rfl
@[simp] theorem State.setCursorEn_gfx (s : State) (v : Bool) : (s.setCursorEn v).gfx = s.gfx := rfl
@[simp] theorem State.setCursorEn_active (s : State) (v : Bool) : (s.setCursorEn v).active = s.active := rfl
@[simp] theorem State.setCursorEn_cursorEn (s : State) (v : Bool) : (s.setCursorEn v).cursorEn = v := rfl
@[simp] theorem State.setCursorEn_lut (s : State) (v : Bool) : (s.setCursorEn v).lut = s.lut := rfl
@[simp] theorem State.setCursorEn_esc (s : State) (v : Bool) : (s.setCursorEn v).esc = s.esc := rfl
@[simp] theorem State.setCursorEn_scratch (s : State) (v : Bool) : (s.setCursorEn v).scratch = s.scratch := rfl
@[simp] theorem State.setCursorEn_blitBusy (s : State) (v : Bool) : (s.setCursorEn v).blitBusy = s.blitBusy := rfl
@[simp] theorem State.setCursorEn_rx (s : State) (v : Bool) : (s.setCursorEn v).rx = s.rx := rfl
@[simp] theorem State.setCursorEn_ops (s : State) (v : Bool) : (s.setCursorEn v).ops = s.ops := rfl
@[simp] theorem State.setCursorEn_events (s : State) (v : Bool) : (s.setCursorEn v).events = s.events := rfl
@[simp] theorem State.setCursorEn_free (s : State) (v : Bool) : (s.setCursorEn v).free = s.free := rfl

/-! ## `setBlitBusy` -/

@[simp] theorem State.setBlitBusy_fb (s : State) (v : Bool) (g : Fb) : (s.setBlitBusy v).fb g = s.fb g := by
  cases g <;> rfl
@[simp] theorem State.setBlitBusy_cfg (s : State) (v : Bool) : (s.setBlitBusy v).cfg = s.cfg := rfl
@[simp] theorem State.setBlitBusy_con (s : State) (v : Bool) : (s.setBlitBusy v).con = s.con := rfl
@[simp] theorem State.setBlitBusy_gfx (s : State) (v : Bool) : (s.setBlitBusy v).gfx = s.gfx := rfl
@[simp] theorem State.setBlitBusy_active (s : State) (v : Bool) : (s.setBlitBusy v).active = s.active := rfl
@[simp] theorem State.setBlitBusy_cursorEn (s : State) (v : Bool) : (s.setBlitBusy v).cursorEn = s.cursorEn := rfl
@[simp] theorem State.setBlitBusy_lut (s : State) (v : Bool) : (s.setBlitBusy v).lut = s.lut := rfl
@[simp] theorem State.setBlitBusy_esc (s : State) (v : Bool) : (s.setBlitBusy v).esc = s.esc := rfl
@[simp] theorem State.setBlitBusy_scratch (s : State) (v : Bool) : (s.setBlitBusy v).scratch = s.scratch := rfl
@[simp] theorem State.setBlitBusy_blitBusy (s : State) (v : Bool) : (s.setBlitBusy v).blitBusy = v := rfl
@[simp] theorem State.setBlitBusy_rx (s : State) (v : Bool) : (s.setBlitBusy v).rx = s.rx := rfl
@[simp] theorem State.setBlitBusy_ops (s : State) (v : Bool) : (s.setBlitBusy v).ops = s.ops := rfl
@[simp] theorem State.setBlitBusy_events (s : State) (v : Bool) : (s.setBlitBusy v).events = s.events := rfl
@[simp] theorem State.setBlitBusy_free (s : State) (v : Bool) : (s.setBlitBusy v).free = s.free := rfl

/-! ## `capActivate` -/

@[simp] theorem capActivate_fb (s : State) (f g : Fb) : (capActivate s f).fb g = s.fb g := by
  cases g <;> rfl
@[simp] theorem capActivate_cfg (s : State) (f : Fb) : (capActivate s f).cfg = s.cfg := rfl
@[simp] theorem capActivate_con (s : State) (f : Fb) : (capActivate s f).con = s.con := rfl
@[simp] theorem capActivate_gfx (s : State) (f : Fb) : (capActivate s f).gfx = s.gfx := rfl
@[simp] theorem capActivate_active (s : State) (f : Fb) : (capActivate s f).active = some f := rfl
@[simp] theorem capActivate_cursorEn (s : State) (f : Fb) : (capActivate s f).cursorEn = s.cursorEn := rfl
@[simp] theorem capActivate_lut (s : State) (f : Fb) : (capActivate s f).lut = s.lut := rfl
@[simp] theorem capActivate_esc (s : State) (f : Fb) : (capActivate s f).esc = s.esc := rfl
@[simp] theorem capActivate_scratch (s : State) (f : Fb) : (capActivate s f).scratch = s.scratch := rfl
@[simp] theorem capActivate_blitBusy (s : State) (f : Fb) : (capActivate s f).blitBusy = s.blitBusy := rfl
@[simp] theorem capActivate_rx (s : State) (f : Fb) : (capActivate s f).rx = s.rx := rfl
@[simp] theorem capActivate_ops (s : State) (f : Fb) : (capActivate s f).ops = s.ops := rfl
@[simp] theorem capActivate_events (s : State) (f : Fb) : (capActivate s f).events = s.events := rfl
@[simp] theorem capActivate_free (s : State) (f : Fb) : (capActivate s f).free = s.free := rfl

end Sys2Proof.Machine
end

