-- ==== Sys2Proof/Laws/Draw.lean ====
section
/-! SUPPORT. What the shared drawing operations do, once each: the software path (`plot`,
`plotAll`), the fills and copies of the back ends, and which pixels they leave alone. -/

namespace Sys2Proof.Machine

open Sys2Proof

/-! ## Offsets and positions -/

theorem pixelOffset_col_row (a : Nat) : pixelOffset (colOf a) (rowOf a) = a := by
  simp only [pixelOffset, colOf, rowOf, screenWidth]; omega

theorem colOf_lt (a : Nat) : colOf a < screenWidth := by
  simp only [colOf, screenWidth]; omega

theorem colOf_pixelOffset {x : Nat} (y : Nat) (h : x < screenWidth) :
    colOf (pixelOffset x y) = x := by
  simp only [pixelOffset, colOf, screenWidth] at *; omega

theorem rowOf_pixelOffset {x : Nat} (y : Nat) (h : x < screenWidth) :
    rowOf (pixelOffset x y) = y := by
  simp only [pixelOffset, rowOf, screenWidth] at *; omega

/-- A run of one row, as a condition on column and row (R25: no padding, no wrap). -/
theorem run_iff {x y n a : Nat} (h : x + n ≤ screenWidth) :
    (pixelOffset x y ≤ a ∧ a < pixelOffset x y + n) ↔
      (x ≤ colOf a ∧ colOf a < x + n ∧ rowOf a = y) := by
  simp only [pixelOffset, colOf, rowOf, screenWidth] at *; omega

/-- A read after one row of bytes is stored, by column and row. -/
theorem read_store_row (m : Memory) {x y : Nat} {bs : List Byte}
    (h : x + bs.length ≤ screenWidth) (a : Nat) :
    (m.store (pixelOffset x y) bs).read a =
      if x ≤ colOf a ∧ colOf a < x + bs.length ∧ rowOf a = y then bs.getD (colOf a - x) 0
      else m.read a := by
  rw [Memory.read_store]
  have hr := run_iff (x := x) (y := y) (n := bs.length) (a := a) h
  by_cases h1 : x ≤ colOf a ∧ colOf a < x + bs.length ∧ rowOf a = y
  · have e : a - pixelOffset x y = colOf a - x := by
      have := pixelOffset_col_row a
      rw [h1.2.2] at this
      simp only [pixelOffset] at *
      omega
    rw [if_pos h1, if_pos (hr.mpr h1), e]
  · rw [if_neg h1, if_neg (fun h' => h1 (hr.mp h'))]

theorem OnlyPixels.refl (f : Fb) (s : State) : OnlyPixels f s s := by
  simp [OnlyPixels]

theorem OnlyPixels.trans {f : Fb} {s t u : State} (h1 : OnlyPixels f s t) (h2 : OnlyPixels f t u) :
    OnlyPixels f s u := by
  unfold OnlyPixels at *
  rw [h1] at h2
  rw [State.setPixels_setPixels] at h2
  exact h2

theorem OnlyPixels.setPixels (f : Fb) (s : State) (m : Memory) : OnlyPixels f s (s.setPixels f m) := by
  simp [OnlyPixels]

/-! ## The software path -/

/-- In a legal clip rectangle the pixel lies in the visible screen (R26). -/
theorem inClip_bounds {b : Framebuffer} {x y : Nat} (hc : clipLegal b.clip1 b.clip2 = true)
    (h : b.inClip x y = true) : x < screenWidth ∧ y < screenHeight := by
  simp [clipLegal, Framebuffer.inClip] at hc h
  omega

/-- Everything `plot` can do (R211): nothing but a pixel of `FB[f]` changes, and it changes only
where the position is in the clip rectangle. -/
theorem plot_onlyPixels (s : State) (f : Fb) (p : Pixel) : OnlyPixels f s (plot s f p) := by
  unfold plot
  split
  · exact OnlyPixels.setPixels f s _
  · exact OnlyPixels.refl f s

theorem plot_read {s : State} {f : Fb} (hc : s.clipOk f = true) (p : Pixel) (a : Nat) :
    ((plot s f p).fb f).pixels.read a =
      if s.offsetInClip f a = true ∧ p.x = colOf a ∧ p.y = rowOf a then p.c
      else (s.fb f).pixels.read a := by
  unfold plot
  by_cases hin : (s.fb f).inClip p.x p.y = true
  · rw [if_pos hin]
    have hb := inClip_bounds hc hin
    simp only [State.putPixel, State.setPixels_pixels, Memory.read_write]
    by_cases ha : a = pixelOffset p.x p.y
    · subst ha
      have e1 := colOf_pixelOffset p.y hb.1
      have e2 := rowOf_pixelOffset p.y hb.1
      rw [if_pos rfl, if_pos]
      exact ⟨by simp only [State.offsetInClip, e1, e2, hin], e1.symm, e2.symm⟩
    · rw [if_neg ha, if_neg]
      rintro ⟨-, h1, h2⟩
      exact ha (by rw [h1, h2, pixelOffset_col_row])
  · rw [if_neg hin, if_neg]
    rintro ⟨h0, h1, h2⟩
    exact hin (by rw [h1, h2]; exact h0)

@[simp] theorem plot_inClip (s : State) (f : Fb) (p : Pixel) (x y : Nat) :
    ((plot s f p).fb f).inClip x y = (s.fb f).inClip x y := by
  unfold plot; split <;> simp [State.putPixel]

@[simp] theorem plot_clipOk (s : State) (f : Fb) (p : Pixel) :
    (plot s f p).clipOk f = s.clipOk f := by
  unfold plot; split <;> simp [State.putPixel]

/-- The colour the last pixel at a position gives it, if any. -/
def lastColour : List Pixel → Nat → Nat → Option Byte
  | [], _, _ => none
  | p :: ps, x, y =>
    match lastColour ps x y with
    | some c => some c
    | none => if p.x = x ∧ p.y = y then some p.c else none

theorem plotAll_onlyPixels (s : State) (f : Fb) (ps : List Pixel) :
    OnlyPixels f s (plotAll s f ps) := by
  induction ps generalizing s with
  | nil => exact OnlyPixels.refl f s
  | cons p ps ih => exact (plot_onlyPixels s f p).trans (ih (plot s f p))

/-- Everything `plotAll` does to the pixels: inside the clip the last pixel at a position wins,
everything else stays (R211, R224). -/
theorem plotAll_read {s : State} {f : Fb} (hc : s.clipOk f = true) (ps : List Pixel) (a : Nat) :
    ((plotAll s f ps).fb f).pixels.read a =
      if s.offsetInClip f a = true then
        (lastColour ps (colOf a) (rowOf a)).getD ((s.fb f).pixels.read a)
      else (s.fb f).pixels.read a := by
  induction ps generalizing s with
  | nil => simp [plotAll, lastColour]
  | cons p ps ih =>
    have hstep : plotAll s f (p :: ps) = plotAll (plot s f p) f ps := rfl
    have hclip : (plot s f p).offsetInClip f a = s.offsetInClip f a := by
      simp [State.offsetInClip]
    rw [hstep, ih (by simpa using hc), hclip, plot_read hc]
    by_cases hin : s.offsetInClip f a = true
    · simp only [hin, if_true, true_and, lastColour]
      cases lastColour ps (colOf a) (rowOf a) with
      | some c => rfl
      | none => by_cases hp : p.x = colOf a ∧ p.y = rowOf a <;> simp [hp]
    · simp [hin]

theorem plot_store {s : State} {f : Fb} {n : Nat} (hc : s.clipOk f = true)
    (hn : screenWidth * screenHeight ≤ n) (p : Pixel)
    (hw : (s.fb f).pixels.wf = true) (hs : (s.fb f).pixels.within n = true) :
    ((plot s f p).fb f).pixels.wf = true ∧ ((plot s f p).fb f).pixels.within n = true := by
  unfold plot
  split
  · rename_i hin
    have hb := inClip_bounds hc hin
    simp only [State.putPixel, State.setPixels_pixels]
    refine ⟨Memory.write_wf _ _ hw, Memory.write_within _ hs ?_⟩
    simp only [pixelOffset, screenWidth, screenHeight] at *; omega
  · exact ⟨hw, hs⟩

/-- `plotAll` keeps the canonical form and the size of the store. -/
theorem plotAll_store {s : State} {f : Fb} {n : Nat} (hc : s.clipOk f = true)
    (hn : screenWidth * screenHeight ≤ n) (ps : List Pixel)
    (hw : (s.fb f).pixels.wf = true) (hs : (s.fb f).pixels.within n = true) :
    ((plotAll s f ps).fb f).pixels.wf = true ∧
      ((plotAll s f ps).fb f).pixels.within n = true := by
  induction ps generalizing s with
  | nil => exact ⟨hw, hs⟩
  | cons p ps ih =>
    have h := plot_store hc hn p hw hs
    exact ih (by simpa using hc) h.1 h.2

/-! ## Fills -/

/-- Everything `fillRows` does to the pixels (R241). -/
theorem fillRows_read (m : Memory) {x1 x2 : Nat} (hx : x1 ≤ x2) (h2 : x2 ≤ screenWidth) (c : Byte)
    (n y a : Nat) :
    (fillRows m x1 x2 c n y).read a =
      if x1 ≤ colOf a ∧ colOf a < x2 ∧ y ≤ rowOf a ∧ rowOf a < y + n then c else m.read a := by
  induction n generalizing m y with
  | zero => rw [fillRows, if_neg (by omega)]
  | succ n ih =>
    have hlen : (List.replicate (x2 - x1) c).length = x2 - x1 := List.length_replicate
    rw [fillRows, ih, read_store_row _ (by omega), hlen]
    by_cases h : x1 ≤ colOf a ∧ colOf a < x2 ∧ y + 1 ≤ rowOf a ∧ rowOf a < y + 1 + n
    · rw [if_pos h, if_pos (by omega)]
    · rw [if_neg h]
      by_cases h' : x1 ≤ colOf a ∧ colOf a < x1 + (x2 - x1) ∧ rowOf a = y
      · have hd : colOf a - x1 < x2 - x1 := by omega
        rw [if_pos h', if_pos (by omega), List.getD_eq_getElem?_getD,
          List.getElem?_replicate, if_pos hd]
        rfl
      · rw [if_neg h', if_neg (by omega)]

theorem fillRows_store {m : Memory} {x1 x2 rows : Nat} (hx : x1 ≤ x2) (h2 : x2 ≤ screenWidth)
    (c : Byte) (n y : Nat) (hy : y + n ≤ rows) (hw : m.wf = true)
    (hs : m.within (screenWidth * rows) = true) :
    (fillRows m x1 x2 c n y).wf = true ∧
      (fillRows m x1 x2 c n y).within (screenWidth * rows) = true := by
  induction n generalizing m y with
  | zero => exact ⟨hw, hs⟩
  | succ n ih =>
    refine ih (y + 1) (by omega) (Memory.store_wf _ _ hw) (Memory.store_within hs ?_)
    rw [List.length_replicate]
    simp only [pixelOffset, screenWidth] at *
    omega

theorem bulkUnits_read (m : Memory) (y : Nat) (c : Byte) (n x a : Nat)
    (h : x + 2 * n ≤ screenWidth) :
    (bulkUnits m y c n x).read a =
      if x ≤ colOf a ∧ colOf a < x + 2 * n ∧ rowOf a = y then c else m.read a := by
  induction n generalizing m x with
  | zero => rw [bulkUnits, if_neg (by omega)]
  | succ n ih =>
    have hlen : ([c, c] : List Byte).length = 2 := rfl
    rw [bulkUnits, ih _ _ (by omega), read_store_row _ (by omega), hlen]
    by_cases h1 : x + 2 ≤ colOf a ∧ colOf a < x + 2 + 2 * n ∧ rowOf a = y
    · rw [if_pos h1, if_pos (by omega)]
    · rw [if_neg h1]
      by_cases h2 : x ≤ colOf a ∧ colOf a < x + 2 ∧ rowOf a = y
      · rw [if_pos h2, if_pos (by omega)]
        have : colOf a - x = 0 ∨ colOf a - x = 1 := by omega
        rcases this with e | e <;> rw [e] <;> rfl
      · rw [if_neg h2, if_neg (by omega)]

theorem bulkRows_read (m : Memory) (x units : Nat) (c : Byte) (n y a : Nat)
    (h : x + 2 * units ≤ screenWidth) :
    (bulkRows m x units c n y).read a =
      if x ≤ colOf a ∧ colOf a < x + 2 * units ∧ y ≤ rowOf a ∧ rowOf a < y + n then c
      else m.read a := by
  induction n generalizing m y with
  | zero => rw [bulkRows, if_neg (by omega)]
  | succ n ih =>
    rw [bulkRows, ih, bulkUnits_read _ _ _ _ _ _ h]
    by_cases h1 : x ≤ colOf a ∧ colOf a < x + 2 * units ∧ y + 1 ≤ rowOf a ∧ rowOf a < y + 1 + n
    · rw [if_pos h1, if_pos (by omega)]
    · rw [if_neg h1]
      by_cases h2 : x ≤ colOf a ∧ colOf a < x + 2 * units ∧ rowOf a = y
      · rw [if_pos h2, if_pos (by omega)]
      · rw [if_neg h2, if_neg (by omega)]

theorem bulkUnits_store {m : Memory} {rows y : Nat} (c : Byte) (n x : Nat)
    (h : x + 2 * n ≤ screenWidth) (hy : y < rows) (hw : m.wf = true)
    (hs : m.within (screenWidth * rows) = true) :
    (bulkUnits m y c n x).wf = true ∧
      (bulkUnits m y c n x).within (screenWidth * rows) = true := by
  induction n generalizing m x with
  | zero => exact ⟨hw, hs⟩
  | succ n ih =>
    refine ih (x + 2) (by omega) (Memory.store_wf _ _ hw) (Memory.store_within hs ?_)
    simp only [pixelOffset, screenWidth, List.length_cons, List.length_nil] at *
    omega

theorem bulkRows_store {m : Memory} {rows : Nat} (x units : Nat) (c : Byte) (n y : Nat)
    (h : x + 2 * units ≤ screenWidth) (hy : y + n ≤ rows) (hw : m.wf = true)
    (hs : m.within (screenWidth * rows) = true) :
    (bulkRows m x units c n y).wf = true ∧
      (bulkRows m x units c n y).within (screenWidth * rows) = true := by
  induction n generalizing m y with
  | zero => exact ⟨hw, hs⟩
  | succ n ih =>
    have h1 := bulkUnits_store c units x h (show y < rows by omega) hw hs
    exact ih (y + 1) (by omega) h1.1 h1.2

/-! ## Copies -/

/-- Every byte after the rows of a copy are written (R242). -/
theorem storeRows_read (m : Memory) (x y w : Nat) (rows : List (List Byte))
    (hw : ∀ r ∈ rows, r.length = w) (h : x + w ≤ screenWidth) (a : Nat) :
    (storeRows m x y rows).read a =
      if x ≤ colOf a ∧ colOf a < x + w ∧ y ≤ rowOf a ∧ rowOf a < y + rows.length then
        (rows.getD (rowOf a - y) []).getD (colOf a - x) 0
      else m.read a := by
  induction rows generalizing m y with
  | nil => rw [storeRows, if_neg (by simp only [List.length_nil]; omega)]
  | cons r rows ih =>
    have hr : r.length = w := hw r (by simp)
    rw [storeRows, ih _ _ (fun q hq => hw q (by simp [hq])), read_store_row _ (by omega), hr,
      List.length_cons]
    by_cases h1 : x ≤ colOf a ∧ colOf a < x + w ∧ y + 1 ≤ rowOf a ∧ rowOf a < y + 1 + rows.length
    · rw [if_pos h1, if_pos (by omega)]
      obtain ⟨d, hd⟩ : ∃ d, rowOf a = y + 1 + d := ⟨rowOf a - (y + 1), by omega⟩
      have e1 : rowOf a - (y + 1) = d := by omega
      have e2 : rowOf a - y = d + 1 := by omega
      rw [e1, e2]; rfl
    · rw [if_neg h1]
      by_cases h2 : x ≤ colOf a ∧ colOf a < x + w ∧ rowOf a = y
      · have e1 : rowOf a - y = 0 := by omega
        rw [if_pos h2, if_pos (by omega), e1]; rfl
      · rw [if_neg h2, if_neg (by omega)]

theorem storeRows_store {m : Memory} {n : Nat} (x w : Nat) (rows : List (List Byte)) (y : Nat)
    (hw : ∀ r ∈ rows, r.length = w) (h : x + w ≤ screenWidth) (hy : y + rows.length ≤ n)
    (hm : m.wf = true) (hs : m.within (screenWidth * n) = true) :
    (storeRows m x y rows).wf = true ∧
      (storeRows m x y rows).within (screenWidth * n) = true := by
  induction rows generalizing m y with
  | nil => exact ⟨hm, hs⟩
  | cons r rows ih =>
    have hr : r.length = w := hw r (by simp)
    rw [List.length_cons] at hy
    refine ih (y + 1) (fun q hq => hw q (by simp [hq])) (by omega) (Memory.store_wf _ _ hm)
      (Memory.store_within hs ?_)
    simp only [pixelOffset, screenWidth] at *
    omega

@[simp] theorem copySource_length (m : Memory) (sx sy nx ny : Nat) :
    (copySource m sx sy nx ny).length = ny := by
  simp [copySource]

theorem copySource_row_length {m : Memory} {sx sy nx ny : Nat} :
    ∀ r ∈ copySource m sx sy nx ny, r.length = nx := by
  intro r hr
  simp only [copySource, List.mem_map] at hr
  obtain ⟨j, -, rfl⟩ := hr
  simp

/-- The snapshot: the byte of column `i`, row `j` of the source (R242). -/
theorem copySource_getD (m : Memory) {sx sy nx ny i j : Nat} (hi : i < nx) (hj : j < ny) :
    ((copySource m sx sy nx ny).getD j []).getD i 0 =
      m.read (pixelOffset (sx + i) (sy + j)) := by
  have : (copySource m sx sy nx ny).getD j [] = m.load (pixelOffset sx (sy + j)) nx := by
    rw [copySource, List.getD_eq_getElem?_getD, List.getElem?_map, List.getElem?_range hj]
    rfl
  have e : pixelOffset sx (sy + j) + i = pixelOffset (sx + i) (sy + j) := by
    simp only [pixelOffset]; omega
  rw [this, Memory.load_getD _ _ _ _ hi, e]

@[simp] theorem freeOverlap_length (n : Nat) (j : CopyJob) (rows : List (List Byte)) :
    (freeOverlap n j rows).length = rows.length := by
  simp [freeOverlap]

theorem freeOverlap_row_length {n w : Nat} {j : CopyJob} {rows : List (List Byte)}
    (h : ∀ r ∈ rows, r.length = w) : ∀ r ∈ freeOverlap n j rows, r.length = w := by
  intro r hr
  simp only [freeOverlap, List.mem_map] at hr
  obtain ⟨⟨q, k⟩, hq, rfl⟩ := hr
  have := List.mem_zipIdx hq
  simp
  exact h q (by rw [this.2.2]; exact List.getElem_mem _)

/-- The rows a copy writes have the size of the copy. -/
theorem copyRows_shape (s : State) (f : Fb) (j : CopyJob) :
    (copyRows s f j).length = j.ny ∧ ∀ r ∈ copyRows s f j, r.length = j.nx := by
  unfold copyRows
  split
  · exact ⟨by simp, freeOverlap_row_length copySource_row_length⟩
  · exact ⟨by simp, copySource_row_length⟩

/-- Everything `copyResult` does to the pixels of `FB[f]` (R242): the destination rectangle takes the
rows of the copy, every other byte stays. -/
theorem copyResult_read (s : State) (f : Fb) (j : CopyJob) (hx : j.tx + j.nx ≤ screenWidth)
    (a : Nat) :
    ((copyResult s f j).fb f).pixels.read a =
      if j.tx ≤ colOf a ∧ colOf a < j.tx + j.nx ∧ j.ty ≤ rowOf a ∧ rowOf a < j.ty + j.ny then
        ((copyRows s f j).getD (rowOf a - j.ty) []).getD (colOf a - j.tx) 0
      else (s.fb f).pixels.read a := by
  have hshape := copyRows_shape s f j
  have key : ((copyResult s f j).fb f).pixels =
      storeRows (s.fb f).pixels j.tx j.ty (copyRows s f j) := by
    unfold copyResult
    by_cases h : copyIsFree s.cfg j = true <;> simp only [h, if_true]
    · cases f <;> rfl
    · simp
  rw [key, storeRows_read _ _ _ j.nx _ hshape.2 hx, hshape.1]

/-- A copy changes nothing but the pixels of `FB[f]` and, where its overlap is free, the counter. -/
theorem copyResult_onlyPixelsAndFree (s : State) (f : Fb) (j : CopyJob) :
    OnlyPixelsAndFree f s (copyResult s f j) := by
  unfold OnlyPixelsAndFree copyResult
  by_cases h : copyIsFree s.cfg j = true <;> simp only [h] <;> cases f <;> rfl

end Sys2Proof.Machine
end

