-- ==== Sys2Proof/Laws/Backend.lean ====
section
/-! SUPPORT. What the capability's `fill_rect` and `copy_rect` do, once for both back ends (R241,
R242, R245, R246): the bytes they write, that they touch nothing else, that they keep the stores in
canonical form and in size. -/

namespace Sys2Proof.Machine

open Sys2Proof

/-! ## fill_rect -/

theorem softwareFill_read (s : State) (f : Fb) {x1 x2 y1 y2 : Nat} (hx : x1 ≤ x2)
    (h2 : x2 ≤ screenWidth) (hy : y1 ≤ y2) (c : Byte) (a : Nat) :
    ((softwareFill s f x1 y1 x2 y2 c).fb f).pixels.read a =
      if x1 ≤ colOf a ∧ colOf a < x2 ∧ y1 ≤ rowOf a ∧ rowOf a < y2 then c
      else (s.fb f).pixels.read a := by
  have e : y1 + (y2 - y1) = y2 := by omega
  simp only [softwareFill, State.setPixels_pixels]
  rw [fillRows_read _ hx h2, e]

theorem patchColumn_read (s : State) (f : Fb) {x y1 y2 : Nat} (hx : x < screenWidth)
    (hy : y1 ≤ y2) (c : Byte) (a : Nat) :
    ((patchColumn s f x y1 y2 c).fb f).pixels.read a =
      if colOf a = x ∧ y1 ≤ rowOf a ∧ rowOf a < y2 then c else (s.fb f).pixels.read a := by
  have e : y1 + (y2 - y1) = y2 := by omega
  simp only [patchColumn, State.setPixels_pixels]
  rw [fillRows_read _ (by omega) (by omega), e]
  by_cases h : colOf a = x ∧ y1 ≤ rowOf a ∧ rowOf a < y2
  · rw [if_pos h, if_pos (by omega)]
  · rw [if_neg h, if_neg (by omega)]

theorem bulkFill_read (s : State) (f : Fb) {x1 x2 y1 y2 : Nat} (hx : x1 ≤ x2)
    (h2 : x2 ≤ screenWidth) (heven : (x2 - x1) % 2 = 0) (hy : y1 ≤ y2) (c : Byte) (a : Nat) :
    ((bulkFill s f x1 y1 x2 y2 c).fb f).pixels.read a =
      if x1 ≤ colOf a ∧ colOf a < x2 ∧ y1 ≤ rowOf a ∧ rowOf a < y2 then c
      else (s.fb f).pixels.read a := by
  have e : y1 + (y2 - y1) = y2 := by omega
  have e2 : x1 + 2 * ((x2 - x1) / 2) = x2 := by omega
  simp only [bulkFill, State.setBlitBusy_fb, State.setPixels_pixels]
  rw [bulkRows_read _ _ _ _ _ _ _ (by omega), e, e2]

/-- The blitter's fill has exactly the result of R241, whatever the parity of its edges (R245). -/
theorem blitterFill_read (s : State) (f : Fb) {x1 x2 y1 y2 : Nat} (hx : x1 ≤ x2)
    (h2 : x2 ≤ screenWidth) (hy : y1 ≤ y2) (c : Byte) (a : Nat) :
    ((blitterFill s f x1 y1 x2 y2 c).fb f).pixels.read a =
      if x1 ≤ colOf a ∧ colOf a < x2 ∧ y1 ≤ rowOf a ∧ rowOf a < y2 then c
      else (s.fb f).pixels.read a := by
  unfold blitterFill
  by_cases h0 : x2 ≤ x1 ∨ y2 ≤ y1
  · rw [if_pos h0, if_neg (by omega)]
  rw [if_neg h0]
  dsimp only
  by_cases hl : x1 % 2 = 1
  · by_cases hr : x1 + 1 < x2 ∧ x2 % 2 = 1
    · simp only [hl, hr, beq_self_eq_true, decide_true, Bool.and_self, if_true]
      by_cases hb : x1 + 1 < x2 - 1
      · rw [if_pos hb, bulkFill_read _ _ (by omega) (by omega) (by omega) hy,
          patchColumn_read _ _ (by omega) hy, patchColumn_read _ _ (by omega) hy]
        repeat' split
        all_goals first | rfl | omega
      · rw [if_neg hb, patchColumn_read _ _ (by omega) hy, patchColumn_read _ _ (by omega) hy]
        repeat' split
        all_goals first | rfl | omega
    · have hr' : (decide (x1 + 1 < x2) && x2 % 2 == 1) = false := by simp; omega
      simp only [hl, hr', beq_self_eq_true, if_true, Bool.false_eq_true, if_false]
      by_cases hb : x1 + 1 < x2
      · rw [if_pos hb, bulkFill_read _ _ (by omega) (by omega) (by omega) hy,
          patchColumn_read _ _ (by omega) hy]
        repeat' split
        all_goals first | rfl | omega
      · rw [if_neg hb, patchColumn_read _ _ (by omega) hy]
        repeat' split
        all_goals first | rfl | omega
  · have hl' : (x1 % 2 == 1) = false := by simp; omega
    by_cases hr : x1 < x2 ∧ x2 % 2 = 1
    · simp only [hl', hr, beq_self_eq_true, decide_true, Bool.and_self, if_true,
        Bool.false_eq_true, if_false]
      by_cases hb : x1 < x2 - 1
      · rw [if_pos hb, bulkFill_read _ _ (by omega) (by omega) (by omega) hy,
          patchColumn_read _ _ (by omega) hy]
        repeat' split
        all_goals first | rfl | omega
      · rw [if_neg hb, patchColumn_read _ _ (by omega) hy]
        repeat' split
        all_goals first | rfl | omega
    · have hr' : (decide (x1 < x2) && x2 % 2 == 1) = false := by simp; omega
      simp only [hl', hr', Bool.false_eq_true, if_false]
      rw [if_pos (by omega), bulkFill_read _ _ (by omega) (by omega) (by omega) hy]

/-- `fill_rect` of either back end gives every byte of its rectangle the colour and leaves every
other byte (R241, R247). -/
theorem capFill_read (s : State) (f : Fb) {x1 x2 y1 y2 : Nat} (hx : x1 ≤ x2)
    (h2 : x2 ≤ screenWidth) (hy : y1 ≤ y2) (c : Byte) (a : Nat) :
    ((capFill s f x1 y1 x2 y2 c).fb f).pixels.read a =
      if x1 ≤ colOf a ∧ colOf a < x2 ∧ y1 ≤ rowOf a ∧ rowOf a < y2 then c
      else (s.fb f).pixels.read a := by
  unfold capFill
  split
  · exact softwareFill_read s f hx h2 hy c a
  · exact blitterFill_read s f hx h2 hy c a

theorem setPixels_onlyPixels {f : Fb} {s t : State} (h : OnlyPixels f s t) (m : Memory) :
    OnlyPixels f s (t.setPixels f m) :=
  h.trans (OnlyPixels.setPixels f t m)

theorem bulkFill_onlyPixels (s : State) (f : Fb) (x1 y1 x2 y2 : Nat) (c : Byte)
    (hb : s.blitBusy = false) : OnlyPixels f s (bulkFill s f x1 y1 x2 y2 c) := by
  unfold OnlyPixels bulkFill
  cases f <;> cases s <;> subst hb <;> rfl

theorem patchColumn_onlyPixels (s : State) (f : Fb) (x y1 y2 : Nat) (c : Byte) :
    OnlyPixels f s (patchColumn s f x y1 y2 c) := OnlyPixels.setPixels f s _

@[simp] theorem patchColumn_blitBusy (s : State) (f : Fb) (x y1 y2 : Nat) (c : Byte) :
    (patchColumn s f x y1 y2 c).blitBusy = s.blitBusy := by
  simp [patchColumn]

theorem blitterFill_onlyPixels (s : State) (f : Fb) (x1 y1 x2 y2 : Nat) (c : Byte)
    (hb : s.blitBusy = false) : OnlyPixels f s (blitterFill s f x1 y1 x2 y2 c) := by
  have hbulk : ∀ {t : State} (x y x' y' : Nat), OnlyPixels f s t → t.blitBusy = false →
      OnlyPixels f s (bulkFill t f x y x' y' c) :=
    fun x y x' y' h h' => h.trans (bulkFill_onlyPixels _ _ _ _ _ _ _ h')
  have hpatch : ∀ {t : State} (x y y' : Nat), OnlyPixels f s t →
      OnlyPixels f s (patchColumn t f x y y' c) :=
    fun x y y' h => h.trans (patchColumn_onlyPixels _ _ _ _ _ _)
  unfold blitterFill
  dsimp only
  repeat' split
  all_goals first
    | exact OnlyPixels.refl f s
    | exact hbulk _ _ _ _ (hpatch _ _ _ (hpatch _ _ _ (OnlyPixels.refl f s))) (by simp [hb])
    | exact hbulk _ _ _ _ (hpatch _ _ _ (OnlyPixels.refl f s)) (by simp [hb])
    | exact hbulk _ _ _ _ (OnlyPixels.refl f s) hb
    | exact hpatch _ _ _ (hpatch _ _ _ (OnlyPixels.refl f s))
    | exact hpatch _ _ _ (OnlyPixels.refl f s)

/-- `fill_rect` of either back end changes nothing but the pixels, and ends with the completion flag
0 (R246). -/
theorem capFill_onlyPixels (s : State) (f : Fb) (x1 y1 x2 y2 : Nat) (c : Byte)
    (hb : s.blitBusy = false) : OnlyPixels f s (capFill s f x1 y1 x2 y2 c) := by
  unfold capFill
  split
  · exact OnlyPixels.setPixels f s _
  · exact blitterFill_onlyPixels s f x1 y1 x2 y2 c hb

/-- What keeps a store in canonical form and in size. -/
def StoreOk (rows : Nat) (m : Memory) : Prop :=
  m.wf = true ∧ m.within (screenWidth * rows) = true

theorem blitterFill_store {s : State} {f : Fb} {rows x1 x2 y1 y2 : Nat} (hx : x1 ≤ x2)
    (h2 : x2 ≤ screenWidth) (hy : y1 ≤ y2) (hr : y2 ≤ rows) (c : Byte)
    (h : StoreOk rows (s.fb f).pixels) :
    StoreOk rows ((blitterFill s f x1 y1 x2 y2 c).fb f).pixels := by
  have hpatch : ∀ {t : State} (x : Nat), x < screenWidth → StoreOk rows (t.fb f).pixels →
      StoreOk rows ((patchColumn t f x y1 y2 c).fb f).pixels := by
    intro t x hxw ht
    simp only [patchColumn, State.setPixels_pixels]
    exact fillRows_store (by omega) (by omega) c _ _ (by omega) ht.1 ht.2
  have hbulk : ∀ {t : State} (x x' : Nat), x ≤ x' → x' ≤ screenWidth →
      StoreOk rows (t.fb f).pixels →
      StoreOk rows ((bulkFill t f x y1 x' y2 c).fb f).pixels := by
    intro t x x' hxx hxw ht
    simp only [bulkFill, State.setBlitBusy_fb, State.setPixels_pixels]
    exact bulkRows_store _ _ c _ _ (by omega) (by omega) ht.1 ht.2
  unfold blitterFill
  by_cases h0 : x2 ≤ x1 ∨ y2 ≤ y1
  · rw [if_pos h0]; exact h
  rw [if_neg h0]
  dsimp only
  split <;> split <;> split <;> simp only [Bool.and_eq_true, decide_eq_true_eq, beq_iff_eq] at * <;>
    first
      | exact hbulk _ _ (by omega) (by omega) (hpatch _ (by omega) (hpatch _ (by omega) h))
      | exact hbulk _ _ (by omega) (by omega) (hpatch _ (by omega) h)
      | exact hbulk _ _ (by omega) (by omega) h
      | exact hpatch _ (by omega) (hpatch _ (by omega) h)
      | exact hpatch _ (by omega) h
      | exact h

/-- `fill_rect` of either back end keeps the canonical form and the size of the store. -/
theorem capFill_store {s : State} {f : Fb} {rows x1 x2 y1 y2 : Nat} (hx : x1 ≤ x2)
    (h2 : x2 ≤ screenWidth) (hy : y1 ≤ y2) (hr : y2 ≤ rows) (c : Byte)
    (h : StoreOk rows (s.fb f).pixels) :
    StoreOk rows ((capFill s f x1 y1 x2 y2 c).fb f).pixels := by
  unfold capFill
  split
  · simp only [softwareFill, State.setPixels_pixels]
    exact fillRows_store hx h2 c _ _ (by omega) h.1 h.2
  · exact blitterFill_store hx h2 hy hr c h

/-! ## copy_rect -/

theorem copyResult_setBlitBusy (s : State) (f : Fb) (j : CopyJob) (v : Bool) :
    copyResult (s.setBlitBusy v) f j = (copyResult s f j).setBlitBusy v := by
  have hrows : copyRows (s.setBlitBusy v) f j = copyRows s f j := by
    simp only [copyRows, State.setBlitBusy_fb, State.setBlitBusy_cfg, State.setBlitBusy_free]
  unfold copyResult
  simp only [hrows, State.setBlitBusy_cfg, State.setBlitBusy_fb]
  by_cases h : copyIsFree s.cfg j = true <;> simp only [h] <;> cases f <;> rfl

/-- `copy_rect` of either back end, with the completion flag 0 before (R246, R247). -/
theorem capCopy_eq (s : State) (f : Fb) (j : CopyJob) (hb : s.blitBusy = false) :
    capCopy s f j = copyResult s f j := by
  unfold capCopy
  split
  · rfl
  · have h0 : (copyResult s f j).blitBusy = false := by
      have := copyResult_onlyPixelsAndFree s f j
      unfold OnlyPixelsAndFree at this
      rw [this]
      simpa using hb
    rw [copyResult_setBlitBusy]
    generalize copyResult s f j = t at *
    cases t
    subst h0
    rfl

theorem capCopy_pixels (s : State) (f : Fb) (j : CopyJob) :
    ((capCopy s f j).fb f).pixels = ((copyResult s f j).fb f).pixels := by
  unfold capCopy
  split
  · rfl
  · rw [copyResult_setBlitBusy]
    simp only [State.setBlitBusy_fb]

theorem copyResult_free (s : State) (f : Fb) (j : CopyJob) :
    (copyResult s f j).free = if copyIsFree s.cfg j then s.free + 1 else s.free := by
  unfold copyResult
  by_cases h : copyIsFree s.cfg j = true <;> simp [h]

/-- Everything `copy_rect` of either back end does to the pixels (R242, R246). -/
theorem capCopy_read (s : State) (f : Fb) (j : CopyJob) (hx : j.tx + j.nx ≤ screenWidth) (a : Nat) :
    ((capCopy s f j).fb f).pixels.read a =
      if j.tx ≤ colOf a ∧ colOf a < j.tx + j.nx ∧ j.ty ≤ rowOf a ∧ rowOf a < j.ty + j.ny then
        ((copyRows s f j).getD (rowOf a - j.ty) []).getD (colOf a - j.tx) 0
      else (s.fb f).pixels.read a := by
  rw [capCopy_pixels, copyResult_read s f j hx]

/-- The snapshot result (R242): where the overlap is not free, the destination rectangle takes what
the source rectangle held. -/
theorem capCopy_read_snapshot (s : State) (f : Fb) (j : CopyJob) (hx : j.tx + j.nx ≤ screenWidth)
    (hf : copyIsFree s.cfg j = false) (a : Nat) :
    ((capCopy s f j).fb f).pixels.read a =
      if j.tx ≤ colOf a ∧ colOf a < j.tx + j.nx ∧ j.ty ≤ rowOf a ∧ rowOf a < j.ty + j.ny then
        (s.fb f).pixels.read (pixelOffset (j.sx + (colOf a - j.tx)) (j.sy + (rowOf a - j.ty)))
      else (s.fb f).pixels.read a := by
  rw [capCopy_read s f j hx]
  by_cases h : j.tx ≤ colOf a ∧ colOf a < j.tx + j.nx ∧ j.ty ≤ rowOf a ∧ rowOf a < j.ty + j.ny
  · rw [if_pos h, if_pos h]
    unfold copyRows
    rw [hf]
    exact copySource_getD _ (by omega) (by omega)
  · rw [if_neg h, if_neg h]

/-- A copy changes nothing but the pixels of `FB[f]` and, where its overlap is free, the counter;
it ends with the completion flag 0 (R246). -/
theorem capCopy_onlyPixelsAndFree (s : State) (f : Fb) (j : CopyJob) (hb : s.blitBusy = false) :
    OnlyPixelsAndFree f s (capCopy s f j) := by
  rw [capCopy_eq s f j hb]
  exact copyResult_onlyPixelsAndFree s f j

/-- Where its overlap is not free, a copy changes nothing but the pixels of `FB[f]`. -/
theorem capCopy_onlyPixels (s : State) (f : Fb) (j : CopyJob) (hb : s.blitBusy = false)
    (hf : copyIsFree s.cfg j = false) : OnlyPixels f s (capCopy s f j) := by
  have h := capCopy_onlyPixelsAndFree s f j hb
  have hfree : (capCopy s f j).free = s.free := by
    rw [capCopy_eq s f j hb, copyResult_free, hf]
    rfl
  unfold OnlyPixelsAndFree at h
  rw [hfree] at h
  unfold OnlyPixels
  refine h.trans ?_
  cases f <;> rfl

/-- A copy keeps the canonical form and the size of the store. -/
theorem capCopy_store {s : State} {f : Fb} {rows : Nat} {j : CopyJob}
    (hx : j.tx + j.nx ≤ screenWidth) (hy : j.ty + j.ny ≤ rows)
    (h : StoreOk rows (s.fb f).pixels) : StoreOk rows ((capCopy s f j).fb f).pixels := by
  have hshape := copyRows_shape s f j
  have key : ((copyResult s f j).fb f).pixels =
      storeRows (s.fb f).pixels j.tx j.ty (copyRows s f j) := by
    unfold copyResult
    split <;> cases f <;> rfl
  rw [capCopy_pixels, key]
  exact storeRows_store j.tx j.nx _ j.ty hshape.2 hx (by rw [hshape.1]; exact hy) h.1 h.2

end Sys2Proof.Machine
end

