-- ==== Sys2Proof/Laws/Decode.lean ====
section
/-! SUPPORT. The operand fields of the records, written and read back (R104). -/

namespace Sys2Proof

/-- A `u16` operand read back from its two bytes (R62, R104). -/
@[simp] theorem u16OfBytes_extract (v : U16) :
    u16OfBytes (v.extractLsb' 0 8) (v.extractLsb' 8 8) = v := by
  apply BitVec.eq_of_toNat_eq
  simp only [u16OfBytes, BitVec.toNat_append, BitVec.extractLsb'_toNat, Nat.shiftRight_eq_div_pow]
  rw [← Nat.shiftLeft_add_eq_or_of_lt (by omega), Nat.shiftLeft_eq]
  have := v.isLt
  omega

/-- Two bytes written back from the `u16` they were read as (R62, R104). -/
@[simp] theorem bytesOfU16_u16OfBytes (lo hi : Byte) :
    bytesOfU16 (u16OfBytes lo hi) = [lo, hi] := by
  have hl := lo.isLt
  have hh := hi.isLt
  simp only [bytesOfU16, u16OfBytes, List.cons.injEq, and_true]
  constructor <;> apply BitVec.eq_of_toNat_eq <;>
    simp only [BitVec.toNat_append, BitVec.extractLsb'_toNat, Nat.shiftRight_eq_div_pow] <;>
    rw [← Nat.shiftLeft_add_eq_or_of_lt (by omega), Nat.shiftLeft_eq] <;> omega

@[simp] theorem fbOfByte_byteOfFb (f : Fb) : fbOfByte (byteOfFb f) = some f := by
  cases f <;> rfl

theorem byteOfFb_of_fbOfByte {b : Byte} {f : Fb} (h : fbOfByte b = some f) : byteOfFb f = b := by
  unfold fbOfByte at h
  split at h
  · cases h
    exact Eq.symm ‹_›
  · split at h
    · cases h
      exact Eq.symm ‹_›
    · simp at h

/-- Everything `splitBytes` does: the two parts, if there are enough bytes. -/
theorem splitBytes_eq_some {n : Nat} {bs front back : List Byte}
    (h : splitBytes n bs = some (front, back)) : front.length = n ∧ bs = front ++ back := by
  unfold splitBytes at h
  split at h
  · simp only [Option.some.injEq, Prod.mk.injEq] at h
    obtain ⟨rfl, rfl⟩ := h
    exact ⟨by rw [List.length_take]; omega, (List.take_append_drop n bs).symm⟩
  · simp at h

theorem splitBytes_append (front back : List Byte) :
    splitBytes front.length (front ++ back) = some (front, back) := by
  simp [splitBytes]

end Sys2Proof
end

