-- ==== Sys2Proof/Laws/Engine.lean ====
section
/-! SUPPORT. What the ENGINE's shared operations do, once: the clipped fill of `RECT` and `CLEAR`
(R214, R215), and the two readings of a copy's clipping along one axis (R219). -/

namespace Sys2Proof.Machine

open Sys2Proof

/-! ## The clipped fill -/

/-- Everything a clipped fill does to the pixels (R215). -/
theorem clippedFill_read {s : State} {f : Fb} (hc : s.clipOk f = true) (r : Rect) (c : Byte)
    (a : Nat) :
    ((clippedFill s f r c).fb f).pixels.read a =
      if max r.x1 (s.fb f).clip1.x.toNat ≤ colOf a ∧
          colOf a < min r.x2 (s.fb f).clip2.x.toNat ∧
          max r.y1 (s.fb f).clip1.y.toNat ≤ rowOf a ∧
          rowOf a < min r.y2 (s.fb f).clip2.y.toNat then c
      else (s.fb f).pixels.read a := by
  simp [State.clipOk, clipLegal] at hc
  unfold clippedFill
  dsimp only
  by_cases he : (clipRect (s.fb f).clip1 (s.fb f).clip2 r).empty = true
  · rw [if_pos he, if_neg]
    simp [clipRect, Rect.empty] at he
    omega
  · rw [if_neg he, capFill_read]
    · rfl
    all_goals simp [clipRect, Rect.empty] at he ⊢
    all_goals omega

/-- A clipped fill changes nothing but the pixels of `FB[f]`. -/
theorem clippedFill_onlyPixels (s : State) (f : Fb) (r : Rect) (c : Byte)
    (hb : s.blitBusy = false) : OnlyPixels f s (clippedFill s f r c) := by
  unfold clippedFill
  dsimp only
  split
  · exact OnlyPixels.refl _ _
  · exact capFill_onlyPixels _ _ _ _ _ _ _ hb

/-! ## A copy's clipping, along one axis -/

/-- The default reading: what is left of both spans lies in the clip and in the operands (R219). -/
theorem translate_axis {c1 c2 s1 s2 d : Nat} (hs : s1 < s2)
    (h : ¬ s2 - s1 ≤ max (c1 - s1) (c1 - d) + max (s2 - c2) (d + (s2 - s1) - c2)) :
    let l := max (c1 - s1) (c1 - d)
    let n := s2 - s1 - l - max (s2 - c2) (d + (s2 - s1) - c2)
    c1 ≤ d + l ∧ d + l + n ≤ c2 ∧ c1 ≤ s1 + l ∧ s1 + l + n ≤ c2 ∧ s1 + l + n ≤ s2 ∧ 1 ≤ n := by
  dsimp only
  refine ⟨?_, ?_, ?_, ?_, ?_, ?_⟩ <;> omega

/-- The other reading: what is left of both spans lies in the clip and in the operands (R219). -/
theorem independent_axis {c1 c2 s1 s2 d : Nat} (h1 : ¬ min s2 c2 ≤ max s1 c1)
    (h2 : ¬ min (d + (min s2 c2 - max s1 c1)) c2 ≤ max d c1) :
    let n := min (d + (min s2 c2 - max s1 c1)) c2 - max d c1
    c1 ≤ max d c1 ∧ max d c1 + n ≤ c2 ∧ c1 ≤ max s1 c1 ∧ max s1 c1 + n ≤ c2 ∧
      s1 ≤ max s1 c1 ∧ max s1 c1 + n ≤ s2 ∧ 1 ≤ n := by
  dsimp only
  refine ⟨?_, ?_, ?_, ?_, ?_, ?_, ?_⟩ <;> omega

/-- With nothing trimmed at the low edge the two readings answer alike (R219). -/
theorem readings_axis {c1 c2 s1 s2 d : Nat} (hs : c1 ≤ s1) (hd : c1 ≤ d) (hl : s1 < s2) :
    (s2 - s1 ≤ max (c1 - s1) (c1 - d) + max (s2 - c2) (d + (s2 - s1) - c2) ↔
      min s2 c2 ≤ max s1 c1 ∨ min (d + (min s2 c2 - max s1 c1)) c2 ≤ max d c1) ∧
    (¬ s2 - s1 ≤ max (c1 - s1) (c1 - d) + max (s2 - c2) (d + (s2 - s1) - c2) →
      s1 + max (c1 - s1) (c1 - d) = max s1 c1 ∧ d + max (c1 - s1) (c1 - d) = max d c1 ∧
        s2 - s1 - max (c1 - s1) (c1 - d) - max (s2 - c2) (d + (s2 - s1) - c2) =
          min (d + (min s2 c2 - max s1 c1)) c2 - max d c1) := by
  have e1 : max (c1 - s1) (c1 - d) = 0 := by omega
  have e2 : max s1 c1 = s1 := by omega
  have e3 : max d c1 = d := by omega
  rw [e1, e2, e3]
  refine ⟨⟨?_, ?_⟩, fun h => ⟨?_, ?_, ?_⟩⟩ <;> omega

end Sys2Proof.Machine
end

