-- ==== Sys2Proof/Laws/Framer.lean ====
section
/-! SUPPORT. What a FRAMER step does, once: it answers a next state in every legal state (R120), it
writes nothing but `ESC`, `SCRATCH` and the events (R38), it keeps the escape state legal (R138), and
the nested replay of a banner mismatch ends within the fuel of R136. -/

namespace Sys2Proof.Machine

open Sys2Proof

/-! ## The class of a byte -/

/-- In a legal escape state every byte has a class (R91, R120). -/
theorem classify_ok {cfg : Config} {esc : EscState} (h : esc.legal cfg = true) (b : Byte) :
    ∃ c, classify cfg esc b = .ok c := by
  cases esc with
  | idle => exact ⟨_, rfl⟩
  | sawEscape => exact ⟨_, rfl⟩
  | csi pos =>
    simp only [EscState.legal, decide_eq_true_eq] at h
    simp only [classify, if_pos h]
    exact ⟨_, rfl⟩
  | binaryFrame pos total =>
    simp only [EscState.legal, Bool.or_eq_true, Bool.and_eq_true, beq_iff_eq,
      decide_eq_true_eq] at h
    simp only [classify]
    by_cases h0 : pos = 0 ∧ total = 0
    · rw [if_pos h0]; exact ⟨_, rfl⟩
    · rw [if_neg h0, if_pos (h.resolve_left h0)]; exact ⟨_, rfl⟩
  | watching k =>
    simp only [EscState.legal, decide_eq_true_eq] at h
    simp only [classify, List.getElem?_eq_getElem h]
    exact ⟨_, rfl⟩

/-! ## One step, given the meaning of a mismatch -/

/-- The weight of an escape state: how many bytes at least led to it from `Idle`. A banner watch at
`k` took three bytes for its erase-screen CSI and `k` more (R136). -/
def escWeight : EscState → Nat
  | .idle => 0
  | .sawEscape => 1
  | .csi _ => 2
  | .binaryFrame _ _ => 2
  | .watching k => 3 + k

/-- What a FRAMER step keeps and adds: nothing but its own state is written, the events only grow, a
legal state stays legal and in step with its length byte, the weight grows by one at most. -/
structure FramerFrame (s t : State) : Prop where
  only : OnlyFramer s t
  grows : s.events <+: t.events
  legal : s.esc.legal s.cfg = true → s.cfg.banner ≠ [] → t.esc.legal t.cfg = true
  agrees : s.frameLengthAgrees = true → s.esc.legal s.cfg = true → t.frameLengthAgrees = true
  weight : escWeight t.esc ≤ escWeight s.esc + 1

theorem OnlyFramer.cfg_eq {s t : State} (h : OnlyFramer s t) : t.cfg = s.cfg := by
  unfold OnlyFramer at h; rw [h]

theorem OnlyFramer.trans {s t u : State} (h1 : OnlyFramer s t) (h2 : OnlyFramer t u) :
    OnlyFramer s u := by
  unfold OnlyFramer at *
  rw [h1] at h2
  exact h2

theorem OnlyFramer.refl (s : State) : OnlyFramer s s := rfl

theorem scratchBytes_setScratch_self {s : State} {b : Byte} :
    (s.setScratch 0 b).scratch[0] = b := by
  simp [State.setScratch]

theorem scratch_zero_setScratch {s : State} {pos : Nat} {b : Byte} (h : 1 ≤ pos) :
    (s.setScratch pos b).scratch[0] = s.scratch[0] := by
  have h0 : ¬ pos = 0 := by omega
  simp [State.setScratch, h0]

/-- The frame of each class but the mismatch. -/
theorem framerStepWith_frame {miss : Byte → State → Outcome} {b : Byte} {s t : State}
    (hm : ∀ k, s.esc = .watching k → k < s.cfg.banner.length → miss b s = .next t →
      FramerFrame s t)
    (h : framerStepWith miss b s = .next t) : FramerFrame s t := by
  have simple : ∀ e : EscState, t = s.setEsc e → (e.legal s.cfg = true ∨ s.cfg.banner = []) →
      (∀ p q, e ≠ .binaryFrame (p + 1) q) → escWeight e ≤ escWeight s.esc + 1 →
      FramerFrame s t := by
    rintro e rfl hl hb hw
    refine ⟨rfl, by simp, fun _ hne => hl.resolve_right hne, fun _ _ => ?_, hw⟩
    cases e with
    | binaryFrame p q =>
      cases p with
      | zero => rfl
      | succ p => exact absurd rfl (hb p q)
    | _ => rfl
  have emitting : ∀ (ev : Event) (e : EscState), t = (s.emit ev).setEsc e →
      (e.legal s.cfg = true ∨ s.cfg.banner = []) →
      (∀ p q, e ≠ .binaryFrame (p + 1) q) → escWeight e ≤ escWeight s.esc + 1 →
      FramerFrame s t := by
    rintro ev e rfl hl hb hw
    refine ⟨rfl, by simp, fun _ hne => hl.resolve_right hne, fun _ _ => ?_, hw⟩
    cases e with
    | binaryFrame p q =>
      cases p with
      | zero => rfl
      | succ p => exact absurd rfl (hb p q)
    | _ => rfl
  have hwatch : (EscState.watching 0).legal s.cfg = true ∨ s.cfg.banner = [] := by
    cases hb : s.cfg.banner with
    | nil => exact .inr rfl
    | cons x xs => exact .inl (by simp [EscState.legal, hb])
  have hcsi0 : (EscState.csi 0).legal s.cfg = true := by
    unfold EscState.legal
    cases s.cfg.csiOverflow <;> rfl
  unfold framerStepWith at h
  cases hc : classify s.cfg s.esc b with
  | error e => simp [hc] at h
  | ok c =>
    rw [hc] at h
    cases hesc : s.esc with
    | idle =>
      simp only [hesc, classify] at hc
      split at hc <;> (obtain rfl := Except.ok.inj hc)
      · simp only [execIdleEsc, hesc, Host.Outcome.next.injEq] at h
        exact simple _ h.symm (.inl rfl) (by simp) (by simp [escWeight, hesc])
      · simp only [execIdleChar, hesc, Host.Outcome.next.injEq] at h
        subst h
        exact ⟨rfl, by simp, fun hl _ => by simpa using hl,
          fun ha _ => by simpa [State.frameLengthAgrees] using ha, by simp⟩
    | sawEscape =>
      simp only [hesc, classify] at hc
      split at hc
      · obtain rfl := Except.ok.inj hc
        simp only [execEscEsc, hesc, Host.Outcome.next.injEq] at h
        exact simple _ h.symm (.inl rfl) (by simp) (by simp [escWeight, hesc])
      · split at hc
        · obtain rfl := Except.ok.inj hc
          simp only [execEscCsi, hesc, Host.Outcome.next.injEq] at h
          exact simple _ h.symm (.inl hcsi0) (by simp) (by simp [escWeight, hesc])
        · split at hc <;> (obtain rfl := Except.ok.inj hc)
          · simp only [execEscRi, hesc, Host.Outcome.next.injEq] at h
            exact emitting _ _ h.symm (.inl rfl) (by simp) (by simp [escWeight])
          · simp only [execEscOther, hesc, Host.Outcome.next.injEq] at h
            exact simple _ h.symm (.inl rfl) (by simp) (by simp [escWeight])
    | csi pos =>
      simp only [hesc, classify] at hc
      split at hc
      · rename_i hpos
        split at hc
        · obtain rfl := Except.ok.inj hc
          simp only [execCsiParam, hesc] at h
          split at h
          · exact simple _ (Host.Outcome.next.inj h).symm (.inl rfl) (by simp) (by simp [escWeight])
          · rename_i hlim
            have := Host.Outcome.next.inj h
            subst this
            refine ⟨rfl, by simp, fun _ _ => ?_, fun _ _ => rfl, by simp [escWeight, hesc]⟩
            simp only [State.setEsc_esc, EscState.legal, State.setEsc_cfg, State.setScratch_cfg]
            exact decide_eq_true (by omega)
        · split at hc <;> (obtain rfl := Except.ok.inj hc)
          · simp only [execCsiFinalJ, hesc, Host.Outcome.next.injEq] at h
            exact emitting _ _ h.symm hwatch (by simp) (by simp [escWeight, hesc])
          · simp only [execCsiFinal, hesc, Host.Outcome.next.injEq] at h
            exact emitting _ _ h.symm (.inl rfl) (by simp) (by simp [escWeight])
      · simp at hc
    | binaryFrame pos total =>
      simp only [hesc, classify] at hc
      split at hc
      · rename_i h0
        obtain ⟨rfl, rfl⟩ := h0
        split at hc <;> (obtain rfl := Except.ok.inj hc)
        · simp only [execBinLen0, hesc, Host.Outcome.next.injEq] at h
          exact simple _ h.symm (.inl rfl) (by simp) (by simp [escWeight])
        · rename_i hb
          simp only [execBinLen, hesc, Host.Outcome.next.injEq] at h
          subst h
          have hpos : 0 < b.toNat := by
            rcases Nat.eq_zero_or_pos b.toNat with h0 | h0
            · exact absurd (BitVec.eq_of_toNat_eq (by simpa using h0)) hb
            · exact h0
          refine ⟨rfl, by simp, fun _ _ => ?_, fun _ _ => ?_, by simp [escWeight, hesc]⟩
          · have := b.isLt
            simp [EscState.legal]
            omega
          · simp [State.frameLengthAgrees]
      · split at hc
        · rename_i hr
          obtain rfl := Except.ok.inj hc
          simp only [execBinData, hesc, if_pos hr] at h
          split at h
          · have := Host.Outcome.next.inj h
            subst this
            exact ⟨rfl, by simp, fun _ _ => rfl, fun _ _ => rfl, by simp [escWeight]⟩
          · rename_i hne
            have := Host.Outcome.next.inj h
            subst this
            refine ⟨rfl, by simp, fun _ _ => ?_, fun ha _ => ?_, by simp [escWeight, hesc]⟩
            · simp [EscState.legal]
              omega
            · obtain ⟨p, rfl⟩ : ∃ p, pos = p + 1 := ⟨pos - 1, by omega⟩
              simp only [State.frameLengthAgrees, hesc, beq_iff_eq] at ha
              simp [State.frameLengthAgrees, ha]
        · simp at hc
    | watching k =>
      simp only [hesc, classify] at hc
      cases hk : s.cfg.banner[k]? with
      | none => rw [hk] at hc; simp only at hc; split at hc <;> simp at hc
      | some x =>
        rw [hk] at hc
        simp only at hc
        by_cases hbx : b = x
        · rw [if_pos hbx] at hc
          obtain rfl := Except.ok.inj hc
          have hlt : k < s.cfg.banner.length := (List.getElem?_eq_some_iff.mp hk).1
          simp only [execWbbMatch, hesc, hk, hbx, if_true] at h
          split at h
          · exact emitting _ _ (Host.Outcome.next.inj h).symm (.inl rfl) (by simp)
              (by simp [escWeight])
          · exact simple _ (Host.Outcome.next.inj h).symm
              (.inl (by simp [EscState.legal]; omega)) (by simp) (by simp [escWeight, hesc]; omega)
        · rw [if_neg hbx] at hc
          obtain rfl := Except.ok.inj hc
          exact hm k hesc (List.getElem?_eq_some_iff.mp hk).1 h

/-! ## Replay -/

theorem replayBytes_frame {f : Byte → State → Outcome}
    (hf : ∀ b s t, f b s = .next t → FramerFrame s t) {bs : List Byte} {s t : State}
    (h : replayBytes f bs s = .next t) :
    OnlyFramer s t ∧ s.events <+: t.events ∧
      (s.esc.legal s.cfg = true → s.cfg.banner ≠ [] → t.esc.legal t.cfg = true) ∧
      (s.frameLengthAgrees = true → s.esc.legal s.cfg = true → s.cfg.banner ≠ [] →
        t.frameLengthAgrees = true) ∧
      escWeight t.esc ≤ escWeight s.esc + bs.length := by
  induction bs generalizing s with
  | nil =>
    obtain rfl := Host.Outcome.next.inj h
    exact ⟨rfl, List.prefix_rfl, fun hl _ => hl, fun ha _ _ => ha, by simp⟩
  | cons b bs ih =>
    simp only [replayBytes] at h
    cases hb : f b s with
    | next u =>
      rw [hb] at h
      have hu := hf b s u hb
      obtain ⟨i1, i2, i3, i4, i5⟩ := ih h
      have hcfg := hu.only.cfg_eq
      refine ⟨hu.only.trans i1, hu.grows.trans i2, fun hl hne => i3 (hu.legal hl hne) (hcfg ▸ hne),
        fun ha hl hne => i4 (hu.agrees ha hl) (hu.legal hl hne) (hcfg ▸ hne), ?_⟩
      have := hu.weight
      simp only [List.length_cons]
      omega
    | fault r => rw [hb] at h; simp at h
    | refused r => rw [hb] at h; simp at h

/-- Everything the replay of a mismatch does, if the steps it is made of do. -/
theorem replayMiss_frame {f : Byte → State → Outcome}
    (hf : ∀ b s t, f b s = .next t → FramerFrame s t) {b : Byte} {s t : State}
    (hk : ∀ k, s.esc = .watching k → k < s.cfg.banner.length)
    (h : replayMiss f b s = .next t) : FramerFrame s t := by
  unfold replayMiss at h
  cases hesc : s.esc with
  | watching k =>
    have hlt := hk k hesc
    have hne : s.cfg.banner ≠ [] := by
      intro h0; rw [h0] at hlt; simp at hlt
    rw [hesc] at h
    obtain ⟨h1, h2, h3, h4, h5⟩ := replayBytes_frame hf h
    refine ⟨h1, by simpa using h2, fun _ hne => h3 rfl (by simpa using hne),
      fun _ _ => h4 rfl rfl (by simpa using hne), ?_⟩
    simp only [State.setEsc_esc, escWeight, List.length_append, List.length_take,
      List.length_singleton] at h5
    rw [hesc]
    simp only [escWeight] at h5 ⊢
    have := Nat.min_le_left k s.cfg.banner.length
    omega
  | idle => rw [hesc] at h; simp at h
  | sawEscape => rw [hesc] at h; simp at h
  | csi p => rw [hesc] at h; simp at h
  | binaryFrame p q => rw [hesc] at h; simp at h

theorem framerStep_frame (n : Nat) (b : Byte) (s t : State) (h : framerStep n b s = .next t) :
    FramerFrame s t := by
  induction n generalizing b s t with
  | zero => exact framerStepWith_frame (fun _ _ _ hm => by simp at hm) h
  | succ n ih =>
    refine framerStepWith_frame (fun k hesc hlt hm => ?_) h
    refine replayMiss_frame ih (fun k' hesc' => ?_) hm
    rw [hesc] at hesc'
    obtain rfl := EscState.watching.inj hesc'
    exact hlt

/-! ## The replay ends -/

/-- In a legal state a FRAMER step answers a next state if the meaning of a mismatch does (R120). -/
theorem framerStepWith_total {miss : Byte → State → Outcome} {b : Byte} {s : State}
    (hl : s.esc.legal s.cfg = true)
    (hm : ∀ k, s.esc = .watching k → k < s.cfg.banner.length → ∃ t, miss b s = .next t) :
    ∃ t, framerStepWith miss b s = .next t := by
  cases hesc : s.esc with
  | idle =>
    by_cases h1 : b = 0x1B
    · simp only [framerStepWith, hesc, classify, if_pos h1, execIdleEsc]
      exact ⟨_, rfl⟩
    · simp only [framerStepWith, hesc, classify, if_neg h1, execIdleChar]
      exact ⟨_, rfl⟩
  | sawEscape =>
    by_cases h1 : b = 0x1B
    · simp only [framerStepWith, hesc, classify, if_pos h1, execEscEsc]
      exact ⟨_, rfl⟩
    · by_cases h2 : b = 0x5B
      · simp only [framerStepWith, hesc, classify, if_neg h1, if_pos h2, execEscCsi]
        exact ⟨_, rfl⟩
      · by_cases h3 : b = 0x4D
        · simp only [framerStepWith, hesc, classify, if_neg h1, if_neg h2, if_pos h3, execEscRi]
          exact ⟨_, rfl⟩
        · simp only [framerStepWith, hesc, classify, if_neg h1, if_neg h2, if_neg h3, execEscOther]
          exact ⟨_, rfl⟩
  | csi pos =>
    rw [hesc] at hl
    simp only [EscState.legal, decide_eq_true_eq] at hl
    by_cases h1 : isParamByte b = true
    · by_cases h2 : s.cfg.csiOverflow.limit ≤ pos + 1
      · simp only [framerStepWith, hesc, classify, if_pos hl, if_pos h1, execCsiParam, if_pos h2]
        exact ⟨_, rfl⟩
      · simp only [framerStepWith, hesc, classify, if_pos hl, if_pos h1, execCsiParam, if_neg h2]
        exact ⟨_, rfl⟩
    · by_cases h2 : b = 0x4A
      · simp only [framerStepWith, hesc, classify, if_pos hl, if_neg h1, if_pos h2, execCsiFinalJ]
        exact ⟨_, rfl⟩
      · simp only [framerStepWith, hesc, classify, if_pos hl, if_neg h1, if_neg h2, execCsiFinal]
        exact ⟨_, rfl⟩
  | binaryFrame pos total =>
    rw [hesc] at hl
    simp only [EscState.legal, Bool.or_eq_true, Bool.and_eq_true, beq_iff_eq,
      decide_eq_true_eq] at hl
    by_cases h0 : pos = 0 ∧ total = 0
    · obtain ⟨rfl, rfl⟩ := h0
      by_cases h1 : b = 0x00
      · simp only [framerStepWith, hesc, classify, if_pos h1, execBinLen0, and_self, if_true]
        exact ⟨_, rfl⟩
      · simp only [framerStepWith, hesc, classify, if_neg h1, execBinLen, and_self, if_true]
        exact ⟨_, rfl⟩
    · have hr := hl.resolve_left h0
      by_cases h1 : pos + 1 = total
      · simp only [framerStepWith, hesc, classify, if_neg h0, if_pos hr, execBinData, if_pos h1]
        exact ⟨_, rfl⟩
      · simp only [framerStepWith, hesc, classify, if_neg h0, if_pos hr, execBinData, if_neg h1]
        exact ⟨_, rfl⟩
  | watching k =>
    rw [hesc] at hl
    simp only [EscState.legal, decide_eq_true_eq] at hl
    have hk := List.getElem?_eq_getElem hl
    by_cases h1 : b = s.cfg.banner[k]
    · by_cases h2 : k + 1 = s.cfg.banner.length
      · simp only [framerStepWith, hesc, classify, hk, execWbbMatch, ← h1, if_true,
          if_pos h2]
        exact ⟨_, rfl⟩
      · simp only [framerStepWith, hesc, classify, hk, execWbbMatch, ← h1, if_true,
          if_neg h2]
        exact ⟨_, rfl⟩
    · obtain ⟨t, ht⟩ := hm k hesc hl
      exact ⟨t, by simp only [framerStepWith, hesc, classify, hk, if_neg h1, ht]⟩

/-- Replaying bytes answers a next state while the weight of the state stays below the bound under
which the step it is made of answers one. -/
theorem replayBytes_total {n : Nat}
    (hf : ∀ b s, s.esc.legal s.cfg = true → s.cfg.banner ≠ [] →
      (∀ k, s.esc = .watching k → k < n) → ∃ t, framerStep n b s = .next t)
    (bs : List Byte) (s : State) (hl : s.esc.legal s.cfg = true) (hne : s.cfg.banner ≠ [])
    (hw : escWeight s.esc + bs.length ≤ n + 3) :
    ∃ t, replayBytes (framerStep n) bs s = .next t := by
  induction bs generalizing s with
  | nil => exact ⟨s, rfl⟩
  | cons b bs ih =>
    simp only [List.length_cons] at hw
    have hk : ∀ k, s.esc = .watching k → k < n := by
      intro k hesc
      rw [hesc, escWeight] at hw
      omega
    obtain ⟨u, hu⟩ := hf b s hl hne hk
    have hfr := framerStep_frame n b s u hu
    have hcfg := hfr.only.cfg_eq
    have := hfr.weight
    obtain ⟨t, ht⟩ := ih u (hfr.legal hl hne) (hcfg ▸ hne) (by omega)
    exact ⟨t, by rw [replayBytes, hu]; exact ht⟩

/-- In a legal state, with more fuel than the watch position, a FRAMER step answers a next state:
the replay ends (R120, R136). -/
theorem framerStep_total (n : Nat) (b : Byte) (s : State) (hl : s.esc.legal s.cfg = true)
    (hne : s.cfg.banner ≠ []) (hfuel : ∀ k, s.esc = .watching k → k < n) :
    ∃ t, framerStep n b s = .next t := by
  induction n generalizing b s with
  | zero => exact framerStepWith_total hl (fun k hesc _ => absurd (hfuel k hesc) (by omega))
  | succ n ih =>
    refine framerStepWith_total hl (fun k hesc hlt => ?_)
    obtain ⟨t, ht⟩ := replayBytes_total ih (s.cfg.banner.take k ++ [b]) (s.setEsc .idle) rfl
      (by simpa using hne) (by
        have := hfuel k hesc
        simp [escWeight]
        omega)
    exact ⟨t, by simp only [replayMiss, hesc, ht]⟩

/-- More fuel changes no answer. -/
theorem framerStep_mono (n : Nat) (b : Byte) (s t : State) (h : framerStep n b s = .next t) :
    framerStep (n + 1) b s = .next t := by
  have hreplay : ∀ {f g : Byte → State → Outcome}, (∀ b s t, f b s = .next t → g b s = .next t) →
      ∀ bs s t, replayBytes f bs s = .next t → replayBytes g bs s = .next t := by
    intro f g hfg bs
    induction bs with
    | nil => exact fun s t h => h
    | cons b bs ih =>
      intro s t h
      simp only [replayBytes] at h ⊢
      cases hb : f b s with
      | next u => rw [hb] at h; rw [hfg b s u hb]; exact ih u t h
      | fault r => rw [hb] at h; simp at h
      | refused r => rw [hb] at h; simp at h
  have hwith : ∀ {f g : Byte → State → Outcome}, (∀ b s t, f b s = .next t → g b s = .next t) →
      ∀ b s t, framerStepWith f b s = .next t → framerStepWith g b s = .next t := by
    intro f g hfg b s t h
    unfold framerStepWith at h ⊢
    split at h <;> simp_all
  induction n generalizing b s t with
  | zero => exact hwith (fun _ _ _ h => by simp at h) b s t h
  | succ n ih =>
    refine hwith (fun b s t h => ?_) b s t h
    unfold replayMiss at h ⊢
    split at h
    · exact hreplay (fun b s t => ih b s t) _ _ _ h
    · simp at h

end Sys2Proof.Machine
end

