-- ==== Sys2Proof/Laws/PerInstr.lean ====
section
/-! SUPPORT. Statements made for every instruction, one lemma per constructor.
`EncodedLength`: the bytes of a well-formed instruction are as many as the length column of R105
says (one for a received byte). -/

namespace Sys2Proof.Laws.EncodedLength

open Sys2Proof

/-- The encoding of a well-formed instruction has the length the spec's table gives it. -/
def Statement (i : Instr) : Prop := wellFormed i = true → (encode i).length = encodedLength i

theorem idleEsc : Statement Instr.idleEsc := fun _ => rfl

theorem idleChar (b : Byte) : Statement (Instr.idleChar b) := fun _ => rfl

theorem escEsc : Statement Instr.escEsc := fun _ => rfl

theorem escCsi : Statement Instr.escCsi := fun _ => rfl

theorem escRi : Statement Instr.escRi := fun _ => rfl

theorem escOther (b : Byte) : Statement (Instr.escOther b) := fun _ => rfl

theorem csiParam (b : Byte) : Statement (Instr.csiParam b) := fun _ => rfl

theorem csiFinal (b : Byte) : Statement (Instr.csiFinal b) := fun _ => rfl

theorem csiFinalJ : Statement Instr.csiFinalJ := fun _ => rfl

theorem binLen0 : Statement Instr.binLen0 := fun _ => rfl

theorem binLen (n : Byte) : Statement (Instr.binLen n) := fun _ => rfl

theorem binData (b : Byte) : Statement (Instr.binData b) := fun _ => rfl

theorem wbbMatch (b : Byte) : Statement (Instr.wbbMatch b) := fun _ => rfl

theorem wbbMiss (b : Byte) : Statement (Instr.wbbMiss b) := fun _ => rfl

theorem setclip (f : Fb) (x1 y1 x2 y2 : U16) : Statement (Instr.setclip f x1 y1 x2 y2) := fun _ => rfl

theorem setpixel (f : Fb) (x y : U16) (c : Byte) : Statement (Instr.setpixel f x y c) := fun _ => rfl

theorem line (f : Fb) (x1 y1 x2 y2 : U16) (c : Byte) : Statement (Instr.line f x1 y1 x2 y2 c) := fun _ => rfl

theorem rect (f : Fb) (x1 y1 x2 y2 : U16) (c : Byte) : Statement (Instr.rect f x1 y1 x2 y2 c) := fun _ => rfl

theorem clear (f : Fb) (c : Byte) : Statement (Instr.clear f c) := fun _ => rfl

theorem copyrect (f : Fb) (sx1 sy1 sx2 sy2 dx dy : U16) : Statement (Instr.copyrect f sx1 sy1 sx2 sy2 dx dy) := fun _ => rfl

theorem text (f : Fb) (x y : U16) (k : Byte) (pal : Palette) (codes : List Byte) : Statement (Instr.text f x y k pal codes) := by
  intro _
  simp [encode, encodedLength, bytesOfU16, bytesOfPalette]
  omega

theorem image (f : Fb) (x y w h : U16) (pal : Palette) (data : List Byte) : Statement (Instr.image f x y w h pal data) := by
  intro hw
  have h : data.length = pictureBytes w.toNat h.toNat := by simpa [wellFormed] using hw
  simp [encode, encodedLength, bytesOfU16, bytesOfPalette, h]
  omega

theorem scrollup (f : Fb) (h : U16) : Statement (Instr.scrollup f h) := fun _ => rfl

theorem activate (f : Fb) : Statement (Instr.activate f) := fun _ => rfl

theorem hfill (f : Fb) (x1 y1 x2 y2 : U16) (c : Byte) : Statement (Instr.hfill f x1 y1 x2 y2 c) := fun _ => rfl

theorem hcopy (f : Fb) (sx sy dx dy nx ny : U16) : Statement (Instr.hcopy f sx sy dx dy nx ny) := fun _ => rfl

theorem hact (f : Fb) : Statement (Instr.hact f) := fun _ => rfl

theorem lutgen : Statement Instr.lutgen := fun _ => rfl

end Sys2Proof.Laws.EncodedLength
end

