-- ==== Sys2Proof/Tests/Slice0.lean ====
section
/-! SUPPORT. The model's own tests: ill-formed terms, words written out from the encoding tables, one
step per instruction with results from the spec's test vectors (`95_test_vectors.md`, named by their
numbers) or rule examples, and for each statement a state and operands that meet its hypotheses. -/

namespace Sys2Proof.Tests

open Sys2Proof Sys2Proof.Machine

/-! ## Helpers -/

/-- The next state, if there is one. -/
def nextOf : Outcome → Option State
  | .next t => some t
  | .fault _ => none
  | .refused _ => none

/-- The reset state with another escape state. -/
def inEsc (e : EscState) : State := State.reset.setEsc e

/-- The reset state with these pixels in `FB[GFX]`. -/
def withGfx (cells : List Host.Cell) : State := State.reset.setPixels .gfx ⟨cells⟩

/-- The reset state with this clip rectangle on `FB[GFX]`. -/
def clipped (x1 y1 x2 y2 : U16) : State := State.reset.setClip .gfx ⟨x1, y1⟩ ⟨x2, y2⟩

/-- The pixels of `FB[GFX]` after an instruction. -/
def gfxAfter (i : Instr) (s : State) : Option (List Host.Cell) :=
  (nextOf (exec i s)).map (fun t => t.gfx.pixels.cells)

/-- The escape state and the events after an instruction. -/
def framerAfter (i : Instr) (s : State) : Option (EscState × List Event) :=
  (nextOf (exec i s)).map (fun t => (t.esc, t.events))

/-- A state in which an instruction answers a next state. -/
def Completes (i : Instr) (s : State) : Prop := ∃ t, exec i s = .next t

/-! ## Ill-formed terms -/

theorem test_wf_idle_char_escape : wellFormed (.idleChar 0x1B) = false := by decide
theorem test_wf_esc_other_escape : wellFormed (.escOther 0x1B) = false := by decide
theorem test_wf_esc_other_bracket : wellFormed (.escOther 0x5B) = false := by decide
theorem test_wf_esc_other_m : wellFormed (.escOther 0x4D) = false := by decide
theorem test_wf_csi_param_colon : wellFormed (.csiParam 0x3A) = false := by decide
theorem test_wf_csi_final_digit : wellFormed (.csiFinal 0x30) = false := by decide
theorem test_wf_csi_final_j : wellFormed (.csiFinal 0x4A) = false := by decide
theorem test_wf_bin_len_zero : wellFormed (.binLen 0) = false := by decide
theorem test_wf_text_too_long :
    wellFormed (.text .con 0 0 0 ⟨0, 0, 0, 0⟩ (List.replicate 65536 0)) = false := by
  show decide ((List.replicate 65536 (0 : Byte)).length ≤ maxCoord) = false
  rw [List.length_replicate]
  rfl
theorem test_wf_image_short :
    wellFormed (.image .con 0 0 3 3 ⟨0, 0, 0, 0⟩ [0x1B, 0xE4]) = false := by decide

/-! ## Words written out from the tables (R91, R105) -/

theorem test_decode_idle_esc : decodeByte Config.standIn (.idle) 0x1B = .ok (.idleEsc) := by rfl
theorem test_decode_idle_char : decodeByte Config.standIn (.idle) 0x41 = .ok (.idleChar 0x41) := by rfl
theorem test_decode_idle_char_high : decodeByte Config.standIn (.idle) 0xFF = .ok (.idleChar 0xFF) := by rfl
theorem test_decode_esc_esc : decodeByte Config.standIn (.sawEscape) 0x1B = .ok (.escEsc) := by rfl
theorem test_decode_esc_csi : decodeByte Config.standIn (.sawEscape) 0x5B = .ok (.escCsi) := by rfl
theorem test_decode_esc_ri : decodeByte Config.standIn (.sawEscape) 0x4D = .ok (.escRi) := by rfl
theorem test_decode_esc_other : decodeByte Config.standIn (.sawEscape) 0x63 = .ok (.escOther 0x63) := by rfl
theorem test_decode_csi_param_low : decodeByte Config.standIn (.csi 0) 0x30 = .ok (.csiParam 0x30) := by rfl
theorem test_decode_csi_param_nine : decodeByte Config.standIn (.csi 0) 0x39 = .ok (.csiParam 0x39) := by rfl
theorem test_decode_csi_param_semicolon : decodeByte Config.standIn (.csi 3) 0x3B = .ok (.csiParam 0x3B) := by rfl
theorem test_decode_csi_param_question : decodeByte Config.standIn (.csi 255) 0x3F = .ok (.csiParam 0x3F) := by rfl
theorem test_decode_csi_final_colon : decodeByte Config.standIn (.csi 0) 0x3A = .ok (.csiFinal 0x3A) := by rfl
theorem test_decode_csi_final : decodeByte Config.standIn (.csi 1) 0x44 = .ok (.csiFinal 0x44) := by rfl
theorem test_decode_csi_final_escape : decodeByte Config.standIn (.csi 1) 0x1B = .ok (.csiFinal 0x1B) := by rfl
theorem test_decode_csi_final_j : decodeByte Config.standIn (.csi 1) 0x4A = .ok (.csiFinalJ) := by rfl
theorem test_decode_bin_len0 : decodeByte Config.standIn (.binaryFrame 0 0) 0x00 = .ok (.binLen0) := by rfl
theorem test_decode_bin_len : decodeByte Config.standIn (.binaryFrame 0 0) 0x1B = .ok (.binLen 0x1B) := by rfl
theorem test_decode_bin_data : decodeByte Config.standIn (.binaryFrame 3 4) 0x1B = .ok (.binData 0x1B) := by rfl
theorem test_decode_wbb_match : decodeByte Config.standIn (.watching 3) 0x54 = .ok (.wbbMatch 0x54) := by rfl
theorem test_decode_wbb_miss : decodeByte Config.standIn (.watching 2) 0x58 = .ok (.wbbMiss 0x58) := by rfl
theorem test_decode_setclip :
    decodeOp [0x00, 0x01, 0x0A, 0x00, 0x0B, 0x00, 0xE0, 0x01, 0x80, 0x00, 0xEE] =
      .ok (.setclip .gfx 10 11 480 128, [0xEE]) := by rfl
theorem test_decode_setpixel :
    decodeOp [0x01, 0x00, 0xDF, 0x01, 0x7F, 0x00, 0x09, 0xEE] =
      .ok (.setpixel .con 479 127 9, [0xEE]) := by rfl
theorem test_decode_line :
    decodeOp [0x02, 0x01, 0x01, 0x00, 0x02, 0x00, 0x03, 0x00, 0x04, 0x01, 0x05, 0xEE] =
      .ok (.line .gfx 1 2 3 260 5, [0xEE]) := by rfl
theorem test_decode_rect :
    decodeOp [0x03, 0x01, 0xFF, 0xFF, 0x02, 0x00, 0x03, 0x00, 0x04, 0x00, 0x07, 0xEE] =
      .ok (.rect .gfx 65535 2 3 4 7, [0xEE]) := by rfl
theorem test_decode_clear :
    decodeOp [0x04, 0x00, 0x0C, 0xEE] =
      .ok (.clear .con 12, [0xEE]) := by rfl
theorem test_decode_copyrect :
    decodeOp [0x05, 0x01, 1, 0, 2, 0, 3, 0, 4, 0, 5, 0, 6, 1, 0xEE] =
      .ok (.copyrect .gfx 1 2 3 4 5 262, [0xEE]) := by rfl
theorem test_decode_text :
    decodeOp [0x06, 0x00, 0x02, 0x01, 0x03, 0x00, 0x01, 5, 6, 7, 8, 0x02, 0x00, 0x41, 0x42, 0xEE] =
      .ok (.text .con 258 3 1 ⟨5, 6, 7, 8⟩ [0x41, 0x42], [0xEE]) := by rfl
theorem test_decode_image :
    decodeOp [0x07, 0x01, 2, 0, 1, 0, 5, 0, 1, 0, 10, 11, 12, 13, 0xE4, 0xFF, 0xEE] =
      .ok (.image .gfx 2 1 5 1 ⟨10, 11, 12, 13⟩ [0xE4, 0xFF], [0xEE]) := by rfl
theorem test_decode_scrollup :
    decodeOp [0x08, 0x00, 0x08, 0x01, 0xEE] =
      .ok (.scrollup .con 264, [0xEE]) := by rfl
theorem test_decode_activate :
    decodeOp [0x09, 0x01, 0xEE] =
      .ok (.activate .gfx, [0xEE]) := by rfl
theorem test_decode_hfill :
    decodeOp [0x10, 0x00, 3, 0, 0, 0, 6, 0, 2, 0, 9, 0xEE] =
      .ok (.hfill .con 3 0 6 2 9, [0xEE]) := by rfl
theorem test_decode_hcopy :
    decodeOp [0x11, 0x01, 1, 0, 2, 0, 3, 0, 4, 0, 5, 0, 6, 0, 0xEE] =
      .ok (.hcopy .gfx 1 2 3 4 5 6, [0xEE]) := by rfl
theorem test_decode_hact :
    decodeOp [0x12, 0x00, 0xEE] =
      .ok (.hact .con, [0xEE]) := by rfl
theorem test_decode_lutgen :
    decodeOp [0x20, 0xEE] =
      .ok (.lutgen, [0xEE]) := by rfl
theorem test_decode_bad_opcode : decodeOp [0x0A, 0x00] = .error .undefinedOpcode := by rfl
theorem test_decode_bad_framebuffer : decodeOp [0x04, 0x02, 0x00] = .error .undefinedFramebuffer := by
  rfl
theorem test_decode_short_image :
    decodeOp [0x07, 0, 2, 0, 1, 0, 5, 0, 1, 0, 10, 11, 12, 13, 0xE4] = .error .truncatedRecord := by
  rfl
theorem test_table_word_esc : decodeTableWord 8 0x1B = some .idleEsc := by decide
theorem test_table_word_setclip : decodeTableWord 16 0 = some (.setclip .con 0 0 0 0) := by decide
theorem test_table_word_runs :
    step (State.reset.withFetchWord 24 0x090104) =
      exec (.clear .gfx 9) State.reset := by rfl

/-! ## The FRAMER, one step (R122 to R135) -/

theorem test_idle_esc : framerAfter (.idleEsc) (State.reset) =
    some (.sawEscape, []) := by decide +kernel
theorem test_idle_char : framerAfter (.idleChar 0x41) (State.reset) =
    some (.idle, [.char 0x41]) := by decide +kernel
theorem test_esc_esc : framerAfter (.escEsc) (inEsc .sawEscape) =
    some (.binaryFrame 0 0, []) := by decide +kernel
theorem test_esc_csi : framerAfter (.escCsi) (inEsc .sawEscape) =
    some (.csi 0, []) := by decide +kernel
theorem test_esc_ri : framerAfter (.escRi) (inEsc .sawEscape) =
    some (.idle, [.csi 0x4C []]) := by decide +kernel
theorem test_esc_other : framerAfter (.escOther 0x63) (inEsc .sawEscape) =
    some (.idle, []) := by decide +kernel
theorem test_csi_param : framerAfter (.csiParam 0x32) (inEsc (.csi 0)) =
    some (.csi 1, []) := by decide +kernel
theorem test_csi_param_overflow : framerAfter (.csiParam 0x31) (inEsc (.csi 255)) =
    some (.idle, []) := by decide +kernel
theorem test_csi_final : framerAfter (.csiFinal 0x44) ((inEsc (.csi 1)).setScratch 0 0x35) =
    some (.idle, [.csi 0x44 [0x35]]) := by decide +kernel
theorem test_csi_final_j : framerAfter (.csiFinalJ) ((inEsc (.csi 1)).setScratch 0 0x32) =
    some (.watching 0, [.csi 0x4A [0x32]]) := by decide +kernel
theorem test_bin_len0 : framerAfter (.binLen0) (inEsc (.binaryFrame 0 0)) =
    some (.idle, []) := by decide +kernel
theorem test_bin_len : framerAfter (.binLen 0xFF) (inEsc (.binaryFrame 0 0)) =
    some (.binaryFrame 1 256, []) := by decide +kernel
theorem test_bin_data_last :
    framerAfter (.binData 0x0A)
        ((((inEsc (.binaryFrame 3 4)).setScratch 0 3).setScratch 1 0x41).setScratch 2 0x28) =
      some (.idle, [.frame [3, 0x41, 0x28, 0x0A]]) := by decide +kernel
theorem test_bin_data_more : framerAfter (.binData 0x1B) (inEsc (.binaryFrame 1 4)) =
    some (.binaryFrame 2 4, []) := by decide +kernel
theorem test_wbb_match_last : framerAfter (.wbbMatch 0x54) (inEsc (.watching 3)) =
    some (.idle, [.reset]) := by decide +kernel
theorem test_wbb_match_first : framerAfter (.wbbMatch 0x42) (inEsc (.watching 0)) =
    some (.watching 1, []) := by decide +kernel
theorem test_wbb_miss : framerAfter (.wbbMiss 0x58) (inEsc (.watching 2)) =
    some (.idle, [.char 0x42, .char 0x4F, .char 0x58]) := by decide +kernel
/-- V16: a banner that holds an erase-screen CSI; the replay nests. -/
theorem test_wbb_miss_nested :
    framerAfter (.wbbMiss 0x58)
        { inEsc (.watching 3) with
          cfg := { Config.standIn with banner := [0x1B, 0x5B, 0x4A, 0x41] } } =
      some (.idle, [.csi 0x4A [], .char 0x58]) := by decide

/-! ## The ENGINE, the CAP and the LUTGEN, one step -/

/-- R210, X7. -/
theorem test_setclip :
    (nextOf (exec (.setclip .gfx 10 10 20 20) State.reset)).map (fun t => (t.gfx.clip1, t.gfx.clip2)) =
      some (⟨10, 10⟩, ⟨20, 20⟩) := by decide
theorem test_setclip_refused :
    exec (.setclip .gfx 0 0 481 128) State.reset = .refused .clipOperands := by rfl
/-- X2, X3. -/
theorem test_setpixel : gfxAfter (.setpixel .gfx 479 127 9) State.reset = some [(61439, 9)] := by
  decide +kernel
theorem test_setpixel_outside : gfxAfter (.setpixel .gfx 480 0 9) State.reset = some [] := by
  decide +kernel
/-- L3 as pixels, L14. -/
theorem test_line_reverse :
    linePoints 4 2 0 0 = [(4, 2), (3, 1), (2, 1), (1, 0), (0, 0)] := by decide +kernel
theorem test_line_clipped :
    gfxAfter (.line .gfx 0 0 7 3 9) (clipped 2 0 5 3) = some [(482, 9), (483, 9), (964, 9)] := by
  decide +kernel
/-- Q1 on a smaller clip, Q2. -/
theorem test_rect :
    gfxAfter (.rect .gfx 0 0 12 11 7) (clipped 10 10 20 20) = some [(4810, 7), (4811, 7)] := by
  decide +kernel
theorem test_rect_inverted : gfxAfter (.rect .gfx 15 12 12 15 7) (clipped 10 10 20 20) = some [] := by
  decide +kernel
/-- R216. -/
theorem test_clear :
    gfxAfter (.clear .gfx 3) (clipped 10 10 12 12) =
      some [(4810, 3), (4811, 3), (5290, 3), (5291, 3)] := by decide +kernel
theorem test_clear_empty : gfxAfter (.clear .gfx 3) (clipped 5 5 5 9) = some [] := by decide +kernel
/-- K2a, K2b: the source crosses the clip's left edge. -/
theorem test_copyrect_translate :
    copyClip .translate ⟨⟨10, 10⟩, ⟨20, 20⟩, 8, 10, 14, 12, 12, 14⟩ = some ⟨10, 10, 14, 14, 4, 2⟩ := by
  decide
theorem test_copyrect :
    gfxAfter (.copyrect .gfx 0 0 2 1 1 1) (withGfx [(0, 5), (1, 6)]) =
      some [(0, 5), (1, 6), (481, 5), (482, 6)] := by decide +kernel
/-- T4 (the example of R220), T7. -/
theorem test_text :
    gfxAfter (.text .gfx 0 0 0 ⟨5, 6, 7, 8⟩ [0x41]) State.reset =
      some [(0, 5), (1, 8), (2, 5), (480, 8), (481, 8), (482, 5)] := by decide +kernel
theorem test_text_font_index :
    exec (.text .gfx 0 0 4 ⟨5, 6, 7, 8⟩ [0x41]) State.reset = .refused .fontIndex := by rfl
/-- T1, T3. -/
theorem test_image :
    gfxAfter (.image .gfx 2 1 4 1 ⟨0, 1, 2, 3⟩ [0xE4]) (withGfx [(482, 9)]) =
      some [(483, 1), (484, 2), (485, 3)] := by decide +kernel
theorem test_image_row_end :
    gfxAfter (.image .gfx 0 0 5 1 ⟨10, 11, 12, 13⟩ [0xE4, 0xFF]) State.reset =
      some [(0, 10), (1, 11), (2, 12), (3, 13), (4, 13)] := by decide +kernel
/-- U4v and the extra rows of R222. -/
theorem test_scrollup (t : State)
    (h : exec (.scrollup .gfx 1) (withGfx [(485, 8), (61441, 9)]) = .next t) :
    t.gfx.pixels.read 5 = 8 ∧ t.gfx.pixels.read 60961 = 9 ∧ t.gfx.pixels.read 61441 = 9 := by
  have he : exec (.scrollup .gfx 1) (withGfx [(485, 8), (61441, 9)]) =
      .next (capCopy (withGfx [(485, 8), (61441, 9)]) .gfx ⟨0, 1, 0, 0, 480, 128⟩) := rfl
  obtain rfl := Host.Outcome.next.inj (he.symm.trans h)
  have hr := capCopy_read_snapshot (withGfx [(485, 8), (61441, 9)]) .gfx ⟨0, 1, 0, 0, 480, 128⟩
    (by decide) (by decide)
  exact ⟨(hr 5).trans (by decide), (hr 60961).trans (by decide), (hr 61441).trans (by decide)⟩
theorem test_scrollup_refused : exec (.scrollup .gfx 3) State.reset = .refused .beyondExtraRows := by
  rfl
/-- A1, A2. -/
theorem test_activate_con :
    (nextOf (exec (.activate .con) State.reset)).map (fun t => (t.active, t.cursorEn)) =
      some (some .con, true) := by decide
theorem test_activate_gfx :
    (nextOf (exec (.activate .gfx) { State.reset with cursorEn := true })).map
        (fun t => (t.active, t.cursorEn)) = some (some .gfx, false) := by decide
/-- H1, H3. -/
theorem test_hfill :
    gfxAfter (.hfill .gfx 3 0 6 2 9) State.reset =
      some [(3, 9), (4, 9), (5, 9), (483, 9), (484, 9), (485, 9)] := by decide +kernel
theorem test_hfill_blitter :
    gfxAfter (.hfill .gfx 3 0 6 2 9) (State.reset.withCap .blitter) =
      some [(3, 9), (4, 9), (5, 9), (483, 9), (484, 9), (485, 9)] := by decide +kernel
/-- H2, H2b. -/
theorem test_hcopy_overlap :
    gfxAfter (.hcopy .gfx 0 0 1 0 4 1) (withGfx [(0, 1), (1, 2), (2, 3), (3, 4), (4, 5)]) =
      some [(0, 1), (1, 1), (2, 2), (3, 3), (4, 4)] := by decide +kernel
theorem test_hcopy_back :
    gfxAfter (.hcopy .gfx 1 0 0 0 4 1) (withGfx [(0, 1), (1, 2), (2, 3), (3, 4), (4, 5)]) =
      some [(0, 2), (1, 3), (2, 4), (3, 5), (4, 5)] := by decide +kernel
/-- H9. -/
theorem test_hact :
    (nextOf (exec (.hact .con) { State.reset with cursorEn := false })).map
        (fun t => (t.active, t.cursorEn)) = some (some .con, false) := by decide
/-- R261 to R263. -/
theorem test_lutgen_ansi :
    (nextOf (exec .lutgen State.reset)).map (fun t => t.lut[9]) = some ⟨0xFF, 0x55, 0x55⟩ := by
  decide +kernel
theorem test_lutgen_cube_grey :
    (nextOf (exec .lutgen State.reset)).map (fun t => (t.lut[52], t.lut[255])) =
      some (⟨0x33, 0, 0⟩, ⟨0xEE, 0xEE, 0xEE⟩) := by decide +kernel

/-! ## Reset -/

theorem test_reset_memory_wf : State.reset.con.pixels.wf = true ∧ State.reset.gfx.pixels.wf = true :=
  ⟨rfl, rfl⟩


/-! ## States and operands that meet the hypotheses of the statements -/

theorem test_hyp_operationRecordsRoundTrip :
    wellFormed (.text .gfx 1 2 3 ⟨4, 5, 6, 7⟩ [0x41]) = true ∧
      isOperation (.text .gfx 1 2 3 ⟨4, 5, 6, 7⟩ [0x41]) = true ∧
      wellFormed (.image .con 1 2 5 1 ⟨4, 5, 6, 7⟩ [0xE4, 0x03]) = true ∧
      isOperation (.image .con 1 2 5 1 ⟨4, 5, 6, 7⟩ [0xE4, 0x03]) = true := by decide

theorem test_hyp_operationRecordsHaveOneReading :
    decodeOp [0x04, 0x01, 0x07, 0x20] = .ok (.clear .gfx 7, [0x20]) := by rfl

theorem test_hyp_stepRuns_record :
    ∃ s i rest, s.ops ≠ [] ∧ decodeOp (State.ops s) = .ok (i, rest) :=
  ⟨{ State.reset with ops := [0x20, 0x09] }, .lutgen, [0x09], by decide, rfl⟩

theorem test_hyp_stepRuns_byte :
    ∃ s i b rest, State.ops s = [] ∧ s.rx = b :: rest ∧ decodeByte s.cfg s.esc b = .ok i :=
  ⟨State.reset.receiving [0x1B], .idleEsc, 0x1B, [], rfl, rfl, rfl⟩

theorem test_hyp_stepRuns_badRecord :
    ∃ s e, State.ops s ≠ [] ∧ decodeOp s.ops = .error e :=
  ⟨{ State.reset with ops := [0x04, 0x02] }, .undefinedFramebuffer, by decide, rfl⟩

theorem test_hyp_stepRuns_badState :
    ∃ s b rest e, State.ops s = [] ∧ s.rx = b :: rest ∧ decodeByte s.cfg s.esc b = .error e :=
  ⟨(inEsc (.csi 256)).receiving [0x41], 0x41, [], .illegalEscState, rfl, rfl, rfl⟩

theorem test_hyp_stepRuns_empty : State.reset.ops = [] ∧ State.reset.rx = [] := ⟨rfl, rfl⟩

theorem test_hyp_undefinedRecords_opcode :
    ∃ (s : State) (opc : Byte) (bs : List Byte), s.ops = opc :: bs ∧
      opc ∉ ([0x00, 0x01, 0x02, 0x03, 0x04, 0x05, 0x06, 0x07, 0x08, 0x09, 0x10, 0x11, 0x12,
        0x20] : List Byte) :=
  ⟨{ State.reset with ops := [0x13] }, 0x13, [], rfl, by decide⟩

theorem test_hyp_undefinedRecords_framebuffer :
    ∃ (s : State) (opc fb : Byte) (bs : List Byte), s.ops = opc :: fb :: bs ∧
      opc ∈ ([0x00, 0x01, 0x02, 0x03, 0x04, 0x05, 0x06, 0x07, 0x08, 0x09, 0x10, 0x11,
        0x12] : List Byte) ∧ fb ≠ 0 ∧ fb ≠ 1 :=
  ⟨{ State.reset with ops := [0x12, 0x02] }, 0x12, 0x02, [], rfl, by decide, by decide, by decide⟩

theorem test_hyp_inputsTakenInOrder_record :
    ∃ s t, State.ops s ≠ [] ∧ step s = .next t :=
  ⟨{ State.reset with ops := [0x12, 0x01], rx := [0x41] }, _, by decide, rfl⟩

theorem test_hyp_inputsTakenInOrder_byte :
    ∃ s t, State.ops s = [] ∧ s.rx ≠ [] ∧ step s = .next t :=
  ⟨State.reset.receiving [0x41, 0x42], _, rfl, by decide, rfl⟩

theorem test_hyp_everyByteIsTaken :
    ∃ (s : State) (b : Byte) (rest : List Byte), s.ops = [] ∧ s.rx = b :: rest ∧
      s.esc.legal s.cfg = true ∧ s.cfg.banner ≠ [] :=
  ⟨(inEsc (.watching 3)).receiving [0x58, 0x41], 0x58, [0x41], rfl, rfl, by decide, by decide⟩

theorem test_hyp_idleBytes : State.reset.esc = .idle ∧ (0x41 : Byte) ≠ 0x1B := by decide

theorem test_hyp_escapeBytes :
    (inEsc .sawEscape).esc = .sawEscape ∧ (0x63 : Byte) ≠ 0x1B ∧ (0x63 : Byte) ≠ 0x5B ∧
      (0x63 : Byte) ≠ 0x4D := by decide

/-- Below the overflow point and at it. -/
theorem test_hyp_csiParameterBytes :
    (inEsc (.csi 254)).esc = .csi 254 ∧ (inEsc (.csi 255)).esc = .csi 255 ∧
      255 < (inEsc (.csi 255)).cfg.csiOverflow.limit ∧ isParamByte 0x3F = true := by decide

theorem test_hyp_csiFinalBytes :
    (inEsc (.csi 255)).esc = .csi 255 ∧ 255 < (inEsc (.csi 255)).cfg.csiOverflow.limit ∧
      isParamByte 0x40 = false ∧ (0x40 : Byte) ≠ 0x4A := by decide

/-- The shortest frame and the last byte of the longest. -/
theorem test_hyp_binaryFrameBytes :
    (inEsc (.binaryFrame 0 0)).esc = .binaryFrame 0 0 ∧ (0xFF : Byte) ≠ 0 ∧
      (inEsc (.binaryFrame 1 2)).esc = .binaryFrame 1 2 ∧
      (inEsc (.binaryFrame 255 256)).esc = .binaryFrame 255 256 ∧ 255 < 256 := by decide

/-- The first and the last byte of the banner. -/
theorem test_hyp_bannerMatchBytes :
    (inEsc (.watching 0)).cfg.banner[0]? = some 0x42 ∧ (inEsc (.watching 0)).esc = .watching 0 ∧
      (inEsc (.watching 3)).cfg.banner[3]? = some 0x54 ∧ (inEsc (.watching 3)).esc = .watching 3 := by
  decide

theorem test_hyp_bannerMiss :
    ∃ (s : State) (k : Nat) (x b : Byte), s.esc = .watching k ∧ s.cfg.banner[k]? = some x ∧ b ≠ x ∧
      0x1B ∉ s.cfg.banner ∧ b = 0x1B :=
  ⟨inEsc (.watching 3), 3, 0x54, 0x1B, rfl, rfl, by decide, by decide, rfl⟩

theorem test_hyp_bannerMiss_other :
    ∃ (s : State) (k : Nat) (x b : Byte), s.esc = .watching k ∧ s.cfg.banner[k]? = some x ∧ b ≠ x ∧
      0x1B ∉ s.cfg.banner ∧ b ≠ 0x1B :=
  ⟨inEsc (.watching 0), 0, 0x42, 0x58, rfl, rfl, by decide, by decide, by decide⟩

theorem test_hyp_framerRefusesOtherStates :
    (inEsc .sawEscape).esc ≠ .idle ∧ State.reset.esc ≠ .sawEscape ∧
      (∀ pos, State.reset.esc ≠ .csi pos) ∧
      (inEsc (.binaryFrame 1 2)).esc ≠ .binaryFrame 0 0 ∧
      (∀ pos total, (inEsc (.binaryFrame 2 2)).esc = .binaryFrame pos total →
        ¬(1 ≤ pos ∧ pos < total ∧ total ≤ 256)) ∧
      (∀ k, (inEsc (.watching 0)).esc = .watching k →
        (inEsc (.watching 0)).cfg.banner[k]? ≠ some 0x43) ∧
      (∀ k, (inEsc (.watching 0)).esc = .watching k →
        (inEsc (.watching 0)).cfg.banner[k]? = none ∨
          (inEsc (.watching 0)).cfg.banner[k]? = some 0x42) := by
  refine ⟨by decide, by decide, ?_, by decide, ?_, ?_, ?_⟩
  · exact fun pos h => nomatch h
  · intro pos total h
    obtain ⟨rfl, rfl⟩ := EscState.binaryFrame.inj h
    decide
  · intro k h
    obtain rfl := EscState.watching.inj h
    decide
  · intro k h
    obtain rfl := EscState.watching.inj h
    decide

/-- The hypotheses of `FramerIgnoresTheScreen` too. -/
theorem test_hyp_framerWritesOnlyItsState :
    ∃ i s t, isOperation i = false ∧ exec i s = .next t :=
  ⟨.wbbMiss 0x58, inEsc (.watching 2), _, rfl, rfl⟩

/-- The last byte of the longest frame, and the first of two. -/
theorem test_hyp_frameSwallowsItsBytes :
    ∃ (s : State) (pos total : Nat) (bs more : List Byte), s.ops = [] ∧
      s.esc = .binaryFrame pos total ∧ 1 ≤ pos ∧ pos < total ∧ total ≤ 256 ∧
      bs.length = total - pos ∧ s.rx = bs ++ more :=
  ⟨(inEsc (.binaryFrame 255 256)).receiving [0x1B, 0x41], 255, 256, [0x1B], [0x41], rfl, rfl,
    by decide, by decide, by decide, rfl, rfl⟩

/-- No data (R139's shortest frame) and 254 bytes of it (the longest). -/
theorem test_hyp_framingRoundTrip :
    ∃ (s : State) (cmd : Byte) (data more : List Byte), s.ops = [] ∧ s.esc = .idle ∧
      data.length ≤ 254 ∧ s.rx = wireFrame cmd data ++ more :=
  ⟨State.reset.receiving (wireFrame 7 [] ++ [0x41]), 7, [], [0x41], rfl, rfl, by decide, rfl⟩

theorem test_hyp_framingRoundTrip_longest :
    ∃ (s : State) (cmd : Byte) (data more : List Byte), s.ops = [] ∧ s.esc = .idle ∧
      data.length = 254 ∧ s.rx = wireFrame cmd data ++ more :=
  ⟨State.reset.receiving (wireFrame 7 (List.replicate 254 0x1B)), 7, List.replicate 254 0x1B, [], rfl,
    rfl, List.length_replicate, (List.append_nil _).symm⟩

theorem test_hyp_csiRoundTrip :
    ∃ (s : State) (params more : List Byte) (final : Byte), s.ops = [] ∧ s.esc = .idle ∧
      (∀ p ∈ params, isParamByte p = true) ∧ params.length < s.cfg.csiOverflow.limit ∧
      isParamByte final = false ∧ s.rx = wireCsi params final ++ more :=
  ⟨State.reset.receiving (wireCsi [0x35] 0x44 ++ [0x41]), [0x35], [0x41], 0x44, rfl, rfl, by decide,
    by decide, by decide, rfl⟩

theorem test_hyp_csiOverflowDrops :
    ∃ (s : State) (params more : List Byte), s.ops = [] ∧ s.esc = .idle ∧
      (∀ p ∈ params, isParamByte p = true) ∧ params.length = s.cfg.csiOverflow.limit ∧
      s.rx = [0x1B, 0x5B] ++ params ++ more := by
  refine ⟨State.reset.receiving ([0x1B, 0x5B] ++ List.replicate 256 0x31 ++ [0x6D]),
    List.replicate 256 0x31, [0x6D], rfl, rfl, fun p hp => ?_, List.length_replicate, rfl⟩
  rw [List.eq_of_mem_replicate hp]
  decide

theorem test_hyp_bannerAfterErase :
    ∃ (s : State) (params more : List Byte), s.ops = [] ∧ s.esc = .idle ∧
      (∀ p ∈ params, isParamByte p = true) ∧ params.length < s.cfg.csiOverflow.limit ∧
      s.cfg.banner ≠ [] ∧ s.rx = wireCsi params 0x4A ++ s.cfg.banner ++ more :=
  ⟨State.reset.receiving (wireCsi [0x32] 0x4A ++ [0x42, 0x4F, 0x4F, 0x54]), [0x32], [], rfl, rfl,
    by decide, by decide, by decide, rfl⟩

/-- The full screen is legal; one column more is not; an inverted rectangle is not. -/
theorem test_hyp_setclip :
    ((0 : U16).toNat ≤ (480 : U16).toNat ∧ (480 : U16).toNat ≤ 480 ∧
        (0 : U16).toNat ≤ (128 : U16).toNat ∧ (128 : U16).toNat ≤ 128) ∧
      ¬((0 : U16).toNat ≤ (481 : U16).toNat ∧ (481 : U16).toNat ≤ 480 ∧
        (0 : U16).toNat ≤ (128 : U16).toNat ∧ (128 : U16).toNat ≤ 128) ∧
      ¬((20 : U16).toNat ≤ (10 : U16).toNat ∧ (10 : U16).toNat ≤ 480 ∧
        (0 : U16).toNat ≤ (128 : U16).toNat ∧ (128 : U16).toNat ≤ 128) := by decide

/-- `SETPIXEL`, `LINE`, `RECT`, `CLEAR`: a legal clip that is not the whole screen, and one that is
empty. -/
theorem test_hyp_clipped :
    (clipped 10 10 20 20).clipOk .gfx = true ∧ (clipped 10 10 20 20).blitBusy = false ∧
      (clipped 5 5 5 9).clipOk .gfx = true ∧ (clipped 5 5 5 9).blitBusy = false := by decide

theorem test_hyp_lineStaysNearTheIdeal : (linePoints 0 0 4 2)[1]? = some (1, 1) := by decide +kernel

theorem test_hyp_lineVisits_neighbours :
    (linePoints 4 2 0 0)[3]? = some (1, 0) ∧ (linePoints 4 2 0 0)[4]? = some (0, 0) := by
  decide +kernel

/-- A copy that is made (K3), and one of which nothing is left (K4). -/
theorem test_hyp_copyrect :
    (clipped 10 10 20 20).clipOk .gfx = true ∧ (clipped 10 10 20 20).blitBusy = false ∧
      (clipped 10 10 20 20).cfg.copyOverlap = .snapshot ∧
      copySumOverflows (copyOperands (clipped 10 10 20 20) .gfx 10 10 16 12 16 14) = false ∧
      copyClip (clipped 10 10 20 20).cfg.copyClip
        (copyOperands (clipped 10 10 20 20) .gfx 10 10 16 12 16 14) = some ⟨10, 10, 16, 14, 4, 2⟩ ∧
      copySumOverflows (copyOperands (clipped 10 10 20 20) .gfx 10 10 13 12 30 30) = false ∧
      copyClip (clipped 10 10 20 20).cfg.copyClip
        (copyOperands (clipped 10 10 20 20) .gfx 10 10 13 12 30 30) = none := by decide

/-- A diagonal copy that follows its source, with a pixel outside the overlap (column 2 of row 0) and
one inside (column 0); a copy to the left, exact everywhere; and one of which nothing is left. -/
theorem test_hyp_copyrectOutsideTheOverlap :
    let s := clipped 10 10 20 20
    s.clipOk .gfx = true ∧ s.blitBusy = false ∧
      copySumOverflows (copyOperands s .gfx 10 10 13 12 12 11) = false ∧
      copyClip s.cfg.copyClip (copyOperands s .gfx 10 10 13 12 12 11) =
        some ⟨10, 10, 12, 11, 3, 2⟩ ∧
      copyFollows ⟨10, 10, 12, 11, 3, 2⟩ = true ∧
      copyTouched ⟨10, 10, 12, 11, 3, 2⟩ 2 0 = false ∧
      copyTouched ⟨10, 10, 12, 11, 3, 2⟩ 0 0 = true ∧
      copySumOverflows (copyOperands s .gfx 12 10 18 12 10 10) = false ∧
      copyClip s.cfg.copyClip (copyOperands s .gfx 12 10 18 12 10 10) =
        some ⟨12, 10, 10, 10, 6, 2⟩ ∧
      pixelOffset 10 10 ≤ pixelOffset 12 10 ∧
      copySumOverflows (copyOperands s .gfx 10 10 13 12 30 30) = false ∧
      copyClip s.cfg.copyClip (copyOperands s .gfx 10 10 13 12 30 30) = none := by decide

/-- K1: everything inside the clip, the destination at its lower right corner. -/
theorem test_hyp_copyClipProperties :
    let o : CopyOperands := ⟨⟨10, 10⟩, ⟨20, 20⟩, 10, 10, 13, 12, 17, 18⟩
    clipLegal o.clip1 o.clip2 = true ∧ o.sx1.toNat < o.sx2.toNat ∧ o.sy1.toNat < o.sy2.toNat ∧
      o.clip1.x.toNat ≤ o.sx1.toNat ∧ o.sx2.toNat ≤ o.clip2.x.toNat ∧
      o.clip1.y.toNat ≤ o.sy1.toNat ∧ o.sy2.toNat ≤ o.clip2.y.toNat ∧
      o.clip1.x.toNat ≤ o.dx.toNat ∧
      o.dx.toNat + (o.sx2.toNat - o.sx1.toNat) ≤ o.clip2.x.toNat ∧
      o.clip1.y.toNat ≤ o.dy.toNat ∧
      o.dy.toNat + (o.sy2.toNat - o.sy1.toNat) ≤ o.clip2.y.toNat ∧
      copyClip .independent o = some ⟨10, 10, 17, 18, 3, 2⟩ := by decide

theorem test_hyp_copyClipReadingsAgree :
    let o : CopyOperands := ⟨⟨10, 10⟩, ⟨20, 20⟩, 10, 10, 16, 12, 16, 14⟩
    o.clip1.x.toNat ≤ o.sx1.toNat ∧ o.clip1.x.toNat ≤ o.dx.toNat ∧
      o.clip1.y.toNat ≤ o.sy1.toNat ∧ o.clip1.y.toNat ≤ o.dy.toNat := by decide

theorem test_hyp_accumulator : 5 ≤ 4 * ([0xE4, 0xFF] : List Byte).length := by decide

theorem test_font_wf : Font.tf0.wf = true := by decide +kernel

/-- The test font without columns. -/
def noColumns : Font := { Font.tf0 with charW := 0 }

theorem test_font_ill_formed : noColumns.wf = false := by simp [noColumns, Font.wf]

/-- Glyphs up to the last column there is, and no glyph at all. -/
theorem test_hyp_text :
    (clipped 2 0 6 2).cfg.font? 3 = some Font.tf0 ∧ Font.tf0.wf = true ∧
      (clipped 2 0 6 2).clipOk .gfx = true ∧
      (65533 : U16).toNat + ([0x41] : List Byte).length * Font.tf0.charW ≤ 65536 ∧
      (65534 : U16).toNat + Font.tf0.charH ≤ 65536 :=
  ⟨rfl, test_font_wf, by decide, by decide, by decide⟩

theorem test_hyp_image :
    ((3 : U16).toNat * (3 : U16).toNat + 3) / 4 ≤ ([0x1B, 0xE4, 0x02] : List Byte).length ∧
      State.reset.clipOk .gfx = true ∧
      (65533 : U16).toNat + (3 : U16).toNat ≤ 65536 ∧
      (65533 : U16).toNat + (3 : U16).toNat ≤ 65536 := by decide

/-- A picture without columns. -/
theorem test_hyp_image_empty :
    ((0 : U16).toNat * (5 : U16).toNat + 3) / 4 ≤ ([] : List Byte).length ∧
      State.reset.clipOk .con = true ∧ (0 : U16).toNat = 0 := by decide

/-- The whole of the extra rows, and no scroll. -/
theorem test_hyp_scrollup :
    (2 : U16).toNat ≤ State.reset.cfg.extraRows .con ∧ (2 : U16).toNat + 128 ≤ 65535 ∧
      (0 : U16).toNat ≤ State.reset.cfg.extraRows .gfx ∧ (0 : U16).toNat + 128 ≤ 65535 ∧
      State.reset.blitBusy = false := by decide

/-- The last extra row, and an empty rectangle. -/
theorem test_hyp_hfill :
    ((0 : U16).toNat ≤ (480 : U16).toNat ∧ (480 : U16).toNat ≤ 480 ∧
        (128 : U16).toNat ≤ (130 : U16).toNat ∧
        (130 : U16).toNat ≤ 128 + State.reset.cfg.extraRows .gfx) ∧
      ((3 : U16).toNat ≤ (3 : U16).toNat ∧ (3 : U16).toNat ≤ 480 ∧
        (0 : U16).toNat ≤ (1 : U16).toNat ∧
        (1 : U16).toNat ≤ 128 + State.reset.cfg.extraRows .gfx) ∧
      State.reset.blitBusy = false := by decide

/-- An overlapping copy down to the last extra row. -/
theorem test_hyp_hcopy :
    (0 : U16).toNat + (479 : U16).toNat ≤ 480 ∧ (1 : U16).toNat + (479 : U16).toNat ≤ 480 ∧
      (0 : U16).toNat + (129 : U16).toNat ≤ 128 + State.reset.cfg.extraRows .con ∧
      (1 : U16).toNat + (129 : U16).toNat ≤ 128 + State.reset.cfg.extraRows .con ∧
      (0 : U16).toNat + (129 : U16).toNat ≤ 65535 ∧
      (1 : U16).toNat + (129 : U16).toNat ≤ 65535 ∧ State.reset.blitBusy = false ∧
      State.reset.cfg.copyOverlap = .snapshot := by decide

/-- Row 0, columns 0 to 5 copied two to the right: column 0 is outside the overlap, column 4 is not
(it is both read and written); the other way round every column is exact. -/
theorem test_hyp_hcopyOutsideTheOverlap :
    copyTouched ⟨0, 0, 2, 0, 1, 1⟩ 0 0 = false ∧ copyTouched ⟨0, 0, 2, 0, 6, 1⟩ 2 0 = true ∧
      pixelOffset 0 0 ≤ pixelOffset 2 0 := by decide

theorem test_hyp_activate : ∃ t, exec (.activate .gfx) State.reset = .next t := ⟨_, rfl⟩

theorem test_hyp_backEndsAgree :
    ∃ (i : Instr) (s : State), s.con.pixels.wf = true ∧ s.gfx.pixels.wf = true ∧ s.blitBusy = false ∧
      ∃ t, exec i (s.withCap .software) = .next t :=
  ⟨.rect .gfx 3 0 6 2 9, withGfx [(0, 5)], rfl, by decide, rfl, _, rfl⟩

theorem test_hyp_backEndsAgree_refused :
    ∃ i r, exec i (State.reset.withCap .software) = .refused r :=
  ⟨.scrollup .con 3, .beyondExtraRows, rfl⟩

theorem test_hyp_clipContainment :
    ∃ i s t f, isClipped i = true ∧ framebufferOf i = some f ∧ exec i s = .next t ∧
      ∃ a, State.offsetInClip s f a = false :=
  ⟨.setpixel .gfx 10 10 9, clipped 10 10 20 20, _, .gfx, rfl, rfl, rfl, 9, by decide⟩

theorem test_hyp_framebuffersDoNotInterfere :
    ∃ i s t f g, framebufferOf i = some f ∧ g ≠ f ∧ exec i s = .next t :=
  ⟨.setclip .gfx 0 0 1 1, State.reset, _, .gfx, .con, rfl, by decide, rfl⟩

theorem test_hyp_extraRows :
    ∃ i s t a, isDirect i = false ∧ exec i s = .next t ∧ 128 ≤ rowOf a :=
  ⟨.setpixel .gfx 0 127 9, State.reset, _, 61440, rfl, rfl, by decide⟩

theorem test_hyp_drawingTouchesOnlyPixels :
    ∃ i s t f, writesPixels i = true ∧ framebufferOf i = some f ∧ State.blitBusy s = false ∧
      exec i s = .next t ∧ s.cfg.copyOverlap = .snapshot :=
  ⟨.hfill .gfx 3 0 6 2 9, State.reset, _, .gfx, rfl, rfl, rfl, rfl, rfl⟩

theorem test_hyp_drawingIgnoresTheRest :
    ∃ i s t, isOperation i = true ∧ exec i s = .next t :=
  ⟨.setpixel .gfx 0 0 9, State.reset, _, rfl, rfl⟩

theorem test_hyp_pixelsDoNotAlias : 479 < 480 ∧ 0 < 480 := by decide

theorem test_hyp_stepKeepsTheInvariant : ∃ s t, State.Inv s ∧ step s = .next t :=
  ⟨{ State.reset with ops := [0x00, 0x01, 0, 0, 0, 0, 0xE0, 1, 0x80, 0] }, _, by decide, rfl⟩

theorem test_hyp_resetMeetsTheInvariant :
    Config.standIn.banner ≠ [] ∧ PowerOn.zero.conPixels.wf = true ∧
      PowerOn.zero.gfxPixels.wf = true ∧
      PowerOn.zero.conPixels.within (Config.standIn.storeSize .con) = true ∧
      PowerOn.zero.gfxPixels.within (Config.standIn.storeSize .gfx) = true := by decide

/-- One row too many for `SCROLLUP` and `HFILL`, one column too many for `HCOPY`. -/
theorem test_hyp_refused_store :
    State.reset.cfg.extraRows .con < (3 : U16).toNat ∧
      ¬((0 : U16).toNat ≤ (480 : U16).toNat ∧ (480 : U16).toNat ≤ 480 ∧
        (128 : U16).toNat ≤ (131 : U16).toNat ∧
        (131 : U16).toNat ≤ 128 + State.reset.cfg.extraRows .con) ∧
      ¬((0 : U16).toNat + (480 : U16).toNat ≤ 480 ∧ (1 : U16).toNat + (480 : U16).toNat ≤ 480 ∧
        (0 : U16).toNat + (1 : U16).toNat ≤ 128 + State.reset.cfg.extraRows .con ∧
        (0 : U16).toNat + (1 : U16).toNat ≤ 128 + State.reset.cfg.extraRows .con) := by decide

/-- A font index of 4; a coordinate one above 65535; a font without columns. -/
theorem test_hyp_refused_text :
    4 ≤ (4 : Byte).toNat ∧ State.reset.cfg.font? 0 = some Font.tf0 ∧ Font.tf0.wf = true ∧
      ([0x41] : List Byte) ≠ [] ∧
      65536 < (65534 : U16).toNat + ([0x41] : List Byte).length * Font.tf0.charW :=
  ⟨by decide, rfl, test_font_wf, by decide, by decide⟩

theorem test_hyp_refused_font :
    ∃ (s : State) (t : Font), s.cfg.font? 0 = some t ∧ t.wf = false :=
  ⟨{ State.reset with cfg := { Config.standIn with fonts := Vector.replicate 4 noColumns } },
    noColumns, rfl, test_font_ill_formed⟩

theorem test_hyp_refused_image :
    ([0x1B, 0xE4] : List Byte).length < ((3 : U16).toNat * (3 : U16).toNat + 3) / 4 ∧
      ((3 : U16).toNat * (3 : U16).toNat + 3) / 4 ≤ ([0x1B, 0xE4, 2] : List Byte).length ∧
      (3 : U16).toNat ≠ 0 ∧ 65536 < (65534 : U16).toNat + (3 : U16).toNat := by decide

theorem test_hyp_refused_copyrect :
    State.reset.clipOk .gfx = true ∧ (0 : U16).toNat < (2 : U16).toNat ∧
      (0 : U16).toNat < (1 : U16).toNat ∧
      65535 < (65534 : U16).toNat + ((2 : U16).toNat - (0 : U16).toNat) := by decide

/-- Stores so tall that a row number can exceed 65535. -/
theorem test_hyp_refused_tallStore :
    ∃ s : State, (65408 : U16).toNat ≤ s.cfg.extraRows .con ∧ 65535 < (65408 : U16).toNat + 128 ∧
      (65408 : U16).toNat + (128 : U16).toNat ≤ 128 + s.cfg.extraRows .con ∧
      65535 < (65408 : U16).toNat + (128 : U16).toNat :=
  ⟨{ State.reset with cfg := { Config.standIn with extraCon := 70000 } }, by decide, by decide,
    by decide, by decide⟩

/-- A text of one glyph and a picture of nine pixels, both of which would fit. -/
theorem test_hyp_illegalClip :
    (clipped 20 0 10 128).clipOk .gfx = false ∧
      (clipped 20 0 10 128).cfg.font? 0 = some Font.tf0 ∧ Font.tf0.wf = true ∧
      pictureFits 65533 0 (([0x41] : List Byte).length * Font.tf0.charW) Font.tf0.charH = true ∧
      pictureBytes 3 3 ≤ ([0x1B, 0xE4, 2] : List Byte).length ∧
      pictureFits 65533 0 3 3 = true :=
  ⟨by decide, rfl, test_font_wf, by decide, by decide, by decide⟩

theorem test_hyp_packedPosition :
    (⟨511, 127⟩ : Pos).x.toNat < 512 ∧ (⟨511, 127⟩ : Pos).y.toNat < 128 := by decide

theorem test_hyp_restore :
    ∃ g : Boundary.GraphicsContext, clipLegal g.current.clip1 g.current.clip2 = true :=
  ⟨⟨⟨⟨10, 20⟩, ⟨0, 0⟩, ⟨480, 128⟩, 2, ⟨1, 0, 0, 3⟩⟩,
      Vector.replicate 32 ⟨⟨0, 0⟩, ⟨0, 0⟩, ⟨0, 0⟩, 0, ⟨0, 0, 0, 0⟩⟩⟩, by decide⟩

/-! ## The boundary -/

/-- An environment for the tests: corners passed on, colour 3, column to column by one line. -/
def openings : Boundary.Openings :=
  { clipCorners := fun p q => (p, q)
    rectCorners := fun p q => (p, q)
    copyCorners := fun p q => (p, q)
    polylineColour := fun g => g.palette.p3
    rectColour := fun g => g.palette.p0
    plotColour := fun g => g.palette.p2
    imagePlace := fun g => g.pos
    imageTable := fun _ => none
    lastY := fun
      | .span _ b => b
      | .bounded _ b _ _ => b
      | _ => 0
    joinLines := fun x p y => [(Boundary.plotPos (x - 1) p, Boundary.plotPos x y)] }

/-- R166: a single, a pair, a pair without data (equal low bits), a quad, and an unfinished point. -/
theorem test_plot_points :
    Boundary.plotPoints [0x05, 0x87, 0x09, 0x8A, 0x0A, 0x81, 0x82, 3, 4, 0xFF] =
      [.single 5, .span 7 9, .noData, .bounded 1 2 3 4] := by decide

/-- R165, R166: from column 10, a dot, a joined span one column on, a break, and a new dot. -/
theorem test_plot_lines :
    Boundary.plotLines openings 10 none (Boundary.plotPoints [5, 0x87, 9, 0x8A, 0x0A, 6]) =
      [(⟨10, 5⟩, ⟨10, 5⟩), (⟨10, 5⟩, ⟨11, 7⟩), (⟨11, 7⟩, ⟨11, 9⟩), (⟨13, 6⟩, ⟨13, 6⟩)] := by decide

/-- R158: three packed positions give two lines. -/
theorem test_polyline (g : Boundary.GraphicsContext) :
    Boundary.drawPolyline openings g [0x28, 0x0A, 0x28, 0x14, 0x29, 0x00] =
      [.line .gfx 10 20 20 20 g.current.palette.p3, .line .gfx 20 20 256 20 g.current.palette.p3] :=
  rfl

/-- Ids for the tests: 32 saves from 0x20, 32 restores from 0x40, set clip and clear. -/
def ids : Boundary.CommandIds :=
  { saveBase := 0x20
    selBase := 0x40
    other := fun b => if b = 1 then some .setClip else if b = 2 then some .clear else none }

/-- R103, R159, R160: the first and the last slot of each range, and the ids beside them. -/
theorem test_slot_ids :
    ids.command 0x20 = some (.save 0) ∧ ids.command 0x3F = some (.save 31) ∧
      ids.command 0x45 = some (.restore 5) ∧ ids.command 0x60 = none ∧
      ids.command 1 = some (.plain .setClip) ∧ ids.command 3 = none := by decide

theorem test_hyp_shortCommands :
    ids.command 3 = none ∧ ids.command 1 = some (.plain .setClip) ∧
      ([0x28, 0x0A, 0x28] : List Byte).length < (Boundary.Command.plain .setClip).required ∧
      ([0x28, 0x0A, 0x28] : List Byte) ≠ [] ∧ ids.command 2 = some (.plain .clear) ∧
      ([] : List Byte).length < (Boundary.Command.plain .clear).required := by decide

/-- A terminal for the tests: the bytes from 0x20 on are printable. -/
def terminalOpenings : Boundary.TerminalOpenings :=
  { fontIndex := 0
    middleSlots := (0, 0)
    isPrintable := fun b => decide (0x20 ≤ b.toNat)
    backspaceClearsWrap := true
    backspaceAtFirst := id }

/-- The cursor after bytes from a cell; `TF0` gives 160 columns and 64 rows. -/
def cursorAfter (bytes : List Byte) (x y : Nat) : Boundary.Cursor :=
  (Boundary.processChars Config.standIn terminalOpenings bytes ⟨⟨x, y, false⟩, 1, 7⟩).1.cursor

/-- R182, R185: a character in the last column leaves the wrap pending, the next one comes to column 1
of the next row; a back space at a pending wrap does not move. -/
theorem test_pending_wrap :
    cursorAfter [0x41] 159 0 = ⟨159, 0, true⟩ ∧ cursorAfter [0x41, 0x41] 159 0 = ⟨1, 1, false⟩ ∧
      cursorAfter [0x41, 0x08] 159 0 = ⟨159, 0, false⟩ := by decide

/-- R183 to R187: back space, tab (to a multiple of 8, and clamped), carriage return, line feed, and a
byte that is ignored. -/
theorem test_control_bytes :
    cursorAfter [0x08] 5 3 = ⟨4, 3, false⟩ ∧ cursorAfter [0x09] 8 3 = ⟨16, 3, false⟩ ∧
      cursorAfter [0x09] 155 3 = ⟨159, 3, false⟩ ∧ cursorAfter [0x0D] 5 3 = ⟨0, 3, false⟩ ∧
      cursorAfter [0x0B] 5 3 = ⟨0, 4, false⟩ ∧ cursorAfter [0x07] 5 3 = ⟨5, 3, false⟩ := by decide

/-- R181, R184: a glyph at `(cursor_x*char_w, cursor_y*char_h)` in background and foreground, then the
scroll by one glyph row from the last row. -/
theorem test_terminal_draws :
    (Boundary.processChars Config.standIn terminalOpenings [0x41, 0x0A] ⟨⟨5, 63, false⟩, 1, 7⟩).2 =
      [.text .con 15 126 0 ⟨1, 0, 0, 7⟩ [0x41], .scrollup .con 2] := by decide

end Sys2Proof.Tests
end

namespace Sys2Proof.Machine

open Sys2Proof

/- Under this option Lean elaborates the proofs of this text one after the other. In parallel with
the model's tests, which wait for the kernel, they would take more threads than the check of the
whole text has memory for. -/
set_option deprecated.oldSectionVars true

/-! # The state: what each instruction may change, and the invariant of the reachable states

Three facts carry this part, each stated once for all instructions concerned: `exec_draws` (a
drawing operation is a run of plotted pixels, one fill or one copy inside its rows),
`exec_withUnseen` (what an operation on `FB[f]` does not see, it hands on unchanged) and
`exec_onlyFramer` (a received byte writes `ESC`, `SCRATCH` and the events alone). -/

/-! ## The kinds of instruction -/

/-- Every instruction is a received byte, an operation that writes pixels, or one of the four
operations that write none. -/
theorem instr_kinds (i : Instr) :
    (isOperation i = false ∧ framebufferOf i = none) ∨
      (writesPixels i = true ∧ ∃ f, framebufferOf i = some f) ∨
      (∃ f x1 y1 x2 y2, i = .setclip f x1 y1 x2 y2) ∨
      (∃ f, i = .activate f ∨ i = .hact f) ∨ i = .lutgen := by
  cases i <;> simp [isOperation, writesPixels, isClipped, isDirect, isScroll, framebufferOf]

/-- `SETCLIP` that answers a next state had legal operands and wrote them to the clip (R210). -/
theorem execSetclip_next {f : Fb} {x1 y1 x2 y2 : U16} {s t : State}
    (h : exec (.setclip f x1 y1 x2 y2) s = .next t) :
    clipLegal ⟨x1, y1⟩ ⟨x2, y2⟩ = true ∧ t = s.setClip f ⟨x1, y1⟩ ⟨x2, y2⟩ := by
  simp only [exec, execSetclip] at h
  split at h
  · exact ⟨‹_›, (Host.Outcome.next.inj h).symm⟩
  · cases h

/-- `ACTIVATE` and `HACT` write `ACTIVE` and `CURSOR_EN` alone (R223, R243). -/
theorem exec_activates {i : Instr} {f : Fb} {s t : State} (hi : i = .activate f ∨ i = .hact f)
    (h : exec i s = .next t) : t = { s with active := some f, cursorEn := t.cursorEn } := by
  rcases hi with rfl | rfl <;> (obtain rfl := Host.Outcome.next.inj h; rfl)

/-! ## Resetting and addressing -/

theorem clipLegal_screen : clipLegal ⟨0, 0⟩ ⟨480, 128⟩ = true := by decide

/-- R25, R61: two pixels of the 480 columns with one offset are one pixel. -/
theorem pixelOffset_inj {x y x' y' : Nat} (hx : x < screenWidth) (hx' : x' < screenWidth) :
    pixelOffset x' y' = pixelOffset x y ↔ x' = x ∧ y' = y := by
  constructor
  · intro h
    exact ⟨by rw [← colOf_pixelOffset y' hx', h, colOf_pixelOffset y hx],
      by rw [← rowOf_pixelOffset y' hx', h, rowOf_pixelOffset y hx]⟩
  · rintro ⟨rfl, rfl⟩; rfl

theorem State.pixel_putPixel_same (s : State) (f : Fb) (x y x' y' : Nat) (c : Byte) :
    (s.putPixel f x y c).pixel f x' y' =
      if pixelOffset x' y' = pixelOffset x y then c else s.pixel f x' y' := by
  simp only [State.pixel, State.putPixel, State.setPixels_pixels, Memory.read_write]

theorem State.pixel_putPixel_ne (s : State) {f g : Fb} (hg : g ≠ f) (x y x' y' : Nat) (c : Byte) :
    (s.putPixel f x y c).pixel g x' y' = s.pixel g x' y' := by
  simp only [State.pixel, State.putPixel, State.setPixels_fb_ne s _ hg]

/-- Settles O54: `State.powerOn` writes the table of R37 out. -/
theorem resetValues : Obligations.ResetValues := by
  intro cfg p
  exact ⟨rfl, rfl, rfl, fun f => by cases f <;> exact ⟨rfl, rfl⟩, rfl, rfl, rfl, rfl, rfl, rfl⟩

/-- Settles O51, by the injectivity of the pixel addressing. -/
theorem pixelsDoNotAlias : Obligations.PixelsDoNotAlias := by
  intro s f g x y x' y' c hx hx'
  by_cases hg : g = f
  · subst hg
    simp only [State.pixel_putPixel_same, pixelOffset_inj hx hx', true_and]
  · rw [State.pixel_putPixel_ne s hg, if_neg fun h => hg h.1]

theorem powerOn_inv {cfg : Config} {p : PowerOn} (hban : cfg.banner ≠ [])
    (hcon : p.conPixels.wf = true) (hgfx : p.gfxPixels.wf = true)
    (hcon' : p.conPixels.within (cfg.storeSize .con) = true)
    (hgfx' : p.gfxPixels.within (cfg.storeSize .gfx) = true) : (State.powerOn cfg p).Inv :=
  ⟨⟨hcon, hcon', clipLegal_screen⟩, ⟨hgfx, hgfx', clipLegal_screen⟩, rfl, rfl, hban, rfl⟩

/-- Settles O53: the invariant is read off the reset state, and the stores of `State.reset` list
nothing. -/
theorem resetMeetsTheInvariant : Obligations.ResetMeetsTheInvariant :=
  ⟨fun _ _ => powerOn_inv, powerOn_inv (by decide) rfl rfl rfl rfl⟩

/-! ## What a drawing operation can do -/

theorem clipLegal_iff {c1 c2 : Pos} : clipLegal c1 c2 = true ↔
    c1.x.toNat ≤ c2.x.toNat ∧ c2.x.toNat ≤ screenWidth ∧
      c1.y.toNat ≤ c2.y.toNat ∧ c2.y.toNat ≤ screenHeight :=
  decide_eq_true_iff

theorem rect_not_empty_iff {r : Rect} : ¬ r.empty = true ↔ r.x1 < r.x2 ∧ r.y1 < r.y2 := by
  simp [Rect.empty]

theorem clipHolds_iff {o : CopyOperands} {x y nx ny : Nat} :
    o.clipHolds x y nx ny = true ↔ o.clip1.x.toNat ≤ x ∧ x + nx ≤ o.clip2.x.toNat ∧
      o.clip1.y.toNat ≤ y ∧ y + ny ≤ o.clip2.y.toNat :=
  decide_eq_true_iff

theorem copyClipTranslate_destination {o : CopyOperands} {j : CopyJob}
    (h : copyClipTranslate o = some j) : o.clipHolds j.tx j.ty j.nx j.ny = true := by
  simp only [copyClipTranslate] at h
  split at h
  · cases h
  · rename_i hsrc
    split at h
    · cases h
    · rename_i hsize
      simp only [CopyOperands.emptySource, decide_eq_true_eq, not_or, not_le] at hsrc
      cases h
      obtain ⟨hx1, hx2, -⟩ :=
        translate_axis (d := o.dx.toNat) hsrc.1 fun h => hsize (.inl h)
      obtain ⟨hy1, hy2, -⟩ :=
        translate_axis (d := o.dy.toNat) hsrc.2 fun h => hsize (.inr h)
      exact clipHolds_iff.mpr ⟨hx1, hx2, hy1, hy2⟩

theorem copyClipIndependent_destination {o : CopyOperands} {j : CopyJob}
    (h : copyClipIndependent o = some j) : o.clipHolds j.tx j.ty j.nx j.ny = true := by
  simp only [copyClipIndependent] at h
  split at h
  · cases h
  · rename_i hsrc
    split at h
    · cases h
    · rename_i hdst
      cases h
      obtain ⟨hsx, hsy⟩ := rect_not_empty_iff.mp hsrc
      obtain ⟨hdx, hdy⟩ := rect_not_empty_iff.mp hdst
      obtain ⟨hx1, hx2, -⟩ := independent_axis hsx.not_ge hdx.not_ge
      obtain ⟨hy1, hy2, -⟩ := independent_axis hsy.not_ge hdy.not_ge
      exact clipHolds_iff.mpr ⟨hx1, hx2, hy1, hy2⟩

/-- A copy of `COPY_CLIP` lands inside the clip rectangle, whatever the kind (R219 P1). -/
theorem copyClip_destination {kind : CopyClipKind} {o : CopyOperands} {j : CopyJob}
    (h : copyClip kind o = some j) : o.clipHolds j.tx j.ty j.nx j.ny = true := by
  cases kind with
  | translate => exact copyClipTranslate_destination h
  | independent => exact copyClipIndependent_destination h
  | other =>
    simp only [copyClip] at h
    split at h
    · rename_i hallowed
      simp only [h, copyAnswerAllowed, Bool.and_eq_true] at hallowed
      exact hallowed.1.1.1.2
    · exact copyClipTranslate_destination h

/-- The three ways a next state is drawn on `FB[f]`: pixels through `SETPIXEL` under a legal clip, a
fill, or a copy, the last two inside the 480 columns and the first `rows` rows. -/
def Draws (rows : Nat) (f : Fb) (s t : State) : Prop :=
  (s.clipOk f = true ∧ ∃ ps, t = plotAll s f ps) ∨
    (∃ x1 y1 x2 y2 c, x1 ≤ x2 ∧ x2 ≤ screenWidth ∧ y1 ≤ y2 ∧ y2 ≤ rows ∧
      t = capFill s f x1 y1 x2 y2 c) ∨
    ∃ j : CopyJob, j.tx + j.nx ≤ screenWidth ∧ j.ty + j.ny ≤ rows ∧ t = capCopy s f j

theorem Draws.plots {rows : Nat} {f : Fb} {s : State} (hc : s.clipOk f = true) (ps : List Pixel) :
    Draws rows f s (plotAll s f ps) :=
  .inl ⟨hc, ps, rfl⟩

theorem Draws.fills {rows : Nat} {f : Fb} {s : State} {x1 y1 x2 y2 : Nat} (hx : x1 ≤ x2)
    (hw : x2 ≤ screenWidth) (hy : y1 ≤ y2) (hr : y2 ≤ rows) (c : Byte) :
    Draws rows f s (capFill s f x1 y1 x2 y2 c) :=
  .inr (.inl ⟨x1, y1, x2, y2, c, hx, hw, hy, hr, rfl⟩)

theorem Draws.copies {rows : Nat} {f : Fb} {s : State} {j : CopyJob}
    (hw : j.tx + j.nx ≤ screenWidth) (hr : j.ty + j.ny ≤ rows) : Draws rows f s (capCopy s f j) :=
  .inr (.inr ⟨j, hw, hr, rfl⟩)

theorem Draws.mono {rows rows' : Nat} {f : Fb} {s t : State} (hle : rows ≤ rows')
    (h : Draws rows f s t) : Draws rows' f s t := by
  rcases h with ⟨hc, ps, rfl⟩ | ⟨x1, y1, x2, y2, c, hx, hw, hy, hr, rfl⟩ | ⟨j, hw, hr, rfl⟩
  · exact .plots hc ps
  · exact .fills hx hw hy (hr.trans hle) c
  · exact .copies hw (hr.trans hle)

section Visible
variable {s t : State} {f : Fb}

/-- A clipped fill stays on the visible screen (R214, R226). -/
theorem clippedFill_draws (hc : s.clipOk f = true) (r : Rect) (c : Byte) :
    Draws screenHeight f s (clippedFill s f r c) := by
  simp only [clippedFill]
  split
  · exact .plots hc []
  · rename_i hne
    obtain ⟨hx, hy⟩ := rect_not_empty_iff.mp hne
    obtain ⟨-, hw, -, hr⟩ := clipLegal_iff.mp hc
    exact .fills hx.le ((min_le_right _ _).trans hw) hy.le ((min_le_right _ _).trans hr) c

/-- `COPYRECT` stays on the visible screen (R218, R219). -/
theorem execCopyrect_draws {sx1 sy1 sx2 sy2 dx dy : U16}
    (h : execCopyrect f sx1 sy1 sx2 sy2 dx dy s = .next t) : Draws screenHeight f s t := by
  simp only [execCopyrect] at h
  split at h
  · rename_i hc
    split at h
    · cases h
    · split at h
      · rename_i j hj
        cases h
        obtain ⟨-, hx, -, hy⟩ := clipHolds_iff.mp (copyClip_destination hj)
        obtain ⟨-, hw, -, hr⟩ := clipLegal_iff.mp hc
        exact .copies (hx.trans hw) (hy.trans hr)
      · cases h
        exact .plots hc []
  · cases h

theorem execText_draws {x y : U16} {k : Byte} {pal : Palette} {codes : List Byte}
    (h : execText f x y k pal codes s = .next t) : Draws screenHeight f s t := by
  simp only [execText] at h
  repeat' split at h
  all_goals cases h
  exact .plots ‹_› _

theorem execImage_draws {x y w h : U16} {pal : Palette} {data : List Byte}
    (hn : execImage f x y w h pal data s = .next t) : Draws screenHeight f s t := by
  simp only [execImage] at hn
  repeat' split at hn
  all_goals cases hn
  exact .plots ‹_› _

theorem execScrollup_draws {h : U16} (hn : execScrollup f h s = .next t) :
    Draws screenHeight f s t := by
  simp only [execScrollup] at hn
  repeat' split at hn
  all_goals cases hn
  exact .copies (by simp) (by simp)

/-- A next state under a legal clip and no other condition (`SETPIXEL`, `LINE`, `RECT`, `CLEAR`). -/
theorem draws_of_clipGuard {u : State} (hu : s.clipOk f = true → Draws screenHeight f s u)
    (h : (if s.clipOk f then Host.Outcome.next u else .refused .illegalClipState : Outcome) =
      .next t) : Draws screenHeight f s t := by
  split at h
  · cases h
    exact hu ‹_›
  · cases h

/-- Every drawing operation but a direct call of the capability stays on the visible screen
(R65, R222, R224). -/
theorem exec_draws_visible {i : Instr} (hw : writesPixels i = true) (hd : isDirect i = false)
    (hf : framebufferOf i = some f) (h : exec i s = .next t) : Draws screenHeight f s t := by
  cases i with
  | setpixel g x y c => cases hf; exact draws_of_clipGuard (fun hc => .plots hc [_]) h
  | line g x1 y1 x2 y2 c => cases hf; exact draws_of_clipGuard (fun hc => .plots hc _) h
  | rect g x1 y1 x2 y2 c =>
    cases hf; exact draws_of_clipGuard (fun hc => clippedFill_draws hc _ c) h
  | clear g c => cases hf; exact draws_of_clipGuard (fun hc => clippedFill_draws hc _ c) h
  | copyrect g sx1 sy1 sx2 sy2 dx dy => cases hf; exact execCopyrect_draws h
  | text g x y k pal codes => cases hf; exact execText_draws h
  | image g x y w h pal data => cases hf; exact execImage_draws ‹_›
  | scrollup g h => cases hf; exact execScrollup_draws ‹_›
  | hfill | hcopy => cases hd
  | _ => cases hw

theorem execHfill_draws {x1 y1 x2 y2 : U16} {c : Byte}
    (h : execHfill f x1 y1 x2 y2 c s = .next t) : Draws (s.cfg.rows f) f s t := by
  simp only [execHfill] at h
  split at h
  · rename_i hin
    cases h
    obtain ⟨hx, hw, hy, hr⟩ := hin
    exact .fills hx hw hy hr c
  · cases h

theorem execHcopy_draws {sx sy dx dy nx ny : U16}
    (h : execHcopy f sx sy dx dy nx ny s = .next t) : Draws (s.cfg.rows f) f s t := by
  simp only [execHcopy] at h
  split at h
  · rename_i hin
    split at h
    · cases h
      obtain ⟨-, hw, -, hr⟩ := hin
      exact .copies hw hr
    · cases h
  · cases h

theorem screenHeight_le_rows (cfg : Config) (f : Fb) : screenHeight ≤ cfg.rows f :=
  Nat.le_add_right _ _

/-- Everything a drawing operation can do, direct calls included: it draws inside the backing store
of its framebuffer (R65, R240). -/
theorem exec_draws {i : Instr} (hw : writesPixels i = true) (hf : framebufferOf i = some f)
    (h : exec i s = .next t) : Draws (s.cfg.rows f) f s t := by
  cases hd : isDirect i with
  | false => exact (exec_draws_visible hw hd hf h).mono (screenHeight_le_rows _ _)
  | true =>
    cases i with
    | hfill g x1 y1 x2 y2 c => cases hf; exact execHfill_draws h
    | hcopy g sx sy dx dy nx ny => cases hf; exact execHcopy_draws h
    | _ => cases hd

end Visible

/-! ## What is drawn changes nothing but pixels -/

section Drawn
variable {rows : Nat} {f : Fb} {s t : State}

theorem State.setPixels_free_self (s : State) (f : Fb) (m : Memory) :
    { s.setPixels f m with free := s.free } = s.setPixels f m := by
  cases f <;> rfl

theorem OnlyPixels.andFree (h : OnlyPixels f s t) : OnlyPixelsAndFree f s t ∧ t.free = s.free := by
  have hfree : t.free = s.free := by rw [h, State.setPixels_free]
  refine ⟨?_, hfree⟩
  rw [OnlyPixelsAndFree, hfree, State.setPixels_free_self]
  exact h

/-- R38, R246: of the state, a drawing operation changes the pixels of its framebuffer, and the
counter of free values only where an overlap may take any value. -/
theorem Draws.onlyPixelsAndFree (h : Draws rows f s t) (hb : s.blitBusy = false) :
    OnlyPixelsAndFree f s t ∧ (s.cfg.copyOverlap = .snapshot → t.free = s.free) := by
  rcases h with ⟨-, ps, rfl⟩ | ⟨x1, y1, x2, y2, c, -, -, -, -, rfl⟩ | ⟨j, -, -, rfl⟩
  · obtain ⟨hp, hfree⟩ := (plotAll_onlyPixels s f ps).andFree
    exact ⟨hp, fun _ => hfree⟩
  · obtain ⟨hp, hfree⟩ := (capFill_onlyPixels s f x1 y1 x2 y2 c hb).andFree
    exact ⟨hp, fun _ => hfree⟩
  · refine ⟨capCopy_onlyPixelsAndFree s f j hb, fun hsnap => ?_⟩
    have hnot : copyIsFree s.cfg j = false := by simp [copyIsFree, hsnap]
    exact (capCopy_onlyPixels s f j hb hnot).andFree.2

/-- R61, R64, R65: what is drawn inside the backing store keeps it canonical and inside its size. -/
theorem Draws.store (h : Draws rows f s t) (hrows : screenHeight ≤ rows)
    (hs : StoreOk rows (s.fb f).pixels) : StoreOk rows (t.fb f).pixels := by
  rcases h with ⟨hc, ps, rfl⟩ | ⟨x1, y1, x2, y2, c, hx, hw, hy, hr, rfl⟩ | ⟨j, hw, hr, rfl⟩
  · exact plotAll_store hc (Nat.mul_le_mul_left _ hrows) ps hs.1 hs.2
  · exact capFill_store hx hw hy hr c hs
  · exact capCopy_store hw hr hs

/-- What is drawn inside the first `rows` rows leaves every row from there on as it was. -/
theorem Draws.read_below (h : Draws rows f s t) (hrows : screenHeight ≤ rows) {a : Nat}
    (ha : rows ≤ rowOf a) : (t.fb f).pixels.read a = (s.fb f).pixels.read a := by
  rcases h with ⟨hc, ps, rfl⟩ | ⟨x1, y1, x2, y2, c, hx, hw, hy, hr, rfl⟩ | ⟨j, hw, hr, rfl⟩
  · have hout : s.offsetInClip f a ≠ true := fun hin =>
      absurd (inClip_bounds hc hin).2 (not_lt.mpr (hrows.trans ha))
    rw [plotAll_read hc, if_neg hout]
  · rw [capFill_read s f hx hw hy, if_neg (by omega)]
  · rw [capCopy_read s f j hw, if_neg (by omega)]

end Drawn

/-- Settles O49, from the three ways of drawing. -/
theorem drawingTouchesOnlyPixels : Obligations.DrawingTouchesOnlyPixels := by
  intro i s t f hw hf hb h
  exact (exec_draws hw hf h).onlyPixelsAndFree hb

/-! ## What an operation on `FB[f]` does not see -/

/-- The counter of free values moved on, as an overlap at any value does (U5). -/
def State.countFree (s : State) : State := { s with free := s.free + 1 }

theorem copyResult_eq (s : State) (f : Fb) (j : CopyJob) :
    copyResult s f j =
      let t := s.setPixels f (storeRows (s.fb f).pixels j.tx j.ty (copyRows s f j))
      if copyIsFree s.cfg j then t.countFree else t := rfl

/-- The update of a next state; an outcome that is none stays. -/
def nextMap (u : State → State) : Outcome → Outcome
  | .next t => .next (u t)
  | .fault r => .fault r
  | .refused r => .refused r

@[simp] theorem nextMap_next (u : State → State) (t : State) :
    nextMap u (.next t) = .next (u t) := rfl

@[simp] theorem nextMap_refused (u : State → State) (r : Refusal) :
    nextMap u (.refused r) = .refused r := rfl

theorem nextMap_ite (u : State → State) (p : Prop) [Decidable p] (a b : Outcome) :
    nextMap u (if p then a else b) = if p then nextMap u a else nextMap u b :=
  apply_ite (nextMap u) p a b

/-- The instruction draws on its framebuffer or sets its clip. -/
def DrawsOrClips (i : Instr) : Prop :=
  writesPixels i = true ∨ ∃ f x1 y1 x2 y2, i = .setclip f x1 y1 x2 y2

/-- The state with everything that an operation on `FB[f]` does not see taken from `o`: the other
framebuffer, display, `LUT`, FRAMER, inputs and output. What it sees stays: the parameters, `FB[f]`,
`BLIT_BUSY` and the counter of free values. -/
def withUnseen (f : Fb) (o s : State) : State :=
  State.setFb { o with cfg := s.cfg, blitBusy := s.blitBusy, free := s.free } f (s.fb f)

section Unseen
variable (f : Fb) (o s : State)

/-! What is seen is read unchanged, and what is written is seen. -/

@[simp] theorem withUnseen_cfg : (withUnseen f o s).cfg = s.cfg := by
  cases f <;> rfl

@[simp] theorem withUnseen_free : (withUnseen f o s).free = s.free := by
  cases f <;> rfl

@[simp] theorem withUnseen_blitBusy : (withUnseen f o s).blitBusy = s.blitBusy := by
  cases f <;> rfl

@[simp] theorem withUnseen_fb : (withUnseen f o s).fb f = s.fb f := by
  cases f <;> rfl

theorem withUnseen_fb_ne {g : Fb} (hg : g ≠ f) : (withUnseen f o s).fb g = o.fb g := by
  calc (withUnseen f o s).fb g
      = State.fb { o with cfg := s.cfg, blitBusy := s.blitBusy, free := s.free } g :=
        State.setFb_fb_ne _ _ hg
    _ = o.fb g := by cases g <;> rfl

@[simp] theorem withUnseen_self : withUnseen f s s = s := by
  cases f <;> rfl

@[simp] theorem withUnseen_setFb (b : Framebuffer) :
    (withUnseen f o s).setFb f b = withUnseen f o (s.setFb f b) := by
  cases f <;> rfl

@[simp] theorem withUnseen_setBlitBusy (v : Bool) :
    (withUnseen f o s).setBlitBusy v = withUnseen f o (s.setBlitBusy v) := by
  cases f <;> rfl

@[simp] theorem withUnseen_countFree :
    (withUnseen f o s).countFree = withUnseen f o s.countFree := by
  cases f <;> rfl

@[simp] theorem withUnseen_clipOk : (withUnseen f o s).clipOk f = s.clipOk f := by
  simp only [State.clipOk, withUnseen_fb]

@[simp] theorem withUnseen_setPixels (m : Memory) :
    (withUnseen f o s).setPixels f m = withUnseen f o (s.setPixels f m) := by
  simp only [State.setPixels, withUnseen_fb, withUnseen_setFb]

@[simp] theorem withUnseen_setClip (c1 c2 : Pos) :
    (withUnseen f o s).setClip f c1 c2 = withUnseen f o (s.setClip f c1 c2) := by
  simp only [State.setClip, withUnseen_fb, withUnseen_setFb]

@[simp] theorem plot_withUnseen (p : Pixel) :
    plot (withUnseen f o s) f p = withUnseen f o (plot s f p) := by
  simp [plot, State.putPixel, apply_ite (withUnseen f o)]

@[simp] theorem plotAll_withUnseen (ps : List Pixel) :
    plotAll (withUnseen f o s) f ps = withUnseen f o (plotAll s f ps) := by
  induction ps generalizing s with
  | nil => rfl
  | cons p ps ih =>
    calc plotAll (withUnseen f o s) f (p :: ps)
        = plotAll (withUnseen f o (plot s f p)) f ps := by rw [← plot_withUnseen]; rfl
      _ = withUnseen f o (plotAll s f (p :: ps)) := ih _

@[simp] theorem patchColumn_withUnseen (x y1 y2 : Nat) (c : Byte) :
    patchColumn (withUnseen f o s) f x y1 y2 c = withUnseen f o (patchColumn s f x y1 y2 c) := by
  simp [patchColumn]

@[simp] theorem bulkFill_withUnseen (x1 y1 x2 y2 : Nat) (c : Byte) :
    bulkFill (withUnseen f o s) f x1 y1 x2 y2 c = withUnseen f o (bulkFill s f x1 y1 x2 y2 c) := by
  simp [bulkFill]

theorem blitterFill_withUnseen (x1 y1 x2 y2 : Nat) (c : Byte) :
    blitterFill (withUnseen f o s) f x1 y1 x2 y2 c =
      withUnseen f o (blitterFill s f x1 y1 x2 y2 c) := by
  simp only [blitterFill, patchColumn_withUnseen, bulkFill_withUnseen,
    ← apply_ite (withUnseen f o)]

/-- `fill_rect` of either back end sees `FB[f]` and the parameters alone (R241, R245). -/
@[simp] theorem capFill_withUnseen (x1 y1 x2 y2 : Nat) (c : Byte) :
    capFill (withUnseen f o s) f x1 y1 x2 y2 c = withUnseen f o (capFill s f x1 y1 x2 y2 c) := by
  simp only [capFill, withUnseen_cfg]
  split
  · simp [softwareFill]
  · exact blitterFill_withUnseen f o s x1 y1 x2 y2 c

@[simp] theorem clippedFill_withUnseen (r : Rect) (c : Byte) :
    clippedFill (withUnseen f o s) f r c = withUnseen f o (clippedFill s f r c) := by
  simp [clippedFill, apply_ite (withUnseen f o)]

theorem copyResult_withUnseen (j : CopyJob) :
    copyResult (withUnseen f o s) f j = withUnseen f o (copyResult s f j) := by
  simp [copyResult_eq, copyRows, apply_ite (withUnseen f o)]

/-- `copy_rect` of either back end sees `FB[f]`, the parameters and the counter alone (R242). -/
@[simp] theorem capCopy_withUnseen (j : CopyJob) :
    capCopy (withUnseen f o s) f j = withUnseen f o (capCopy s f j) := by
  simp only [capCopy, withUnseen_cfg]
  split
  · exact copyResult_withUnseen f o s j
  · simp only [withUnseen_setBlitBusy, copyResult_withUnseen]

@[simp] theorem copyOperands_withUnseen (sx1 sy1 sx2 sy2 dx dy : U16) :
    copyOperands (withUnseen f o s) f sx1 sy1 sx2 sy2 dx dy =
      copyOperands s f sx1 sy1 sx2 sy2 dx dy := by
  simp [copyOperands]

theorem execCopyrect_withUnseen (sx1 sy1 sx2 sy2 dx dy : U16) :
    execCopyrect f sx1 sy1 sx2 sy2 dx dy (withUnseen f o s) =
      nextMap (withUnseen f o) (execCopyrect f sx1 sy1 sx2 sy2 dx dy s) := by
  simp only [execCopyrect, withUnseen_clipOk, withUnseen_cfg, copyOperands_withUnseen,
    capCopy_withUnseen, nextMap_ite, nextMap_refused]
  cases copyClip s.cfg.copyClip (copyOperands s f sx1 sy1 sx2 sy2 dx dy) <;> rfl

theorem execText_withUnseen (x y : U16) (k : Byte) (pal : Palette) (codes : List Byte) :
    execText f x y k pal codes (withUnseen f o s) =
      nextMap (withUnseen f o) (execText f x y k pal codes s) := by
  simp only [execText, withUnseen_cfg]
  cases s.cfg.font? k with
  | none => rfl
  | some t => simp [nextMap_ite]

/-- R24, R38: an operation that draws on `FB[f]` or sets its clip does the same to what it sees,
whatever the rest of the state, and hands the rest on. -/
theorem exec_withUnseen {i : Instr} (hi : DrawsOrClips i) (hf : framebufferOf i = some f) :
    exec i (withUnseen f o s) = nextMap (withUnseen f o) (exec i s) := by
  rcases hi with hw | ⟨g, x1, y1, x2, y2, rfl⟩
  · cases i with
    | setpixel g x y c => cases hf; simp [exec, execSetpixel, nextMap_ite]
    | line g x1 y1 x2 y2 c => cases hf; simp [exec, execLine, nextMap_ite]
    | rect g x1 y1 x2 y2 c => cases hf; simp [exec, execRect, nextMap_ite]
    | clear g c => cases hf; simp [exec, execClear, nextMap_ite]
    | copyrect g sx1 sy1 sx2 sy2 dx dy =>
      cases hf; exact execCopyrect_withUnseen f o s sx1 sy1 sx2 sy2 dx dy
    | text g x y k pal codes => cases hf; exact execText_withUnseen f o s x y k pal codes
    | image g x y w h pal data => cases hf; simp [exec, execImage, nextMap_ite]
    | scrollup g h => cases hf; simp [exec, execScrollup, nextMap_ite]
    | hfill g x1 y1 x2 y2 c => cases hf; simp [exec, execHfill, nextMap_ite]
    | hcopy g sx sy dx dy nx ny => cases hf; simp [exec, execHcopy, nextMap_ite]
    | _ => cases hw
  · cases hf
    simp [exec, execSetclip, nextMap_ite]

end Unseen

section Frame
variable {i : Instr} {s t : State} {f : Fb}

theorem exec_withUnseen_next (hi : DrawsOrClips i) (hf : framebufferOf i = some f)
    (h : exec i s = .next t) (o : State) :
    exec i (withUnseen f o s) = .next (withUnseen f o t) := by
  rw [exec_withUnseen f o s hi hf, h, nextMap_next]

/-- The frame: with the rest of `s` handed on to itself, the rest of the next state is that of
`s`. -/
theorem withUnseen_of_exec (hi : DrawsOrClips i) (hf : framebufferOf i = some f)
    (h : exec i s = .next t) : withUnseen f s t = t := by
  have hself := exec_withUnseen_next hi hf h s
  rw [withUnseen_self, h] at hself
  exact (Host.Outcome.next.inj hself).symm

/-- R24: what draws on `FB[f]` or sets its clip leaves the other framebuffer as it was. -/
theorem exec_fb_ne (hi : DrawsOrClips i) (hf : framebufferOf i = some f)
    (h : exec i s = .next t) {g : Fb} (hg : g ≠ f) : t.fb g = s.fb g := by
  rw [← withUnseen_of_exec hi hf h, withUnseen_fb_ne f s t hg]

/-- The other framebuffer is not seen: replacing it in a state that takes it from `s` is taking it
from `s` with it replaced. -/
theorem State.setFb_eq_withUnseen {g : Fb} (hg : g ≠ f) (b : Framebuffer)
    (ht : withUnseen f s t = t) : t.setFb g b = withUnseen f (s.setFb g b) t := by
  rw [← ht]
  cases f <;> cases g
  case con.con | gfx.gfx => exact absurd rfl hg
  case con.gfx | gfx.con => rfl

/-- R24: replacing the other framebuffer commutes with what draws on `FB[f]` or sets its clip. -/
theorem exec_setFb_ne (hi : DrawsOrClips i) (hf : framebufferOf i = some f)
    (h : exec i s = .next t) {g : Fb} (hg : g ≠ f) (b : Framebuffer) :
    exec i (s.setFb g b) = .next (t.setFb g b) := by
  rw [State.setFb_eq_withUnseen hg b (withUnseen_self f s),
    State.setFb_eq_withUnseen hg b (withUnseen_of_exec hi hf h)]
  exact exec_withUnseen_next hi hf h _

/-- R38: in a state that agrees with `s` on the parameters, both framebuffers, `BLIT_BUSY` and the
counter, what draws on `FB[f]` or sets its clip does the same to them. -/
theorem exec_next_of_agrees (hi : DrawsOrClips i) (hf : framebufferOf i = some f)
    (h : exec i s = .next t) {o : State} (ho : withUnseen f o s = o) (hfb : ∀ g, o.fb g = s.fb g) :
    ∃ u, exec i o = .next u ∧ (∀ g, u.fb g = t.fb g) ∧ u.free = t.free ∧
      u.blitBusy = t.blitBusy := by
  refine ⟨withUnseen f o t, ?_, fun g => ?_, withUnseen_free f o t, withUnseen_blitBusy f o t⟩
  · rw [← exec_withUnseen_next hi hf h o, ho]
  · by_cases hg : g = f
    · rw [hg, withUnseen_fb]
    · rw [withUnseen_fb_ne f o t hg, hfb, exec_fb_ne hi hf h hg]

end Frame

/-- Settles O47: the other framebuffer is not seen by what draws or sets the clip, and handing a
buffer over reads none. -/
theorem framebuffersDoNotInterfere : Obligations.FramebuffersDoNotInterfere := by
  intro i s t f g b hf hg h
  rcases instr_kinds i with ⟨-, hnone⟩ | ⟨hw, -⟩ | hclip | ⟨f', rfl | rfl⟩ | rfl
  · rw [hnone] at hf; cases hf
  · exact exec_setFb_ne (.inl hw) hf h hg b
  · exact exec_setFb_ne (.inr hclip) hf h hg b
  · cases h; cases g <;> rfl
  · cases h; cases g <;> rfl
  · cases hf

/-- Settles O50: FRAMER, `LUT`, display and inputs are not seen by what draws or sets the clip, and
the other operations touch no framebuffer. -/
theorem drawingIgnoresTheRest : Obligations.DrawingIgnoresTheRest := by
  intro i s t a e l esc sc rx ops ev hop h
  have drawn : ∀ f, DrawsOrClips i → framebufferOf i = some f → _ := fun f hi hf =>
    exec_next_of_agrees hi hf h (o := { s with
        active := a, cursorEn := e, lut := l, esc := esc, scratch := sc, rx := rx, ops := ops
        events := ev }) (by cases f <;> rfl) (fun g => by cases g <;> rfl)
  rcases instr_kinds i with
    ⟨hbyte, -⟩ | ⟨hw, f, hf⟩ | ⟨f, x1, y1, x2, y2, rfl⟩ | ⟨f, rfl | rfl⟩ | rfl
  · rw [hbyte] at hop; cases hop
  · obtain ⟨u, hu, hfb, hfree, hbusy⟩ := drawn f (.inl hw) hf
    exact ⟨u, hu, hfb .con, hfb .gfx, hfree, hbusy⟩
  · obtain ⟨u, hu, hfb, hfree, hbusy⟩ := drawn f (.inr ⟨f, x1, y1, x2, y2, rfl⟩) rfl
    exact ⟨u, hu, hfb .con, hfb .gfx, hfree, hbusy⟩
  all_goals cases h; exact ⟨_, rfl, rfl, rfl, rfl, rfl⟩

/-! ## What a received byte can do -/

section Framer
variable {s t : State}

theorem OnlyFramer.fb_eq (h : OnlyFramer s t) (f : Fb) : t.fb f = s.fb f := by
  rw [h]
  cases f <;> rfl

/-- A banner mismatch is replayed within the banner, with the frame of every FRAMER step (R135). -/
theorem execWbbMiss_frame {b : Byte} (h : execWbbMiss b s = .next t) : FramerFrame s t := by
  simp only [execWbbMiss] at h
  split at h
  · rename_i k hesc
    split at h
    · rename_i x hk
      split at h
      · cases h
      · refine replayMiss_frame (framerStep_frame _) (fun k' hesc' => ?_) h
        cases hesc.symm.trans hesc'
        exact (List.getElem?_eq_some_iff.mp hk).1
    · cases h
  · cases h

/-- R38, R120: an instruction of format B, in whatever state it is run, writes nothing but `ESC`,
`SCRATCH` and the events. Every branch of a meaning is a refusal or is written with `setEsc`,
`setScratch` and `emit`, but for the replay of a mismatch. -/
theorem exec_onlyFramer {i : Instr} (hi : isOperation i = false) (h : exec i s = .next t) :
    OnlyFramer s t := by
  cases i with
  | wbbMiss b => exact (execWbbMiss_frame h).only
  | idleEsc | idleChar | escEsc | escCsi | escRi | escOther | csiParam | csiFinal | csiFinalJ
  | binLen0 | binLen | binData | wbbMatch =>
    simp only [exec, execIdleEsc, execIdleChar, execEscEsc, execEscCsi, execEscRi, execEscOther,
      execCsiParam, execCsiFinal, execCsiFinalJ, execBinLen0, execBinLen, execBinData,
      execWbbMatch] at h
    repeat' split at h
    all_goals cases h
    all_goals rfl
  | _ => cases hi

/-- The row of a decoded byte is the one a FRAMER step runs (R91, R120). -/
theorem exec_decodeByte {b : Byte} {i : Instr} (hd : decodeByte s.cfg s.esc b = .ok i) :
    exec i s = framerStepWith execWbbMiss b s := by
  simp only [decodeByte] at hd
  simp only [framerStepWith]
  cases hc : classify s.cfg s.esc b with
  | error e => rw [hc] at hd; cases hd
  | ok c =>
    rw [hc] at hd
    cases hd
    cases c <;> rfl

/-- A decoded byte has the frame of a FRAMER step. -/
theorem exec_decodeByte_frame {b : Byte} {i : Instr} (hd : decodeByte s.cfg s.esc b = .ok i)
    (h : exec i s = .next t) : FramerFrame s t := by
  rw [exec_decodeByte hd] at h
  exact framerStepWith_frame (fun _ _ _ hm => execWbbMiss_frame hm) h

end Framer

/-! ## Rows beyond the visible screen -/

/-- Settles O48: what writes pixels without a direct call draws on the visible rows of its own
framebuffer, and no other instruction writes a pixel. -/
theorem extraRowsAreNeverWritten : Obligations.ExtraRowsAreNeverWritten := by
  intro i s t f a hd h ha
  rcases instr_kinds i with ⟨hbyte, -⟩ | ⟨hw, g, hg⟩ | ⟨g, x1, y1, x2, y2, rfl⟩ | ⟨g, hi⟩ | rfl
  · rw [(exec_onlyFramer hbyte h).fb_eq]
  · by_cases hfg : f = g
    · subst hfg
      exact (exec_draws_visible hw hd hg h).read_below le_rfl ha
    · rw [exec_fb_ne (.inl hw) hg h hfg]
  · rw [(execSetclip_next h).2, State.setClip_pixels]
  · rw [exec_activates hi h]; cases f <;> rfl
  · cases h; cases f <;> rfl

/-! ## The invariant -/

section Decode

/-- What the decoder of a record answers is an operation, never a received byte (R104, R105). -/
def DecodesToOperation (r : Except DecodeError (Instr × List Byte)) : Prop :=
  ∀ i rest, r = .ok (i, rest) → isOperation i = true

theorem decodesToOperation_ok {i : Instr} (hi : isOperation i = true) (rest : List Byte) :
    DecodesToOperation (.ok (i, rest)) := by
  intro j rest' h
  cases h
  exact hi

theorem decodesToOperation_error (e : DecodeError) : DecodesToOperation (.error e) := by
  intro i rest h
  cases h

theorem decodesToOperation_ite {p : Prop} [Decidable p]
    {a b : Except DecodeError (Instr × List Byte)} (ha : DecodesToOperation a)
    (hb : DecodesToOperation b) : DecodesToOperation (if p then a else b) := by
  split <;> assumption

theorem decodeCorners_operation {mk : U16 → U16 → U16 → U16 → Instr}
    (hmk : ∀ x1 y1 x2 y2, isOperation (mk x1 y1 x2 y2) = true) (bs : List Byte) :
    DecodesToOperation (decodeCorners mk bs) := by
  unfold decodeCorners
  split
  · exact decodesToOperation_ok (hmk _ _ _ _) _
  · exact decodesToOperation_error _

theorem decodeCornersColour_operation {mk : U16 → U16 → U16 → U16 → Byte → Instr}
    (hmk : ∀ x1 y1 x2 y2 c, isOperation (mk x1 y1 x2 y2 c) = true) (bs : List Byte) :
    DecodesToOperation (decodeCornersColour mk bs) := by
  unfold decodeCornersColour
  split
  · exact decodesToOperation_ok (hmk _ _ _ _ _) _
  · exact decodesToOperation_error _

theorem decodeSix_operation {mk : U16 → U16 → U16 → U16 → U16 → U16 → Instr}
    (hmk : ∀ a b c d e g, isOperation (mk a b c d e g) = true) (bs : List Byte) :
    DecodesToOperation (decodeSix mk bs) := by
  unfold decodeSix
  split
  · exact decodesToOperation_ok (hmk _ _ _ _ _ _) _
  · exact decodesToOperation_error _

theorem decodePixel_operation (f : Fb) (bs : List Byte) :
    DecodesToOperation (decodePixel f bs) := by
  unfold decodePixel
  split
  · exact decodesToOperation_ok rfl _
  · exact decodesToOperation_error _

theorem decodeText_operation (f : Fb) (bs : List Byte) :
    DecodesToOperation (decodeText f bs) := by
  unfold decodeText
  split
  · split
    · exact decodesToOperation_ok rfl _
    · exact decodesToOperation_error _
  · exact decodesToOperation_error _

theorem decodeImage_operation (f : Fb) (bs : List Byte) :
    DecodesToOperation (decodeImage f bs) := by
  unfold decodeImage
  split
  · split
    · exact decodesToOperation_ok rfl _
    · exact decodesToOperation_error _
  · exact decodesToOperation_error _

theorem decodeClear_operation (f : Fb) (bs : List Byte) :
    DecodesToOperation (decodeClear f bs) := by
  unfold decodeClear
  split
  · exact decodesToOperation_ok rfl _
  · exact decodesToOperation_error _

theorem decodeScroll_operation (f : Fb) (bs : List Byte) :
    DecodesToOperation (decodeScroll f bs) := by
  unfold decodeScroll
  split
  · exact decodesToOperation_ok rfl _
  · exact decodesToOperation_error _

/-- The opcode table of R105, one line per opcode in its order. -/
theorem decodeOperands_operation (opc : Byte) (f : Fb) (bs : List Byte) :
    DecodesToOperation (decodeOperands opc f bs) := by
  unfold decodeOperands
  refine decodesToOperation_ite (decodeCorners_operation (fun _ _ _ _ => rfl) bs) ?_
  refine decodesToOperation_ite (decodePixel_operation f bs) ?_
  refine decodesToOperation_ite (decodeCornersColour_operation (fun _ _ _ _ _ => rfl) bs) ?_
  refine decodesToOperation_ite (decodeCornersColour_operation (fun _ _ _ _ _ => rfl) bs) ?_
  refine decodesToOperation_ite (decodeClear_operation f bs) ?_
  refine decodesToOperation_ite (decodeSix_operation (fun _ _ _ _ _ _ => rfl) bs) ?_
  refine decodesToOperation_ite (decodeText_operation f bs) ?_
  refine decodesToOperation_ite (decodeImage_operation f bs) ?_
  refine decodesToOperation_ite (decodeScroll_operation f bs) ?_
  refine decodesToOperation_ite (decodesToOperation_ok rfl bs) ?_
  refine decodesToOperation_ite (decodeCornersColour_operation (fun _ _ _ _ _ => rfl) bs) ?_
  refine decodesToOperation_ite (decodeSix_operation (fun _ _ _ _ _ _ => rfl) bs) ?_
  exact decodesToOperation_ite (decodesToOperation_ok rfl bs) (decodesToOperation_error _)

theorem decodeOp_operation (bs : List Byte) : DecodesToOperation (decodeOp bs) := by
  cases bs with
  | nil => exact decodesToOperation_error _
  | cons opc bs =>
    simp only [decodeOp]
    refine decodesToOperation_ite (decodesToOperation_ok rfl bs)
      (decodesToOperation_ite ?_ (decodesToOperation_error _))
    split
    · exact decodesToOperation_error _
    · split
      · exact decodeOperands_operation _ _ _
      · exact decodesToOperation_error _

end Decode

section Step
variable {s t : State}

/-- Everything a step can do: wait, run the operation of the first record, or run the row of the
first byte (R77, R91). -/
theorem step_cases (h : step s = .next t) :
    t = s ∨ (∃ i rest, isOperation i = true ∧ exec i { s with ops := rest } = .next t) ∨
      ∃ b i rest, decodeByte s.cfg s.esc b = .ok i ∧ exec i { s with rx := rest } = .next t := by
  simp only [step, fetch] at h
  cases hops : s.ops with
  | cons o os =>
    simp only [hops] at h
    cases hd : decodeOp (o :: os) with
    | error e => rw [hd] at h; cases h
    | ok r =>
      rw [hd] at h
      exact .inr (.inl ⟨r.1, r.2, decodeOp_operation _ _ _ hd, h⟩)
  | nil =>
    cases hrx : s.rx with
    | nil => simp only [hops, hrx] at h; cases h; exact .inl rfl
    | cons b rest =>
      simp only [hops, hrx] at h
      cases hd : decodeByte s.cfg s.esc b with
      | error e => rw [hd] at h; cases h
      | ok i =>
        rw [hd] at h
        exact .inr (.inr ⟨b, i, rest, hd, h⟩)

/-- What leaves the other framebuffer and every other element as it was, and the written store
well-formed, keeps the invariant. -/
theorem inv_of_onlyPixelsAndFree {f : Fb} (h : OnlyPixelsAndFree f s t)
    (hstore : StoreOk (s.cfg.rows f) (t.fb f).pixels) (hs : s.Inv) : t.Inv := by
  obtain ⟨⟨hcw, hci, hcc⟩, ⟨hgw, hgi, hgc⟩, hlegal, hlen, hban, hbusy⟩ := hs
  obtain ⟨hw, hi⟩ := hstore
  rw [h]
  cases f with
  | con => exact ⟨⟨hw, hi, hcc⟩, ⟨hgw, hgi, hgc⟩, hlegal, hlen, hban, hbusy⟩
  | gfx => exact ⟨⟨hcw, hci, hcc⟩, ⟨hw, hi, hgc⟩, hlegal, hlen, hban, hbusy⟩

theorem State.Inv.storeOk (hs : s.Inv) (f : Fb) : StoreOk (s.cfg.rows f) (s.fb f).pixels := by
  obtain ⟨⟨hcw, hci, -⟩, ⟨hgw, hgi, -⟩, -⟩ := hs
  cases f with
  | con => exact ⟨hcw, hci⟩
  | gfx => exact ⟨hgw, hgi⟩

theorem State.Inv.blitBusy_eq (hs : s.Inv) : s.blitBusy = false := by
  obtain ⟨-, -, -, -, -, hbusy⟩ := hs
  exact hbusy

theorem Draws.inv {f : Fb} (h : Draws (s.cfg.rows f) f s t) (hs : s.Inv) : t.Inv := by
  exact inv_of_onlyPixelsAndFree (h.onlyPixelsAndFree hs.blitBusy_eq).1
    (h.store (screenHeight_le_rows _ _) (hs.storeOk f)) hs

theorem inv_setClip {f : Fb} {c1 c2 : Pos} (hc : clipLegal c1 c2 = true) (hs : s.Inv) :
    (s.setClip f c1 c2).Inv := by
  obtain ⟨⟨hcw, hci, hcc⟩, ⟨hgw, hgi, hgc⟩, rest⟩ := hs
  cases f with
  | con => exact ⟨⟨hcw, hci, hc⟩, ⟨hgw, hgi, hgc⟩, rest⟩
  | gfx => exact ⟨⟨hcw, hci, hcc⟩, ⟨hgw, hgi, hc⟩, rest⟩

/-- Every operation keeps the invariant, whatever the state it is issued in. -/
theorem exec_operation_inv {i : Instr} (hi : isOperation i = true) (h : exec i s = .next t)
    (hs : s.Inv) : t.Inv := by
  rcases instr_kinds i with ⟨hbyte, -⟩ | ⟨hw, f, hf⟩ | ⟨f, x1, y1, x2, y2, rfl⟩ | ⟨f, hact⟩ | rfl
  · rw [hbyte] at hi; cases hi
  · exact (exec_draws hw hf h).inv hs
  · obtain ⟨hc, rfl⟩ := execSetclip_next h
    exact inv_setClip hc hs
  · rw [exec_activates hact h]; exact hs
  · cases h; exact hs

/-- A FRAMER step keeps the invariant: it writes no framebuffer and keeps the escape state legal and
in step with the length byte (R138). -/
theorem FramerFrame.inv (h : FramerFrame s t) (hs : s.Inv) : t.Inv := by
  obtain ⟨hcon, hgfx, hlegal, hlen, hban, hbusy⟩ := hs
  have hlegal' := h.legal hlegal hban
  have hlen' := h.agrees hlen hlegal
  rw [h.only] at hlegal' hlen' ⊢
  exact ⟨hcon, hgfx, hlegal', hlen', hban, hbusy⟩

end Step

/-- Settles O52: what a step takes from its inputs is not part of the invariant, and each kind of
unit keeps it. -/
theorem stepKeepsTheInvariant : Obligations.StepKeepsTheInvariant := by
  intro s t hs h
  rcases step_cases h with rfl | ⟨i, rest, hi, hi'⟩ | ⟨b, i, rest, hd, hi⟩
  · exact hs
  · have hs' : State.Inv { s with ops := rest } := hs
    exact exec_operation_inv hi hi' hs'
  · have hs' : State.Inv { s with rx := rest } := hs
    exact (exec_decodeByte_frame (s := { s with rx := rest }) hd hi).inv hs'

end Sys2Proof.Machine

namespace Sys2Proof.Machine

open Sys2Proof

/-! # The inputs: what a step runs, and what it takes

A step is described by the unit at the front of its inputs (`step_of_record`, `step_of_byte` and the
clauses where there is none). What it takes then follows from two frames, the operation's and the
FRAMER's, which leave both inputs alone, and from the decoder, which answers a back part of the
record bytes. -/

/-! ## What a step runs -/

section Unit
variable {s : State}

/-- R77: with a record waiting, a step runs it, whatever bytes wait. -/
theorem step_of_record {i : Instr} {rest : List Byte} (hops : s.ops ≠ [])
    (hd : decodeOp s.ops = .ok (i, rest)) : step s = exec i { s with ops := rest } := by
  obtain ⟨o, os, heq⟩ := List.exists_cons_of_ne_nil hops
  rw [heq] at hd
  simp only [step, fetch, heq, hd]

theorem step_of_undefined_record {e : DecodeError} (hops : s.ops ≠ [])
    (hd : decodeOp s.ops = .error e) : step s = .refused (.undecodable e) := by
  obtain ⟨o, os, heq⟩ := List.exists_cons_of_ne_nil hops
  rw [heq] at hd
  simp only [step, fetch, heq, hd]

/-- R78, R91: with no record waiting, a step runs the row of the first byte. -/
theorem step_of_byte {i : Instr} {b : Byte} {rest : List Byte} (hops : s.ops = [])
    (hrx : s.rx = b :: rest) (hd : decodeByte s.cfg s.esc b = .ok i) :
    step s = exec i { s with rx := rest } := by
  simp only [step, fetch, hops, hrx, hd]

theorem step_of_undefined_byte {b : Byte} {rest : List Byte} {e : DecodeError} (hops : s.ops = [])
    (hrx : s.rx = b :: rest) (hd : decodeByte s.cfg s.esc b = .error e) :
    step s = .refused (.undecodable e) := by
  simp only [step, fetch, hops, hrx, hd]

theorem step_of_no_input (hops : s.ops = []) (hrx : s.rx = []) : step s = .next s := by
  simp only [step, fetch, hops, hrx]

end Unit

/-- Settles O5, clause by clause. -/
theorem stepRunsTheNextUnit : Obligations.StepRunsTheNextUnit :=
  ⟨fun _ _ _ hops hd => step_of_record hops hd,
    fun _ _ _ _ hops hrx hd => step_of_byte hops hrx hd,
    fun _ _ hops hd => step_of_undefined_record hops hd,
    fun _ _ _ _ hops hrx hd => step_of_undefined_byte hops hrx hd,
    fun _ hops hrx => step_of_no_input hops hrx⟩

/-! ## No drawing changes the parameters

The frames of `capFill` and `capCopy` under Laws/Backend speak of states with `BLIT_BUSY` 0; the
parameters stay in every state. -/

section Parameters
variable (s : State) (f : Fb)

@[simp] theorem patchColumn_cfg (x y1 y2 : Nat) (c : Byte) :
    (patchColumn s f x y1 y2 c).cfg = s.cfg := by
  simp [patchColumn]

@[simp] theorem bulkFill_cfg (x1 y1 x2 y2 : Nat) (c : Byte) :
    (bulkFill s f x1 y1 x2 y2 c).cfg = s.cfg := by
  simp [bulkFill]

theorem blitterFill_cfg (x1 y1 x2 y2 : Nat) (c : Byte) :
    (blitterFill s f x1 y1 x2 y2 c).cfg = s.cfg := by
  simp [blitterFill, apply_ite State.cfg]

theorem capFill_cfg (x1 y1 x2 y2 : Nat) (c : Byte) :
    (capFill s f x1 y1 x2 y2 c).cfg = s.cfg := by
  unfold capFill
  split
  · simp [softwareFill]
  · exact blitterFill_cfg s f x1 y1 x2 y2 c

@[simp] theorem copyResult_cfg (j : CopyJob) : (copyResult s f j).cfg = s.cfg := by
  simp [copyResult, apply_ite State.cfg]

theorem capCopy_cfg (j : CopyJob) : (capCopy s f j).cfg = s.cfg := by
  unfold capCopy
  split <;> simp

end Parameters

section Operation
variable {s t : State} {i : Instr}

theorem Draws.cfg_eq {rows : Nat} {f : Fb} (h : Draws rows f s t) : t.cfg = s.cfg := by
  rcases h with ⟨-, ps, rfl⟩ | ⟨x1, y1, x2, y2, c, -, -, -, -, rfl⟩ | ⟨j, -, -, rfl⟩
  · rw [plotAll_onlyPixels s f ps, State.setPixels_cfg]
  · exact capFill_cfg s f x1 y1 x2 y2 c
  · exact capCopy_cfg s f j

/-- What neither an operation nor a FRAMER row changes: the parameters (R36) and both inputs. -/
def SameInputs (s t : State) : Prop := t.cfg = s.cfg ∧ t.rx = s.rx ∧ t.ops = s.ops

theorem OnlyFramer.sameInputs (h : OnlyFramer s t) : SameInputs s t := by
  rw [h]
  exact ⟨rfl, rfl, rfl⟩

/-- R38: inputs and output are handed on by what draws on `FB[f]` or sets its clip. -/
theorem queues_of_drawsOrClips {f : Fb} (hi : DrawsOrClips i) (hf : framebufferOf i = some f)
    (h : exec i s = .next t) : t.rx = s.rx ∧ t.ops = s.ops ∧ t.events = s.events := by
  rw [← withUnseen_of_exec hi hf h]
  cases f <;> exact ⟨rfl, rfl, rfl⟩

/-- R38: an operation leaves the parameters, the inputs and the output as they were. -/
theorem exec_operation_frame (hop : isOperation i = true) (h : exec i s = .next t) :
    SameInputs s t ∧ t.events = s.events := by
  rcases instr_kinds i with ⟨hbyte, -⟩ | ⟨hw, f, hf⟩ | ⟨f, x1, y1, x2, y2, rfl⟩ | ⟨f, hact⟩ | rfl
  · rw [hbyte] at hop; cases hop
  · obtain ⟨hrx, hops, hev⟩ := queues_of_drawsOrClips (.inl hw) hf h
    exact ⟨⟨(exec_draws hw hf h).cfg_eq, hrx, hops⟩, hev⟩
  · obtain ⟨-, rfl⟩ := execSetclip_next h
    simp [SameInputs]
  · rw [exec_activates hact h]; exact ⟨⟨rfl, rfl, rfl⟩, rfl⟩
  · cases h; exact ⟨⟨rfl, rfl, rfl⟩, rfl⟩

end Operation

/-! ## The decoder takes from the front of the records -/

section Records

/-- What is left of the bytes `bs` by an answer of the decoder is a back part of them (R104). -/
def LeavesSuffix (bs : List Byte) (r : Except DecodeError (Instr × List Byte)) : Prop :=
  ∀ i rest, r = .ok (i, rest) → rest <:+ bs

theorem leavesSuffix_ok {bs rest : List Byte} (i : Instr) (h : rest <:+ bs) :
    LeavesSuffix bs (.ok (i, rest)) := by
  intro j rest' heq
  cases heq
  exact h

theorem leavesSuffix_error (bs : List Byte) (e : DecodeError) : LeavesSuffix bs (.error e) := by
  intro i rest h
  cases h

theorem leavesSuffix_ite {bs : List Byte} {p : Prop} [Decidable p]
    {a b : Except DecodeError (Instr × List Byte)} (ha : LeavesSuffix bs a)
    (hb : LeavesSuffix bs b) : LeavesSuffix bs (if p then a else b) := by
  split <;> assumption

theorem decodeCorners_suffix (mk : U16 → U16 → U16 → U16 → Instr) (bs : List Byte) :
    LeavesSuffix bs (decodeCorners mk bs) := by
  unfold decodeCorners
  split
  · exact leavesSuffix_ok _ (List.suffix_append [_, _, _, _, _, _, _, _] _)
  · exact leavesSuffix_error _ _

theorem decodeCornersColour_suffix (mk : U16 → U16 → U16 → U16 → Byte → Instr) (bs : List Byte) :
    LeavesSuffix bs (decodeCornersColour mk bs) := by
  unfold decodeCornersColour
  split
  · exact leavesSuffix_ok _ (List.suffix_append [_, _, _, _, _, _, _, _, _] _)
  · exact leavesSuffix_error _ _

theorem decodeSix_suffix (mk : U16 → U16 → U16 → U16 → U16 → U16 → Instr) (bs : List Byte) :
    LeavesSuffix bs (decodeSix mk bs) := by
  unfold decodeSix
  split
  · exact leavesSuffix_ok _ (List.suffix_append [_, _, _, _, _, _, _, _, _, _, _, _] _)
  · exact leavesSuffix_error _ _

theorem decodePixel_suffix (f : Fb) (bs : List Byte) : LeavesSuffix bs (decodePixel f bs) := by
  unfold decodePixel
  split
  · exact leavesSuffix_ok _ (List.suffix_append [_, _, _, _, _] _)
  · exact leavesSuffix_error _ _

theorem decodeClear_suffix (f : Fb) (bs : List Byte) : LeavesSuffix bs (decodeClear f bs) := by
  unfold decodeClear
  split
  · exact leavesSuffix_ok _ (List.suffix_cons _ _)
  · exact leavesSuffix_error _ _

theorem decodeScroll_suffix (f : Fb) (bs : List Byte) : LeavesSuffix bs (decodeScroll f bs) := by
  unfold decodeScroll
  split
  · exact leavesSuffix_ok _ (List.suffix_append [_, _] _)
  · exact leavesSuffix_error _ _

theorem splitBytes_suffix {n : Nat} {bs front back : List Byte}
    (h : splitBytes n bs = some (front, back)) : back <:+ bs := by
  rw [(splitBytes_eq_some h).2]
  exact List.suffix_append front back

/-- The fixed operands of `TEXT`, then its `n` codes (R105). -/
theorem decodeText_suffix (f : Fb) (bs : List Byte) : LeavesSuffix bs (decodeText f bs) := by
  unfold decodeText
  split
  · split
    · exact leavesSuffix_ok _ ((splitBytes_suffix ‹_›).trans
        (List.suffix_append [_, _, _, _, _, _, _, _, _, _, _] _))
    · exact leavesSuffix_error _ _
  · exact leavesSuffix_error _ _

/-- The fixed operands of `IMAGE`, then its picture (R105). -/
theorem decodeImage_suffix (f : Fb) (bs : List Byte) : LeavesSuffix bs (decodeImage f bs) := by
  unfold decodeImage
  split
  · split
    · exact leavesSuffix_ok _ ((splitBytes_suffix ‹_›).trans
        (List.suffix_append [_, _, _, _, _, _, _, _, _, _, _, _] _))
    · exact leavesSuffix_error _ _
  · exact leavesSuffix_error _ _

/-- The opcode table of R105, one line per opcode in its order. -/
theorem decodeOperands_suffix (opc : Byte) (f : Fb) (bs : List Byte) :
    LeavesSuffix bs (decodeOperands opc f bs) := by
  unfold decodeOperands
  refine leavesSuffix_ite (decodeCorners_suffix _ bs) ?_
  refine leavesSuffix_ite (decodePixel_suffix f bs) ?_
  refine leavesSuffix_ite (decodeCornersColour_suffix _ bs) ?_
  refine leavesSuffix_ite (decodeCornersColour_suffix _ bs) ?_
  refine leavesSuffix_ite (decodeClear_suffix f bs) ?_
  refine leavesSuffix_ite (decodeSix_suffix _ bs) ?_
  refine leavesSuffix_ite (decodeText_suffix f bs) ?_
  refine leavesSuffix_ite (decodeImage_suffix f bs) ?_
  refine leavesSuffix_ite (decodeScroll_suffix f bs) ?_
  refine leavesSuffix_ite (leavesSuffix_ok _ bs.suffix_refl) ?_
  refine leavesSuffix_ite (decodeCornersColour_suffix _ bs) ?_
  refine leavesSuffix_ite (decodeSix_suffix _ bs) ?_
  exact leavesSuffix_ite (leavesSuffix_ok _ bs.suffix_refl) (leavesSuffix_error bs _)

/-- A record is at least its opcode byte: what follows it lies behind that byte (R104). -/
theorem decodeOp_suffix (opc : Byte) (bs : List Byte) :
    LeavesSuffix bs (decodeOp (opc :: bs)) := by
  simp only [decodeOp]
  refine leavesSuffix_ite (leavesSuffix_ok _ bs.suffix_refl)
    (leavesSuffix_ite ?_ (leavesSuffix_error bs _))
  split
  · exact leavesSuffix_error _ _
  · rename_i fb operands
    split
    · intro i rest h
      exact (decodeOperands_suffix opc _ operands i rest h).trans (List.suffix_cons fb operands)
    · exact leavesSuffix_error _ _

/-- A decoded record is a non-empty front part of the record bytes. -/
theorem decodeOp_takes_front {bs rest : List Byte} {i : Instr}
    (h : decodeOp bs = .ok (i, rest)) : ∃ u, u ≠ [] ∧ bs = u ++ rest := by
  cases bs with
  | nil => cases h
  | cons opc bs =>
    obtain ⟨v, rfl⟩ := decodeOp_suffix opc bs i rest h
    exact ⟨opc :: v, List.cons_ne_nil opc v, rfl⟩

end Records

/-! ## What a step takes -/

section Taken
variable {s t : State}

/-- R77: with a record waiting, a step that answers ran an operation and took its record. -/
theorem step_takes_record (hops : s.ops ≠ []) (h : step s = .next t) :
    t.cfg = s.cfg ∧ t.events = s.events ∧ t.rx = s.rx ∧ ∃ u, u ≠ [] ∧ s.ops = u ++ t.ops := by
  cases hd : decodeOp s.ops with
  | error e => rw [step_of_undefined_record hops hd] at h; cases h
  | ok r =>
    obtain ⟨i, rest⟩ := r
    rw [step_of_record hops hd] at h
    obtain ⟨⟨hcfg, hrx, htops⟩, hev⟩ := exec_operation_frame (decodeOp_operation _ _ _ hd) h
    rw [htops]
    exact ⟨hcfg, hev, hrx, decodeOp_takes_front hd⟩

/-- R78: with no record waiting, a step that answers took the first byte, if there is one. -/
theorem step_takes_byte (hops : s.ops = []) (h : step s = .next t) :
    t.cfg = s.cfg ∧ s.events <+: t.events ∧ t.rx = s.rx.drop 1 ∧ t.ops = [] := by
  cases hrx : s.rx with
  | nil =>
    rw [step_of_no_input hops hrx] at h
    cases h
    exact ⟨rfl, List.prefix_rfl, hrx, hops⟩
  | cons b rest =>
    cases hd : decodeByte s.cfg s.esc b with
    | error e => rw [step_of_undefined_byte hops hrx hd] at h; cases h
    | ok i =>
      rw [step_of_byte hops hrx hd] at h
      have hframe : FramerFrame { s with rx := rest } t := exec_decodeByte_frame hd h
      obtain ⟨hcfg, htrx, htops⟩ := hframe.only.sameInputs
      exact ⟨hcfg, hframe.grows, htrx, htops.trans hops⟩

end Taken

/-- Settles O7: the two inputs, records first. -/
theorem inputsAreTakenInOrder : Obligations.InputsAreTakenInOrder := by
  intro s t h
  by_cases hops : s.ops = []
  · obtain ⟨hcfg, hev, hrx, htops⟩ := step_takes_byte hops h
    exact ⟨hcfg, hev, fun hne => absurd hops hne, fun _ => ⟨htops, hrx⟩⟩
  · obtain ⟨hcfg, hev, hrx, htaken⟩ := step_takes_record hops h
    exact ⟨hcfg, hev ▸ List.prefix_rfl, fun _ => ⟨hrx, htaken⟩, fun he => absurd he hops⟩

end Sys2Proof.Machine

namespace Sys2Proof.Machine

open Sys2Proof

/-! # The encoding: records, received bytes, the packed position, a CSI sequence on the wire

Each reader of the decoder is described by one equivalence, which says both that it reads the bytes
the encoder writes and that it reads nothing else: `decodeOp_eq_ok_iff` for a record and
`decodeByte_eq_ok_iff` for a received byte. A CSI sequence is then run byte by byte, each step by the
row that `decodeByte_eq_ok_iff` names. -/

/-! ## The operands of a record -/

section Operands
variable {f : Fb} {bs rest : List Byte} {i : Instr}

theorem decodeCorners_eq_ok_iff {mk : U16 → U16 → U16 → U16 → Instr} :
    decodeCorners mk bs = .ok (i, rest) ↔ ∃ x1 y1 x2 y2, i = mk x1 y1 x2 y2 ∧
      bs = bytesOfU16 x1 ++ bytesOfU16 y1 ++ bytesOfU16 x2 ++ bytesOfU16 y2 ++ rest := by
  constructor
  · intro h
    unfold decodeCorners at h
    split at h <;> cases h
    exact ⟨_, _, _, _, rfl, by simp⟩
  · rintro ⟨x1, y1, x2, y2, rfl, rfl⟩
    simp [decodeCorners, bytesOfU16]

theorem decodeCornersColour_eq_ok_iff {mk : U16 → U16 → U16 → U16 → Byte → Instr} :
    decodeCornersColour mk bs = .ok (i, rest) ↔ ∃ x1 y1 x2 y2 c, i = mk x1 y1 x2 y2 c ∧
      bs = bytesOfU16 x1 ++ bytesOfU16 y1 ++ bytesOfU16 x2 ++ bytesOfU16 y2 ++ [c] ++ rest := by
  constructor
  · intro h
    unfold decodeCornersColour at h
    split at h <;> cases h
    exact ⟨_, _, _, _, _, rfl, by simp⟩
  · rintro ⟨x1, y1, x2, y2, c, rfl, rfl⟩
    simp [decodeCornersColour, bytesOfU16]

theorem decodeSix_eq_ok_iff {mk : U16 → U16 → U16 → U16 → U16 → U16 → Instr} :
    decodeSix mk bs = .ok (i, rest) ↔ ∃ a b c d e g, i = mk a b c d e g ∧
      bs = bytesOfU16 a ++ bytesOfU16 b ++ bytesOfU16 c ++ bytesOfU16 d ++ bytesOfU16 e ++
        bytesOfU16 g ++ rest := by
  constructor
  · intro h
    unfold decodeSix at h
    split at h <;> cases h
    exact ⟨_, _, _, _, _, _, rfl, by simp⟩
  · rintro ⟨a, b, c, d, e, g, rfl, rfl⟩
    simp [decodeSix, bytesOfU16]

theorem decodePixel_eq_ok_iff : decodePixel f bs = .ok (i, rest) ↔
    ∃ x y c, i = .setpixel f x y c ∧ bs = bytesOfU16 x ++ bytesOfU16 y ++ [c] ++ rest := by
  constructor
  · intro h
    unfold decodePixel at h
    split at h <;> cases h
    exact ⟨_, _, _, rfl, by simp⟩
  · rintro ⟨x, y, c, rfl, rfl⟩
    simp [decodePixel, bytesOfU16]

theorem decodeClear_eq_ok_iff :
    decodeClear f bs = .ok (i, rest) ↔ ∃ c, i = .clear f c ∧ bs = c :: rest := by
  constructor
  · intro h
    unfold decodeClear at h
    split at h <;> cases h
    exact ⟨_, rfl, rfl⟩
  · rintro ⟨c, rfl, rfl⟩
    rfl

theorem decodeScroll_eq_ok_iff :
    decodeScroll f bs = .ok (i, rest) ↔ ∃ h, i = .scrollup f h ∧ bs = bytesOfU16 h ++ rest := by
  constructor
  · intro h
    unfold decodeScroll at h
    split at h <;> cases h
    exact ⟨_, rfl, by simp⟩
  · rintro ⟨h, rfl, rfl⟩
    simp [decodeScroll, bytesOfU16]

/-- The operand `n` of `TEXT` is the number of codes, which fits its 16 bits (R105). -/
theorem decodeText_eq_ok_iff : decodeText f bs = .ok (i, rest) ↔
    ∃ x y k pal codes, codes.length ≤ maxCoord ∧ i = .text f x y k pal codes ∧
      bs = bytesOfU16 x ++ bytesOfU16 y ++ [k] ++ bytesOfPalette pal ++
        bytesOfU16 (BitVec.ofNat 16 codes.length) ++ codes ++ rest := by
  constructor
  · intro h
    unfold decodeText at h
    split at h
    · rename_i n0 n1 tail
      split at h <;> cases h
      rename_i codes hsplit
      obtain ⟨hlen, rfl⟩ := splitBytes_eq_some hsplit
      have hfits : codes.length ≤ maxCoord := by
        have := (u16OfBytes n0 n1).isLt
        simp only [maxCoord]
        omega
      exact ⟨_, _, _, _, codes, hfits, rfl, by simp [hlen, bytesOfPalette]⟩
    · cases h
  · rintro ⟨x, y, k, pal, codes, hfits, rfl, rfl⟩
    have hlen : (BitVec.ofNat 16 codes.length).toNat = codes.length :=
      Nat.mod_eq_of_lt (by simp only [maxCoord] at hfits; omega)
    simp [decodeText, bytesOfU16, bytesOfPalette, hlen, splitBytes_append]

/-- The picture of `IMAGE` has the length that its operands `w` and `h` give it (R105, R217). -/
theorem decodeImage_eq_ok_iff : decodeImage f bs = .ok (i, rest) ↔
    ∃ x y w h pal data, data.length = pictureBytes w.toNat h.toNat ∧
      i = .image f x y w h pal data ∧
      bs = bytesOfU16 x ++ bytesOfU16 y ++ bytesOfU16 w ++ bytesOfU16 h ++ bytesOfPalette pal ++
        data ++ rest := by
  constructor
  · intro h
    unfold decodeImage at h
    split at h
    · split at h <;> cases h
      rename_i data hsplit
      obtain ⟨hlen, rfl⟩ := splitBytes_eq_some hsplit
      exact ⟨_, _, _, _, _, data, hlen, rfl, by simp [bytesOfPalette]⟩
    · cases h
  · rintro ⟨x, y, w, h, pal, data, hlen, rfl, rfl⟩
    simp [decodeImage, bytesOfU16, bytesOfPalette, ← hlen, splitBytes_append]

end Operands

/-! ## A whole record -/

section Record
variable {opc fb : Byte} {f : Fb} {bs rest : List Byte} {i : Instr}

theorem isFramebufferOpcode_ne_lutgen (h : isFramebufferOpcode opc = true) : opc ≠ 0x20 := by
  rintro rfl
  cases h

/-- R104: after a framebuffer operation's opcode stands the `f` byte, then the operands. -/
theorem decodeOp_framebuffer (h : isFramebufferOpcode opc = true) :
    decodeOp (opc :: byteOfFb f :: bs) = decodeOperands opc f bs := by
  simp only [decodeOp, if_neg (isFramebufferOpcode_ne_lutgen h), if_pos h, fbOfByte_byteOfFb]

/-- The encoder's table is read back by the decoder's, operation by operation (R105). -/
theorem decodeOp_encode (hwf : wellFormed i = true) (hop : isOperation i = true) :
    decodeOp (encode i ++ rest) = .ok (i, rest) := by
  cases i with
  | setclip f x1 y1 x2 y2 =>
    exact (decodeOp_framebuffer rfl).trans (decodeCorners_eq_ok_iff.2 ⟨x1, y1, x2, y2, rfl, rfl⟩)
  | setpixel f x y c =>
    exact (decodeOp_framebuffer rfl).trans (decodePixel_eq_ok_iff.2 ⟨x, y, c, rfl, rfl⟩)
  | line f x1 y1 x2 y2 c | rect f x1 y1 x2 y2 c | hfill f x1 y1 x2 y2 c =>
    exact (decodeOp_framebuffer rfl).trans
      (decodeCornersColour_eq_ok_iff.2 ⟨x1, y1, x2, y2, c, rfl, rfl⟩)
  | clear f c => exact decodeOp_framebuffer rfl
  | copyrect f a b c d e g | hcopy f a b c d e g =>
    exact (decodeOp_framebuffer rfl).trans (decodeSix_eq_ok_iff.2 ⟨a, b, c, d, e, g, rfl, rfl⟩)
  | text f x y k pal codes =>
    exact (decodeOp_framebuffer rfl).trans
      (decodeText_eq_ok_iff.2 ⟨x, y, k, pal, codes, of_decide_eq_true hwf, rfl, rfl⟩)
  | image f x y w h pal data =>
    exact (decodeOp_framebuffer rfl).trans
      (decodeImage_eq_ok_iff.2 ⟨x, y, w, h, pal, data, eq_of_beq hwf, rfl, rfl⟩)
  | scrollup f h =>
    exact (decodeOp_framebuffer rfl).trans (decodeScroll_eq_ok_iff.2 ⟨h, rfl, rfl⟩)
  | activate f | hact f => exact decodeOp_framebuffer rfl
  | lutgen => rfl
  | _ => cases hop

/-- What a reader answers for the operands `bs` after this opcode and framebuffer is well-formed, and
its record is the bytes read (R104). -/
def ReadsItsRecord (opc : Byte) (f : Fb) (bs : List Byte)
    (r : Except DecodeError (Instr × List Byte)) : Prop :=
  ∀ i rest, r = .ok (i, rest) →
    wellFormed i = true ∧ opc :: byteOfFb f :: bs = encode i ++ rest

theorem readsItsRecord_ite {o : Byte} {a b : Except DecodeError (Instr × List Byte)}
    (ha : ReadsItsRecord o f bs a) (hb : ReadsItsRecord opc f bs b) :
    ReadsItsRecord opc f bs (if opc = o then a else b) := by
  split
  · rename_i heq
    exact heq ▸ ha
  · exact hb

theorem decodeCornersColour_readsItsRecord {mk : U16 → U16 → U16 → U16 → Byte → Instr}
    (hmk : ∀ x1 y1 x2 y2 c, wellFormed (mk x1 y1 x2 y2 c) = true ∧
      encode (mk x1 y1 x2 y2 c) = [opc, byteOfFb f] ++ bytesOfU16 x1 ++ bytesOfU16 y1 ++
        bytesOfU16 x2 ++ bytesOfU16 y2 ++ [c]) :
    ReadsItsRecord opc f bs (decodeCornersColour mk bs) := by
  intro i rest h
  obtain ⟨x1, y1, x2, y2, c, rfl, rfl⟩ := decodeCornersColour_eq_ok_iff.1 h
  obtain ⟨hwf, henc⟩ := hmk x1 y1 x2 y2 c
  exact ⟨hwf, by rw [henc]; rfl⟩

theorem decodeSix_readsItsRecord {mk : U16 → U16 → U16 → U16 → U16 → U16 → Instr}
    (hmk : ∀ a b c d e g, wellFormed (mk a b c d e g) = true ∧
      encode (mk a b c d e g) = [opc, byteOfFb f] ++ bytesOfU16 a ++ bytesOfU16 b ++
        bytesOfU16 c ++ bytesOfU16 d ++ bytesOfU16 e ++ bytesOfU16 g) :
    ReadsItsRecord opc f bs (decodeSix mk bs) := by
  intro i rest h
  obtain ⟨a, b, c, d, e, g, rfl, rfl⟩ := decodeSix_eq_ok_iff.1 h
  obtain ⟨hwf, henc⟩ := hmk a b c d e g
  exact ⟨hwf, by rw [henc]; rfl⟩

/-- The opcode table of R105, one line per opcode in its order. -/
theorem decodeOperands_readsItsRecord (opc : Byte) (f : Fb) (bs : List Byte) :
    ReadsItsRecord opc f bs (decodeOperands opc f bs) := by
  unfold decodeOperands
  refine readsItsRecord_ite ?setclip <|
    readsItsRecord_ite ?setpixel <|
    readsItsRecord_ite ?line <|
    readsItsRecord_ite ?rect <|
    readsItsRecord_ite ?clear <|
    readsItsRecord_ite ?copyrect <|
    readsItsRecord_ite ?text <|
    readsItsRecord_ite ?image <|
    readsItsRecord_ite ?scrollup <|
    readsItsRecord_ite ?activate <|
    readsItsRecord_ite ?hfill <|
    readsItsRecord_ite ?hcopy <|
    readsItsRecord_ite ?hact ?undefined
  case setclip =>
    intro i rest h
    obtain ⟨x1, y1, x2, y2, rfl, rfl⟩ := decodeCorners_eq_ok_iff.1 h
    exact ⟨rfl, rfl⟩
  case setpixel =>
    intro i rest h
    obtain ⟨x, y, c, rfl, rfl⟩ := decodePixel_eq_ok_iff.1 h
    exact ⟨rfl, rfl⟩
  case clear =>
    intro i rest h
    obtain ⟨c, rfl, rfl⟩ := decodeClear_eq_ok_iff.1 h
    exact ⟨rfl, rfl⟩
  case text =>
    intro i rest h
    obtain ⟨x, y, k, pal, codes, hfits, rfl, rfl⟩ := decodeText_eq_ok_iff.1 h
    exact ⟨decide_eq_true hfits, rfl⟩
  case image =>
    intro i rest h
    obtain ⟨x, y, w, ht, pal, data, hlen, rfl, rfl⟩ := decodeImage_eq_ok_iff.1 h
    exact ⟨beq_iff_eq.2 hlen, rfl⟩
  case scrollup =>
    intro i rest h
    obtain ⟨rows, rfl, rfl⟩ := decodeScroll_eq_ok_iff.1 h
    exact ⟨rfl, rfl⟩
  case line | rect | hfill => exact decodeCornersColour_readsItsRecord fun _ _ _ _ _ => ⟨rfl, rfl⟩
  case copyrect | hcopy => exact decodeSix_readsItsRecord fun _ _ _ _ _ _ => ⟨rfl, rfl⟩
  case activate | hact => intro i rest h; cases h; exact ⟨rfl, rfl⟩
  case undefined => intro i rest h; cases h

theorem encode_of_decodeOp (h : decodeOp bs = .ok (i, rest)) :
    wellFormed i = true ∧ bs = encode i ++ rest := by
  cases bs with
  | nil => cases h
  | cons opc bs =>
    simp only [decodeOp] at h
    split_ifs at h with hlut hfb
    · cases h
      exact ⟨rfl, congrArg (· :: rest) hlut⟩
    · split at h
      · cases h
      · split at h
        · rename_i hf
          rw [← byteOfFb_of_fbOfByte hf]
          exact decodeOperands_readsItsRecord opc _ _ i rest h
        · cases h

/-- R104, R105: the bytes that begin with an operation's record are those that decode to it. -/
theorem decodeOp_eq_ok_iff : decodeOp bs = .ok (i, rest) ↔
    wellFormed i = true ∧ isOperation i = true ∧ bs = encode i ++ rest := by
  constructor
  · intro h
    obtain ⟨hwf, hbs⟩ := encode_of_decodeOp h
    exact ⟨hwf, decodeOp_operation bs i rest h, hbs⟩
  · rintro ⟨hwf, hop, rfl⟩
    exact decodeOp_encode hwf hop

theorem isFramebufferOpcode_iff : isFramebufferOpcode opc = true ↔
    opc ∈ ([0x00, 0x01, 0x02, 0x03, 0x04, 0x05, 0x06, 0x07, 0x08, 0x09, 0x10, 0x11,
      0x12] : List Byte) := by
  simp only [isFramebufferOpcode, Bool.or_eq_true, decide_eq_true_eq, List.mem_cons,
    List.not_mem_nil, or_false, ← BitVec.toNat_inj, BitVec.reduceToNat]
  omega

theorem decodeOp_undefinedOpcode (hlut : opc ≠ 0x20) (hfb : ¬ isFramebufferOpcode opc = true) :
    decodeOp (opc :: bs) = .error .undefinedOpcode := by
  simp only [decodeOp, if_neg hlut, if_neg hfb]

theorem decodeOp_undefinedFramebuffer (hopc : isFramebufferOpcode opc = true) (h0 : fb ≠ 0)
    (h1 : fb ≠ 1) : decodeOp (opc :: fb :: bs) = .error .undefinedFramebuffer := by
  simp only [decodeOp, if_neg (isFramebufferOpcode_ne_lutgen hopc), if_pos hopc, fbOfByte,
    if_neg h0, if_neg h1]

end Record

/-- Settles O1, by the table of the encoder. -/
theorem operationRecordsRoundTrip : Obligations.OperationRecordsRoundTrip :=
  fun _ _ hwf hop => decodeOp_encode hwf hop

/-- Settles O2, by the table of the decoder. -/
theorem operationRecordsHaveOneReading : Obligations.OperationRecordsHaveOneReading :=
  fun _ _ _ h => decodeOp_eq_ok_iff.1 h

/-- Settles O6: the opcode is looked at first, then the framebuffer byte. -/
theorem undefinedRecordsRefused : Obligations.UndefinedRecordsRefused := by
  constructor
  · intro s opc bs hops hopc
    have hlut : opc ≠ 0x20 := by rintro rfl; exact hopc (by decide)
    have hfb : ¬ isFramebufferOpcode opc = true := fun h =>
      hopc (List.mem_append_left [0x20] (isFramebufferOpcode_iff.1 h))
    exact step_of_undefined_record (by simp [hops]) (hops ▸ decodeOp_undefinedOpcode hlut hfb)
  · intro s opc fb bs hops hopc h0 h1
    exact step_of_undefined_record (by simp [hops])
      (hops ▸ decodeOp_undefinedFramebuffer (isFramebufferOpcode_iff.2 hopc) h0 h1)

/-! ## A received byte -/

section ReceivedByte
variable {cfg : Config} {esc : EscState} {b : Byte} {i : Instr} {c : ByteClass}

theorem wellFormed_escOther_iff :
    wellFormed (.escOther b) = true ↔ b ≠ 0x1B ∧ b ≠ 0x5B ∧ b ≠ 0x4D := by
  simp only [wellFormed, Bool.and_eq_true, bne_iff_ne, and_assoc]

theorem wellFormed_csiFinal_iff :
    wellFormed (.csiFinal b) = true ↔ isParamByte b = false ∧ b ≠ 0x4A := by
  simp only [wellFormed, Bool.and_eq_true, Bool.not_eq_true', bne_iff_ne]

theorem isOperation_instr (b : Byte) (c : ByteClass) : isOperation (c.instr b) = false := by
  cases c <;> rfl

/-- The class of a byte names a row of R91 that stands in the escape state and holds the byte. -/
theorem row_of_classify (h : classify cfg esc b = .ok c) :
    wellFormed (c.instr b) = true ∧ encode (c.instr b) = [b] ∧ rowStands cfg esc (c.instr b) := by
  cases esc with
  | idle =>
    simp only [classify] at h
    split at h <;> cases h
    · exact ⟨rfl, by rw [‹b = 0x1B›]; rfl, rfl⟩
    · exact ⟨bne_iff_ne.2 ‹_›, rfl, rfl⟩
  | sawEscape =>
    simp only [classify] at h
    split_ifs at h with h1 h2 h3 <;> cases h
    · exact ⟨rfl, by rw [h1]; rfl, rfl⟩
    · exact ⟨rfl, by rw [h2]; rfl, rfl⟩
    · exact ⟨rfl, by rw [h3]; rfl, rfl⟩
    · exact ⟨wellFormed_escOther_iff.2 ⟨h1, h2, h3⟩, rfl, rfl⟩
  | csi pos =>
    simp only [classify] at h
    split_ifs at h with hpos hparam hJ <;> cases h
    · exact ⟨hparam, rfl, pos, rfl, hpos⟩
    · exact ⟨rfl, by rw [hJ]; rfl, pos, rfl, hpos⟩
    · exact ⟨wellFormed_csiFinal_iff.2 ⟨Bool.not_eq_true _ ▸ hparam, hJ⟩, rfl, pos, rfl, hpos⟩
  | binaryFrame pos total =>
    simp only [classify] at h
    split_ifs at h with hstart hb hdata <;> cases h
    · obtain ⟨rfl, rfl⟩ := hstart
      exact ⟨rfl, by rw [hb]; rfl, rfl⟩
    · obtain ⟨rfl, rfl⟩ := hstart
      exact ⟨bne_iff_ne.2 hb, rfl, rfl⟩
    · exact ⟨rfl, rfl, pos, total, rfl, hdata⟩
  | watching k =>
    simp only [classify] at h
    split at h
    · rename_i x hx
      split_ifs at h with hb <;> cases h
      · exact ⟨rfl, rfl, k, rfl, hb ▸ hx⟩
      · exact ⟨rfl, rfl, k, x, rfl, hx, hb⟩
    · split_ifs at h

/-- A row of R91 that stands in the escape state and holds the byte is the one decoded to. -/
theorem decodeByte_of_row (hop : isOperation i = false) (hwf : wellFormed i = true)
    (henc : encode i = [b]) (hrow : rowStands cfg esc i) : decodeByte cfg esc b = .ok i := by
  cases i with
  | idleEsc =>
    obtain rfl : esc = .idle := hrow
    cases henc; rfl
  | idleChar b' =>
    obtain rfl : esc = .idle := hrow
    cases henc
    have hb : b ≠ 0x1B := bne_iff_ne.1 hwf
    simp only [decodeByte, classify, if_neg hb, ByteClass.instr]
  | escEsc | escCsi | escRi =>
    obtain rfl : esc = .sawEscape := hrow
    cases henc; rfl
  | escOther b' =>
    obtain rfl : esc = .sawEscape := hrow
    cases henc
    obtain ⟨h1, h2, h3⟩ := wellFormed_escOther_iff.1 hwf
    simp only [decodeByte, classify, if_neg h1, if_neg h2, if_neg h3, ByteClass.instr]
  | csiParam b' =>
    obtain ⟨pos, rfl, hpos⟩ := hrow
    cases henc
    have hparam : isParamByte b = true := hwf
    simp only [decodeByte, classify, if_pos hpos, if_pos hparam, ByteClass.instr]
  | csiFinal b' =>
    obtain ⟨pos, rfl, hpos⟩ := hrow
    cases henc
    obtain ⟨hparam, hJ⟩ := wellFormed_csiFinal_iff.1 hwf
    simp only [decodeByte, classify, if_pos hpos, hparam, if_neg hJ, ByteClass.instr,
      Bool.false_eq_true, if_false]
  | csiFinalJ =>
    obtain ⟨pos, rfl, hpos⟩ := hrow
    cases henc
    simp only [decodeByte, classify, if_pos hpos]; rfl
  | binLen0 =>
    obtain rfl : esc = .binaryFrame 0 0 := hrow
    cases henc; rfl
  | binLen n =>
    obtain rfl : esc = .binaryFrame 0 0 := hrow
    cases henc
    have hb : b ≠ 0x00 := bne_iff_ne.1 hwf
    simp only [decodeByte, classify, if_neg hb, ByteClass.instr, and_self, if_true]
  | binData b' =>
    obtain ⟨pos, total, rfl, hdata⟩ := hrow
    cases henc
    have hstart : ¬ (pos = 0 ∧ total = 0) := by omega
    simp only [decodeByte, classify, if_neg hstart, if_pos hdata, ByteClass.instr]
  | wbbMatch b' =>
    obtain ⟨k, rfl, hk⟩ := hrow
    cases henc
    simp only [decodeByte, classify, hk, if_true, ByteClass.instr]
  | wbbMiss b' =>
    obtain ⟨k, x, rfl, hk, hb⟩ := hrow
    cases henc
    simp only [decodeByte, classify, hk, if_neg hb, ByteClass.instr]
  | _ => cases hop

/-- R91: in every escape state a byte has the reading of the row that holds it, and no other. -/
theorem decodeByte_eq_ok_iff : decodeByte cfg esc b = .ok i ↔
    isOperation i = false ∧ wellFormed i = true ∧ encode i = [b] ∧ rowStands cfg esc i := by
  constructor
  · intro h
    simp only [decodeByte] at h
    split at h <;> cases h
    exact ⟨isOperation_instr b _, row_of_classify ‹_›⟩
  · rintro ⟨hop, hwf, henc, hrow⟩
    exact decodeByte_of_row hop hwf henc hrow

end ReceivedByte

/-- Settles O3, row by row of R91. -/
theorem receivedBytesHaveOneReading : Obligations.ReceivedBytesHaveOneReading :=
  fun _ _ _ _ => decodeByte_eq_ok_iff

/-- Settles O4: the decoder evaluates each word. -/
theorem writtenOutWordsDecode : Obligations.WrittenOutWordsDecode :=
  ⟨rfl, rfl, rfl, rfl, rfl, rfl, rfl, rfl⟩

/-! ## The packed position

In numbers: the first byte is twice the row, plus the ninth bit of the column; the second byte holds
the other eight bits (R100). -/

section PackedPosition
variable {p : Pos}

theorem posFromBytes_x (b0 b1 : Byte) :
    (posFromBytes b0 b1).x.toNat = b0.toNat % 2 * 256 + b1.toNat := by
  have h0 := b0.isLt
  have h1 := b1.isLt
  simp only [posFromBytes, BitVec.toNat_or, BitVec.toNat_shiftLeft, BitVec.toNat_setWidth,
    BitVec.toNat_and, BitVec.reduceToNat, Nat.and_one_is_mod]
  rw [Nat.mod_eq_of_lt (a := b1.toNat) (by omega), Nat.mod_eq_of_lt (a := b0.toNat % 2) (by omega),
    Nat.mod_eq_of_lt (by rw [Nat.shiftLeft_eq]; omega), ← Nat.shiftLeft_add_eq_or_of_lt h1,
    Nat.shiftLeft_eq]

theorem posFromBytes_y (b0 b1 : Byte) : (posFromBytes b0 b1).y.toNat = b0.toNat / 2 := by
  have h0 := b0.isLt
  simp only [posFromBytes, BitVec.toNat_setWidth, BitVec.toNat_ushiftRight,
    Nat.shiftRight_eq_div_pow]
  omega

theorem shiftLeft_or_shiftRight_eq {x y : Nat} (hx : x < 512) :
    y <<< 1 ||| x >>> 8 = 2 * y + x / 256 := by
  have hbit : x >>> 8 < 2 ^ 1 := by rw [Nat.shiftRight_eq_div_pow]; omega
  rw [← Nat.shiftLeft_add_eq_or_of_lt hbit, Nat.shiftLeft_eq, Nat.shiftRight_eq_div_pow]
  omega

theorem posToBytes_eq (hx : p.x.toNat < 512) (hy : p.y.toNat < 128) :
    posToBytes p =
      (BitVec.ofNat 8 (2 * p.y.toNat + p.x.toNat / 256), BitVec.ofNat 8 p.x.toNat) := by
  refine Prod.ext (BitVec.eq_of_toNat_eq ?_) (BitVec.eq_of_toNat_eq ?_)
  · have hshift : p.y.toNat <<< 1 < 2 ^ 16 := by rw [Nat.shiftLeft_eq]; omega
    simp only [posToBytes, BitVec.toNat_setWidth, BitVec.toNat_or, BitVec.toNat_shiftLeft,
      BitVec.toNat_ushiftRight, BitVec.toNat_ofNat, Nat.mod_eq_of_lt hshift,
      shiftLeft_or_shiftRight_eq hx]
  · simp only [posToBytes, BitVec.toNat_setWidth, BitVec.toNat_ofNat]

theorem posFromBytes_posToBytes (hx : p.x.toNat < 512) (hy : p.y.toNat < 128) :
    posFromBytes (posToBytes p).1 (posToBytes p).2 = p := by
  have hxeq : (posFromBytes (posToBytes p).1 (posToBytes p).2).x = p.x := by
    apply BitVec.eq_of_toNat_eq
    rw [posFromBytes_x, posToBytes_eq hx hy]
    simp only [BitVec.toNat_ofNat]
    omega
  have hyeq : (posFromBytes (posToBytes p).1 (posToBytes p).2).y = p.y := by
    apply BitVec.eq_of_toNat_eq
    rw [posFromBytes_y, posToBytes_eq hx hy]
    simp only [BitVec.toNat_ofNat]
    omega
  cases p
  exact congrArg₂ Pos.mk hxeq hyeq

theorem posToBytes_posFromBytes (b0 b1 : Byte) : posToBytes (posFromBytes b0 b1) = (b0, b1) := by
  have h0 := b0.isLt
  have h1 := b1.isLt
  have hx := posFromBytes_x b0 b1
  have hy := posFromBytes_y b0 b1
  rw [posToBytes_eq (by omega) (by omega), hx, hy]
  refine Prod.ext (BitVec.eq_of_toNat_eq ?_) (BitVec.eq_of_toNat_eq ?_) <;>
    simp only [BitVec.toNat_ofNat] <;> omega

end PackedPosition

/-- Settles O57: the rule's bit operations are the sums and quotients of `posToBytes_eq`,
`posFromBytes_x` and `posFromBytes_y`, and those are inverse to each other. -/
theorem packedPositionRoundTrip : Obligations.PackedPositionRoundTrip := by
  refine ⟨fun p hx hy => ⟨?_, posFromBytes_posToBytes hx hy⟩, fun b0 b1 => ⟨?_, ?_⟩,
    posToBytes_posFromBytes, rfl, rfl⟩
  · rw [posToBytes_eq hx hy, shiftLeft_or_shiftRight_eq hx]
    congr 1
    apply BitVec.eq_of_toNat_eq
    rw [show (0xFF : Nat) = 2 ^ 8 - 1 from rfl, Nat.and_two_pow_sub_one_eq_mod]
    simp only [BitVec.toNat_ofNat, Nat.mod_mod]
  · rw [posFromBytes_x, ← Nat.shiftLeft_add_eq_or_of_lt b1.isLt, Nat.and_one_is_mod,
      Nat.shiftLeft_eq]
  · rw [posFromBytes_y, Nat.shiftRight_eq_div_pow]

/-! ## Runs of several steps -/

section Runs
variable {s t : State} {m n : Nat}

theorem runSteps_succ (h : step s = .next t) : runSteps (n + 1) s = runSteps n t := by
  have hcore : Sys2Proof.core.step s = .next t := h
  simp only [runSteps, Host.Core.run, hcore]
  rfl

theorem runSteps_one (h : step s = .next t) : runSteps 1 s = .next t := runSteps_succ h

/-- A run that answers has a first step that answers. -/
theorem step_of_runSteps_succ (h : runSteps (n + 1) s = .next t) : ∃ u, step s = .next u := by
  simp only [runSteps, Host.Core.run] at h
  split at h
  · exact ⟨_, ‹_›⟩
  · cases h
  · cases h

/-- A run that answers is followed by the run from its last state. -/
theorem runSteps_add (h : runSteps m s = .next t) : runSteps (m + n) s = runSteps n t := by
  induction m generalizing s with
  | zero => cases h; rw [Nat.zero_add]
  | succ m ih =>
    obtain ⟨u, hstep⟩ := step_of_runSteps_succ h
    rw [runSteps_succ hstep] at h
    rw [Nat.succ_add, runSteps_succ hstep, ih h]

end Runs

/-! ## The steps of a CSI sequence -/

section Csi
variable {s : State} {pos : Nat} {b : Byte} {rest : List Byte}

/-- `IDLE.ESC` (R122). -/
theorem step_idleEsc (hops : s.ops = []) (hesc : s.esc = .idle) (hrx : s.rx = 0x1B :: rest) :
    step s = .next { s with rx := rest, esc := .sawEscape } := by
  have hd : decodeByte s.cfg s.esc 0x1B = .ok .idleEsc :=
    decodeByte_eq_ok_iff.2 ⟨rfl, rfl, rfl, hesc⟩
  rw [step_of_byte hops hrx hd]
  simp only [exec, execIdleEsc, hesc, State.setEsc]

/-- `ESC.CSI` (R125). -/
theorem step_escCsi (hops : s.ops = []) (hesc : s.esc = .sawEscape) (hrx : s.rx = 0x5B :: rest) :
    step s = .next { s with rx := rest, esc := .csi 0 } := by
  have hd : decodeByte s.cfg s.esc 0x5B = .ok .escCsi :=
    decodeByte_eq_ok_iff.2 ⟨rfl, rfl, rfl, hesc⟩
  rw [step_of_byte hops hrx hd]
  simp only [exec, execEscCsi, hesc, State.setEsc]

/-- `CSI.PARAM` (R128), below and at the overflow point. -/
theorem step_csiParam (hops : s.ops = []) (hesc : s.esc = .csi pos)
    (hpos : pos < s.cfg.csiOverflow.limit) (hb : isParamByte b = true) (hrx : s.rx = b :: rest) :
    step s = .next (if s.cfg.csiOverflow.limit ≤ pos + 1 then { s with rx := rest, esc := .idle }
      else { s with
        rx := rest
        esc := .csi (pos + 1)
        scratch := s.scratch.setIfInBounds pos b }) := by
  have hd : decodeByte s.cfg s.esc b = .ok (.csiParam b) :=
    decodeByte_eq_ok_iff.2 ⟨rfl, hb, rfl, pos, hesc, hpos⟩
  rw [step_of_byte hops hrx hd]
  simp only [exec, execCsiParam, hesc, State.setEsc, State.setScratch]
  split <;> rfl

/-- `CSI.FINAL` and `CSI.FINAL_J` (R129, R130): the event is one, the next escape state is not. -/
theorem step_csiFinal (hops : s.ops = []) (hesc : s.esc = .csi pos)
    (hpos : pos < s.cfg.csiOverflow.limit) (hb : isParamByte b = false) (hrx : s.rx = b :: rest) :
    step s = .next { s with
      rx := rest
      esc := if b = 0x4A then .watching 0 else .idle
      events := s.events ++ [.csi b (s.scratch.toList.take pos)] } := by
  by_cases hJ : b = 0x4A
  · subst hJ
    have hd : decodeByte s.cfg s.esc 0x4A = .ok .csiFinalJ :=
      decodeByte_eq_ok_iff.2 ⟨rfl, rfl, rfl, pos, hesc, hpos⟩
    rw [step_of_byte hops hrx hd]
    simp only [exec, execCsiFinalJ, hesc, State.setEsc, State.emit, State.scratchBytes, if_true]
  · have hd : decodeByte s.cfg s.esc b = .ok (.csiFinal b) :=
      decodeByte_eq_ok_iff.2 ⟨rfl, wellFormed_csiFinal_iff.2 ⟨hb, hJ⟩, rfl, pos, hesc, hpos⟩
    rw [step_of_byte hops hrx hd]
    simp only [exec, execCsiFinal, hesc, State.setEsc, State.emit, State.scratchBytes, if_neg hJ]

/-- The bytes of `SCRATCH` up to one that is written (R33). -/
theorem take_setIfInBounds (sc : Vector Byte 256) (hpos : pos < 256) (b : Byte) :
    (sc.setIfInBounds pos b).toList.take (pos + 1) = sc.toList.take pos ++ [b] := by
  have hset : (sc.setIfInBounds pos b).toList = sc.toList.set pos b := by simp [Vector.toList]
  have hlen : pos < (sc.toList.set pos b).length := by simpa using hpos
  rw [hset, List.take_succ_eq_append_getElem hlen, List.take_set_of_le le_rfl,
    List.getElem_set_self]

/-- R33, R128: every byte before the overflow point has its place among the 256 of `SCRATCH`. -/
theorem limit_le (o : CsiOverflow) : o.limit ≤ 257 := by
  cases o <;> decide

/-- R94, R128: parameter bytes below the overflow point are taken one by one and stand in `SCRATCH`
behind those before them. -/
theorem runSteps_csiParams {params more : List Byte} (hops : s.ops = []) (hesc : s.esc = .csi pos)
    (hparams : ∀ p ∈ params, isParamByte p = true)
    (hlimit : pos + params.length < s.cfg.csiOverflow.limit) (hrx : s.rx = params ++ more) :
    ∃ sc, runSteps params.length s =
        .next { s with rx := more, esc := .csi (pos + params.length), scratch := sc } ∧
      sc.toList.take (pos + params.length) = s.scratch.toList.take pos ++ params := by
  induction params generalizing s pos with
  | nil =>
    have hmore : s.rx = more := hrx
    refine ⟨s.scratch, ?_, (List.append_nil _).symm⟩
    rw [← hmore, List.length_nil, Nat.add_zero, ← hesc]
    rfl
  | cons p ps ih =>
    have hscratch := limit_le s.cfg.csiOverflow
    have hlen : pos + (p :: ps).length = pos + 1 + ps.length := by
      rw [List.length_cons]; omega
    rw [hlen] at hlimit ⊢
    have hstep := step_csiParam hops hesc (by omega) (hparams p List.mem_cons_self) hrx
    rw [if_neg (by omega)] at hstep
    obtain ⟨sc, hrun, htake⟩ := ih (s := { s with
        rx := ps ++ more, esc := .csi (pos + 1), scratch := s.scratch.setIfInBounds pos p })
      hops rfl (fun q hq => hparams q (List.mem_cons_of_mem p hq)) hlimit rfl
    rw [take_setIfInBounds _ (by omega), List.append_assoc] at htake
    exact ⟨sc, (runSteps_succ hstep).trans hrun, htake⟩

/-- R94: `ESC [` leads from `Idle` to the first parameter byte. -/
theorem runSteps_escCsi (hops : s.ops = []) (hesc : s.esc = .idle)
    (hrx : s.rx = 0x1B :: 0x5B :: rest) :
    runSteps 2 s = .next { s with rx := rest, esc := .csi 0 } := by
  rw [runSteps_succ (step_idleEsc hops hesc hrx)]
  exact runSteps_one (step_escCsi hops rfl rfl)

/-- R94, R128: `ESC [` and the parameter bytes, below the overflow point. -/
theorem runSteps_escCsi_params {params more : List Byte} (hops : s.ops = []) (hesc : s.esc = .idle)
    (hparams : ∀ p ∈ params, isParamByte p = true)
    (hlimit : params.length < s.cfg.csiOverflow.limit)
    (hrx : s.rx = [0x1B, 0x5B] ++ params ++ more) :
    ∃ sc, runSteps (2 + params.length) s =
        .next { s with rx := more, esc := .csi params.length, scratch := sc } ∧
      sc.toList.take params.length = params := by
  obtain ⟨sc, hrun, htake⟩ := runSteps_csiParams (pos := 0) (more := more)
    (s := { s with rx := params ++ more, esc := .csi 0 }) hops rfl hparams (by simpa using hlimit)
    rfl
  rw [Nat.zero_add] at hrun htake
  exact ⟨sc, (runSteps_add (runSteps_escCsi hops hesc hrx)).trans hrun, htake⟩

end Csi

/-- Settles O23: the opening and the parameter bytes, then the final byte. -/
theorem csiRoundTrip : Obligations.CsiRoundTrip := by
  intro s params more final hops hesc hparams hlimit hfinal hrx
  obtain ⟨sc, hrun, htake⟩ := runSteps_escCsi_params (more := final :: more) hops hesc hparams
    hlimit (by rw [hrx, wireCsi, List.append_assoc]; rfl)
  refine ⟨sc, ?_⟩
  rw [show params.length + 3 = 2 + params.length + 1 by omega, runSteps_add hrun]
  have hstep := step_csiFinal (s := { s with
    rx := final :: more, esc := .csi params.length, scratch := sc }) hops rfl hlimit hfinal rfl
  rw [runSteps_one hstep]
  simp only [htake]

/-- Settles O24: all parameter bytes but the last are buffered, and the last one drops the
sequence. -/
theorem csiOverflowDrops : Obligations.CsiOverflowDrops := by
  intro s params more hops hesc hparams hlimit hrx
  have hne : params ≠ [] := by
    rintro rfl
    cases hover : s.cfg.csiOverflow <;> rw [hover] at hlimit <;> cases hlimit
  obtain ⟨front, last, rfl⟩ := (List.eq_nil_or_concat' params).resolve_left hne
  rw [List.length_append, List.length_singleton] at hlimit
  obtain ⟨sc, hrun, -⟩ := runSteps_escCsi_params (params := front) (more := last :: more) hops hesc
    (fun p hp => hparams p (List.mem_append_left _ hp)) (by omega) (by simp [hrx])
  have hstep := step_csiParam (s := { s with
      rx := last :: more, esc := .csi front.length, scratch := sc }) hops rfl
    (by simp only; omega) (hparams last (by simp)) rfl
  rw [if_pos (by simp only; omega)] at hstep
  refine ⟨sc, ?_⟩
  rw [show (front ++ [last]).length + 2 = 2 + front.length + 1 by
    rw [List.length_append, List.length_singleton]; omega]
  rw [runSteps_add hrun, runSteps_one hstep]

end Sys2Proof.Machine

namespace Sys2Proof.Machine

open Sys2Proof

/-! # The FRAMER: its rows, the banner replay, frames and the banner watch

Two facts carry this part. `exec_blind`: a row answers the same whatever stands in the elements it
does not see, which gives the frames of the rows and lets a byte be replayed as if it had arrived at
the input. `framerStep_eq_exec`: with the fuel of R136 the replay's own step is the row that the
block runs. -/

/-! ## Each row in its state -/

section Rows
variable {s : State} {pos total k : Nat} {b x : Byte}

/-- `IDLE.ESC` (R122). -/
theorem exec_idleEsc (hesc : s.esc = .idle) :
    exec .idleEsc s = .next { s with esc := .sawEscape } := by
  simp only [exec, execIdleEsc, hesc, State.setEsc]

/-- `IDLE.CHAR` (R123). -/
theorem exec_idleChar (hesc : s.esc = .idle) :
    exec (.idleChar b) s = .next { s with events := s.events ++ [.char b] } := by
  simp only [exec, execIdleChar, hesc, State.emit]

/-- `ESC.ESC` (R124). -/
theorem exec_escEsc (hesc : s.esc = .sawEscape) :
    exec .escEsc s = .next { s with esc := .binaryFrame 0 0 } := by
  simp only [exec, execEscEsc, hesc, State.setEsc]

/-- `ESC.CSI` (R125). -/
theorem exec_escCsi (hesc : s.esc = .sawEscape) :
    exec .escCsi s = .next { s with esc := .csi 0 } := by
  simp only [exec, execEscCsi, hesc, State.setEsc]

/-- `ESC.RI` (R126). -/
theorem exec_escRi (hesc : s.esc = .sawEscape) :
    exec .escRi s = .next { s with esc := .idle, events := s.events ++ [.csi 0x4C []] } := by
  simp only [exec, execEscRi, hesc, State.emit, State.setEsc]

/-- `ESC.OTHER` (R127). -/
theorem exec_escOther (hesc : s.esc = .sawEscape) :
    exec (.escOther b) s = .next { s with esc := .idle } := by
  simp only [exec, execEscOther, hesc, State.setEsc]

/-- `CSI.PARAM` (R128), at and below the overflow point. -/
theorem exec_csiParam (hesc : s.esc = .csi pos) :
    exec (.csiParam b) s =
      .next (if s.cfg.csiOverflow.limit ≤ pos + 1 then { s with esc := .idle }
        else { s with scratch := s.scratch.setIfInBounds pos b, esc := .csi (pos + 1) }) := by
  simp only [exec, execCsiParam, hesc, State.setScratch, State.setEsc]
  split <;> rfl

/-- `CSI.FINAL` (R129). -/
theorem exec_csiFinal (hesc : s.esc = .csi pos) :
    exec (.csiFinal b) s =
      .next { s with
        esc := .idle, events := s.events ++ [.csi b (s.scratch.toList.take pos)] } := by
  simp only [exec, execCsiFinal, hesc, State.scratchBytes, State.emit, State.setEsc]

/-- `CSI.FINAL_J` (R130). -/
theorem exec_csiFinalJ (hesc : s.esc = .csi pos) :
    exec .csiFinalJ s =
      .next { s with
        esc := .watching 0, events := s.events ++ [.csi 0x4A (s.scratch.toList.take pos)] } := by
  simp only [exec, execCsiFinalJ, hesc, State.scratchBytes, State.emit, State.setEsc]

/-- `BIN.LEN0` (R131). -/
theorem exec_binLen0 (hesc : s.esc = .binaryFrame 0 0) :
    exec .binLen0 s = .next { s with esc := .idle } := by
  simp only [exec, execBinLen0, hesc, State.setEsc]

/-- `BIN.LEN` (R132). -/
theorem exec_binLen (hesc : s.esc = .binaryFrame 0 0) :
    exec (.binLen b) s =
      .next { s with
        scratch := s.scratch.setIfInBounds 0 b, esc := .binaryFrame 1 (b.toNat + 1) } := by
  simp only [exec, execBinLen, hesc, State.setScratch, State.setEsc]

/-- `BIN.DATA` (R133), the last byte and the others. -/
theorem exec_binData (hesc : s.esc = .binaryFrame pos total)
    (hrange : 1 ≤ pos ∧ pos < total ∧ total ≤ 256) :
    exec (.binData b) s =
      .next (if pos + 1 = total then
          { s with
            scratch := s.scratch.setIfInBounds pos b
            esc := .idle
            events := s.events ++ [.frame ((s.scratch.setIfInBounds pos b).toList.take total)] }
        else
          { s with
            scratch := s.scratch.setIfInBounds pos b
            esc := .binaryFrame (pos + 1) total }) := by
  simp only [exec, execBinData, hesc, if_pos hrange, State.scratchBytes, State.setScratch,
    State.emit, State.setEsc]
  split <;> rfl

/-- `WBB.MATCH` (R134), the last byte and the others. -/
theorem exec_wbbMatch (hesc : s.esc = .watching k) (hk : s.cfg.banner[k]? = some b) :
    exec (.wbbMatch b) s =
      .next (if k + 1 = s.cfg.banner.length then
          { s with esc := .idle, events := s.events ++ [.reset] }
        else { s with esc := .watching (k + 1) }) := by
  simp only [exec, execWbbMatch, hesc, hk, if_true, State.emit, State.setEsc]
  split <;> rfl

/-- `WBB.MISS` (R135). -/
theorem exec_wbbMiss (hesc : s.esc = .watching k) (hk : s.cfg.banner[k]? = some x) (hb : b ≠ x) :
    exec (.wbbMiss b) s =
      replayBytes (framerStep (replayFuel s)) (s.cfg.banner.take k ++ [b]) (s.setEsc .idle) := by
  simp only [exec, execWbbMiss, replayMiss, hesc, hk, if_neg hb]

end Rows

/-- Settles O10. -/
theorem idleBytes : Obligations.IdleBytes :=
  fun _ hesc => ⟨exec_idleEsc hesc, fun _ _ => exec_idleChar hesc⟩

/-- Settles O11. -/
theorem escapeBytes : Obligations.EscapeBytes :=
  fun _ hesc => ⟨exec_escEsc hesc, exec_escCsi hesc, exec_escRi hesc,
    fun _ _ _ _ => exec_escOther hesc⟩

/-- Settles O12. -/
theorem csiParameterBytes : Obligations.CsiParameterBytes :=
  fun _ _ _ hesc _ _ => exec_csiParam hesc

/-- Settles O13. -/
theorem csiFinalBytes : Obligations.CsiFinalBytes :=
  fun _ _ hesc _ => ⟨exec_csiFinalJ hesc, fun _ _ _ => exec_csiFinal hesc⟩

/-- Settles O14. -/
theorem binaryFrameBytes : Obligations.BinaryFrameBytes :=
  ⟨fun _ hesc => ⟨exec_binLen0 hesc, fun _ _ => exec_binLen hesc⟩,
    fun _ _ _ _ hesc hpos hlt hle => exec_binData hesc ⟨hpos, hlt, hle⟩⟩

/-- Settles O15. -/
theorem bannerMatchBytes : Obligations.BannerMatchBytes :=
  fun _ _ _ hesc hk => exec_wbbMatch hesc hk

/-! ## The row of a FRAMER step -/

section Step
variable {s : State} {b : Byte} {c : ByteClass} {miss : Byte → State → Outcome}

/-- But for a mismatch, a FRAMER step is the row of the byte, whatever a mismatch means. -/
theorem framerStepWith_eq_exec (hc : classify s.cfg s.esc b = .ok c) (hmiss : c ≠ .wbbMiss) :
    framerStepWith miss b s = exec (c.instr b) s := by
  simp only [framerStepWith, hc]
  cases c with
  | wbbMiss => exact absurd rfl hmiss
  | _ => rfl

theorem framerStep_eq_exec_of_ne_miss (n : Nat) (hc : classify s.cfg s.esc b = .ok c)
    (hmiss : c ≠ .wbbMiss) : framerStep n b s = exec (c.instr b) s := by
  cases n with
  | zero => exact framerStepWith_eq_exec hc hmiss
  | succ n => exact framerStepWith_eq_exec hc hmiss

/-- The class of a mismatch is given in the banner watch alone, to a byte other than the one the
banner holds there (R91). -/
theorem watching_of_classify_miss (hc : classify s.cfg s.esc b = .ok .wbbMiss) :
    ∃ k x, s.esc = .watching k ∧ s.cfg.banner[k]? = some x ∧ b ≠ x := by
  obtain ⟨-, -, hrow⟩ := row_of_classify hc
  exact hrow

/-- With the fuel of R136 for the mismatches inside a replay, a FRAMER step is the row the block
runs. -/
theorem framerStep_eq_exec (hc : classify s.cfg s.esc b = .ok c) :
    framerStep (replayFuel s + 1) b s = exec (c.instr b) s := by
  by_cases hmiss : c = .wbbMiss
  · subst hmiss
    obtain ⟨k, x, hesc, hk, hb⟩ := watching_of_classify_miss hc
    rw [ByteClass.instr, exec_wbbMiss hesc hk hb]
    rw [framerStep, framerStepWith, hc]
    simp only [replayMiss, hesc]
  · exact framerStep_eq_exec_of_ne_miss _ hc hmiss

theorem decodeByte_of_classify (hc : classify s.cfg s.esc b = .ok c) :
    decodeByte s.cfg s.esc b = .ok (c.instr b) := by
  simp only [decodeByte, hc]

/-- Only a byte that has a class is answered. -/
theorem classify_of_framerStep {n : Nat} {t : State} (h : framerStep n b s = .next t) :
    ∃ c, classify s.cfg s.esc b = .ok c := by
  cases hc : classify s.cfg s.esc b with
  | ok c => exact ⟨c, rfl⟩
  | error e => cases n <;> simp [framerStep, framerStepWith, hc] at h

end Step

/-- Settles O8: a legal state gives every byte a row, the row is a FRAMER step with enough fuel, and
that step answers and has the frame of every FRAMER step. -/
theorem everyByteIsTaken : Obligations.EveryByteIsTaken := by
  intro s b rest hops hrx hlegal hban
  obtain ⟨c, hc⟩ := classify_ok hlegal b
  have hd := decodeByte_of_classify hc
  have hfuel : ∀ k, s.esc = .watching k → k < replayFuel s + 1 := by
    intro k hesc
    rw [hesc] at hlegal
    have hk : k < s.cfg.banner.length := of_decide_eq_true hlegal
    rw [replayFuel]
    omega
  obtain ⟨t, ht⟩ := framerStep_total (replayFuel s + 1) b { s with rx := rest } hlegal hban hfuel
  have hexec : exec (c.instr b) { s with rx := rest } = .next t :=
    (framerStep_eq_exec (s := { s with rx := rest }) hc).symm.trans ht
  have hframe : FramerFrame { s with rx := rest } t := exec_decodeByte_frame hd hexec
  exact ⟨t, (step_of_byte hops hrx hd).trans hexec, hframe.only, hframe.grows,
    hframe.legal hlegal hban⟩

/-! ## What the FRAMER does not see -/

/-- Change the next state of an outcome. -/
def mapNext (φ : State → State) : Outcome → Outcome
  | .next s => .next (φ s)
  | .fault r => .fault r
  | .refused r => .refused r

/-- A change of the state that a FRAMER row neither sees nor disturbs: it keeps the parameters,
`ESC` and `SCRATCH`, and commutes with the three updates the rows are written with (R38, R120). -/
structure FramerBlind (φ : State → State) : Prop where
  cfg (s : State) : (φ s).cfg = s.cfg
  esc (s : State) : (φ s).esc = s.esc
  scratch (s : State) : (φ s).scratch = s.scratch
  setEsc (s : State) (e : EscState) : φ (s.setEsc e) = (φ s).setEsc e
  setScratch (s : State) (i : Nat) (b : Byte) : φ (s.setScratch i b) = (φ s).setScratch i b
  emit (s : State) (e : Event) : φ (s.emit e) = (φ s).emit e

theorem framerBlind_receiving (bytes : List Byte) : FramerBlind (·.receiving bytes) :=
  ⟨fun _ => rfl, fun _ => rfl, fun _ => rfl, fun _ _ => rfl, fun _ _ _ => rfl, fun _ _ => rfl⟩

/-- The state with earlier events before its own. -/
def State.withEarlier (ev : List Event) (s : State) : State := { s with events := ev ++ s.events }

theorem framerBlind_withEarlier (ev : List Event) : FramerBlind (State.withEarlier ev) where
  cfg _ := rfl
  esc _ := rfl
  scratch _ := rfl
  setEsc _ _ := rfl
  setScratch _ _ _ := rfl
  emit s e := by
    simp only [State.withEarlier, State.emit, List.append_assoc]

section Blind
variable {φ : State → State} {f : Byte → State → Outcome}

theorem replayBytes_blind (hf : ∀ b s, f b (φ s) = mapNext φ (f b s)) (bs : List Byte) (s : State) :
    replayBytes f bs (φ s) = mapNext φ (replayBytes f bs s) := by
  induction bs generalizing s with
  | nil => rfl
  | cons b bs ih =>
    simp only [replayBytes, hf]
    cases f b s with
    | next u => exact ih u
    | fault r => rfl
    | refused r => rfl

variable (hφ : FramerBlind φ)
include hφ

theorem FramerBlind.scratchBytes (s : State) (n : Nat) :
    (φ s).scratchBytes n = s.scratchBytes n := by
  rw [State.scratchBytes, hφ.scratch, State.scratchBytes]

theorem FramerBlind.scratchBytes_setScratch (s : State) (i n : Nat) (b : Byte) :
    ((φ s).setScratch i b).scratchBytes n = (s.setScratch i b).scratchBytes n := by
  rw [← hφ.setScratch, hφ.scratchBytes]

/-- Every row but the mismatch is written with the accessors and updates of `FramerBlind`. -/
theorem exec_blind_of_ne_miss {i : Instr} (hi : isOperation i = false) (hmiss : ∀ b, i ≠ .wbbMiss b)
    (s : State) : exec i (φ s) = mapNext φ (exec i s) := by
  cases i with
  | wbbMiss b => exact absurd rfl (hmiss b)
  | idleEsc | idleChar | escEsc | escCsi | escRi | escOther | csiParam | csiFinal | csiFinalJ
  | binLen0 | binLen | binData | wbbMatch =>
    simp only [exec, execIdleEsc, execIdleChar, execEscEsc, execEscCsi, execEscRi, execEscOther,
      execCsiParam, execCsiFinal, execCsiFinalJ, execBinLen0, execBinLen, execBinData,
      execWbbMatch, hφ.esc, hφ.cfg]
    repeat' split
    all_goals simp only [mapNext, hφ.setEsc, hφ.setScratch, hφ.emit, hφ.scratchBytes,
      hφ.scratchBytes_setScratch]
  | _ => cases hi

theorem replayMiss_blind (hf : ∀ b s, f b (φ s) = mapNext φ (f b s)) (b : Byte) (s : State) :
    replayMiss f b (φ s) = mapNext φ (replayMiss f b s) := by
  simp only [replayMiss, hφ.esc, hφ.cfg]
  split
  · rw [← hφ.setEsc, replayBytes_blind hf]
  · rfl

theorem framerStepWith_blind (hf : ∀ b s, f b (φ s) = mapNext φ (f b s)) (b : Byte) (s : State) :
    framerStepWith f b (φ s) = mapNext φ (framerStepWith f b s) := by
  cases hc : classify s.cfg s.esc b with
  | error e => simp only [framerStepWith, hφ.cfg, hφ.esc, hc, mapNext]
  | ok c =>
    have hc' : classify (φ s).cfg (φ s).esc b = .ok c := by rw [hφ.cfg, hφ.esc, hc]
    by_cases hmiss : c = .wbbMiss
    · subst hmiss
      simp only [framerStepWith, hc, hc', hf]
    · rw [framerStepWith_eq_exec hc hmiss, framerStepWith_eq_exec hc' hmiss]
      refine exec_blind_of_ne_miss hφ (isOperation_instr b c) (fun b' => ?_) s
      cases c with
      | wbbMiss => exact absurd rfl hmiss
      | _ => exact fun h => nomatch h

theorem framerStep_blind (n : Nat) (b : Byte) (s : State) :
    framerStep n b (φ s) = mapNext φ (framerStep n b s) := by
  induction n generalizing b s with
  | zero => exact framerStepWith_blind hφ (fun _ _ => rfl) b s
  | succ n ih => exact framerStepWith_blind hφ (replayMiss_blind hφ ih) b s

/-- R38, R120: a FRAMER row answers the same, with the elements it does not see handed on. -/
theorem exec_blind {i : Instr} (hi : isOperation i = false) (s : State) :
    exec i (φ s) = mapNext φ (exec i s) := by
  by_cases hmiss : ∃ b, i = .wbbMiss b
  · obtain ⟨b, rfl⟩ := hmiss
    simp only [exec, execWbbMiss, hφ.esc, hφ.cfg, replayFuel]
    repeat' split
    · rfl
    · exact replayMiss_blind hφ (framerStep_blind hφ _) b s
    · rfl
    · rfl
  · exact exec_blind_of_ne_miss hφ hi (fun b hb => hmiss ⟨b, hb⟩) s

end Blind

/-- No FRAMER row reads the events, so what it answers keeps those before it in front. -/
theorem exec_framer_grows {i : Instr} {s t : State} (hi : isOperation i = false)
    (h : exec i s = .next t) : s.events <+: t.events := by
  have hs : s = State.withEarlier s.events { s with events := [] } := by
    simp only [State.withEarlier, List.append_nil]
  rw [hs, exec_blind (framerBlind_withEarlier s.events) hi] at h
  cases hu : exec i { s with events := [] } with
  | next u =>
    rw [hu] at h
    cases h
    exact List.prefix_append _ _
  | fault r => rw [hu] at h; cases h
  | refused r => rw [hu] at h; cases h

/-- Settles O19. -/
theorem framerWritesOnlyItsState : Obligations.FramerWritesOnlyItsState :=
  fun _ _ _ hi h => ⟨exec_onlyFramer hi h, exec_framer_grows hi h⟩

/-- Settles O20: what the statement replaces, no row sees. -/
theorem framerIgnoresTheScreen : Obligations.FramerIgnoresTheScreen := by
  intro i s t c g a e busy l rx ops hi h
  have hφ : FramerBlind fun u => { u with
      con := c, gfx := g, active := a, cursorEn := e, lut := l, blitBusy := busy
      rx := rx, ops := ops } :=
    ⟨fun _ => rfl, fun _ => rfl, fun _ => rfl, fun _ _ => rfl, fun _ _ _ => rfl, fun _ _ => rfl⟩
  rw [exec_blind hφ hi s, h, mapNext]

/-! ## A banner mismatch -/

section Miss
variable {s t : State} {k : Nat} {b x : Byte}

/-- R135: what a FRAMER step with the fuel of R136 answers, the block answers to the same byte at
its input. -/
theorem step_receiving {rest : List Byte} (h : framerStep (replayFuel s) b s = .next t) :
    step (s.receiving (b :: rest)) = .next (t.receiving rest) := by
  obtain ⟨c, hc⟩ := classify_of_framerStep h
  calc step (s.receiving (b :: rest))
      = exec (c.instr b) (s.receiving rest) := step_of_byte rfl rfl (decodeByte_of_classify hc)
    _ = mapNext (·.receiving rest) (exec (c.instr b) s) :=
      exec_blind (framerBlind_receiving rest) (isOperation_instr b c) s
    _ = mapNext (·.receiving rest) (framerStep (replayFuel s + 1) b s) := by
      rw [framerStep_eq_exec hc]
    _ = .next (t.receiving rest) := by rw [framerStep_mono _ b s t h, mapNext]

/-- R135: a replay that answers is a run of the block over the replayed bytes. -/
theorem runSteps_of_replayBytes {bs : List Byte}
    (h : replayBytes (framerStep (replayFuel s)) bs s = .next t) :
    runSteps bs.length (s.receiving bs) = .next (t.receiving []) := by
  induction bs generalizing s with
  | nil => cases h; rfl
  | cons b bs ih =>
    simp only [replayBytes] at h
    cases hu : framerStep (replayFuel s) b s with
    | next u =>
      rw [hu] at h
      have hfuel : replayFuel u = replayFuel s := by
        rw [replayFuel, (framerStep_frame _ b s u hu).only.cfg_eq, replayFuel]
      rw [List.length_cons, runSteps_succ (step_receiving hu)]
      exact ih (hfuel ▸ h)
    | fault r => rw [hu] at h; cases h
    | refused r => rw [hu] at h; cases h

theorem length_held (hk : s.cfg.banner[k]? = some x) :
    (s.cfg.banner.take k ++ [b]).length = k + 1 := by
  have hlt := (List.getElem?_eq_some_iff.mp hk).1
  rw [List.length_append, List.length_take, Nat.min_eq_left hlt.le, List.length_singleton]

/-- R136: the fuel suffices, so a mismatch is answered. -/
theorem exec_wbbMiss_total (hesc : s.esc = .watching k) (hk : s.cfg.banner[k]? = some x)
    (hb : b ≠ x) : ∃ t, exec (.wbbMiss b) s = .next t := by
  have hlt : k < s.cfg.banner.length := (List.getElem?_eq_some_iff.mp hk).1
  have hne : s.cfg.banner ≠ [] := List.ne_nil_of_length_pos (by omega)
  rw [exec_wbbMiss hesc hk hb]
  refine replayBytes_total (framerStep_total _) _ (s.setEsc .idle) rfl hne ?_
  rw [length_held hk, State.setEsc_esc, escWeight, replayFuel]
  omega

end Miss

/-- Settles O16: the replay answers, and is a run from `Idle` over the bytes it replays. -/
theorem bannerMissIsReplay : Obligations.BannerMissIsReplay := by
  intro s k x b hesc hk hb
  obtain ⟨t, ht⟩ := exec_wbbMiss_total hesc hk hb
  refine ⟨t, ht, exec_onlyFramer rfl ht, ?_⟩
  rw [exec_wbbMiss hesc hk hb] at ht
  rw [← length_held (b := b) hk]
  exact runSteps_of_replayBytes (s := s.setEsc .idle) ht

section NoEscape
variable {s t : State} {n : Nat} {bs : List Byte}

theorem replayBytes_append {f : Byte → State → Outcome} (h : replayBytes f bs s = .next t)
    (cs : List Byte) : replayBytes f (bs ++ cs) s = replayBytes f cs t := by
  induction bs generalizing s with
  | nil => cases h; rfl
  | cons b bs ih =>
    rw [List.cons_append]
    simp only [replayBytes] at h ⊢
    cases hu : f b s with
    | next u => rw [hu] at h; exact ih h
    | fault r => rw [hu] at h; cases h
    | refused r => rw [hu] at h; cases h

/-- R122: a replayed `ESC` in `Idle`. -/
theorem framerStep_idleEsc (n : Nat) (hesc : s.esc = .idle) :
    framerStep n 0x1B s = .next { s with esc := .sawEscape } := by
  have hc : classify s.cfg s.esc 0x1B = .ok .idleEsc := by rw [hesc]; rfl
  rw [framerStep_eq_exec_of_ne_miss n hc (by decide)]
  exact exec_idleEsc hesc

/-- R123: any other replayed byte in `Idle`. -/
theorem framerStep_idleChar (n : Nat) (hesc : s.esc = .idle) {b : Byte} (hb : b ≠ 0x1B) :
    framerStep n b s = .next { s with events := s.events ++ [.char b] } := by
  have hc : classify s.cfg s.esc b = .ok .idleChar := by rw [hesc, classify, if_neg hb]
  rw [framerStep_eq_exec_of_ne_miss n hc (by decide)]
  exact exec_idleChar hesc

/-- R123: bytes other than `ESC`, replayed from `Idle`, come out as characters. -/
theorem replayBytes_chars (hesc : s.esc = .idle) (hbs : 0x1B ∉ bs) :
    replayBytes (framerStep n) bs s = .next { s with events := s.events ++ bs.map .char } := by
  induction bs generalizing s with
  | nil => rw [List.map_nil, List.append_nil]; rfl
  | cons b bs ih =>
    have hb : b ≠ 0x1B := fun h => hbs (h ▸ List.mem_cons_self)
    rw [replayBytes, framerStep_idleChar n hesc hb]
    have hrest := ih (s := { s with events := s.events ++ [.char b] }) hesc
      fun h => hbs (List.mem_cons_of_mem b h)
    rw [List.append_assoc] at hrest
    exact hrest

end NoEscape

/-- Settles O17: the held bytes are replayed as characters, and the mismatching byte is one more or
begins an escape. -/
theorem bannerMissWithoutEscape : Obligations.BannerMissWithoutEscape := by
  intro s k x b hesc hk hb hban
  have hheld : 0x1B ∉ s.cfg.banner.take k := fun h => hban (List.mem_of_mem_take h)
  rw [exec_wbbMiss hesc hk hb]
  by_cases hb' : b = 0x1B
  · subst hb'
    rw [if_pos rfl, replayBytes_append (replayBytes_chars rfl hheld), replayBytes,
      framerStep_idleEsc _ rfl]
    rfl
  · rw [if_neg hb']
    refine replayBytes_chars (s := s.setEsc .idle) rfl fun hmem => ?_
    rcases List.mem_append.1 hmem with h | h
    · exact hheld h
    · exact hb' (List.mem_singleton.1 h).symm

/-! ## A binary frame, byte by byte -/

section Frame
variable {s : State} {pos total k : Nat} {b : Byte} {rest : List Byte}

/-- R78, R91: a step runs the row that stands in the escape state and holds the byte. -/
theorem step_of_row {i : Instr} (hops : s.ops = []) (hrx : s.rx = b :: rest)
    (hi : isOperation i = false) (hwf : wellFormed i = true) (henc : encode i = [b])
    (hrow : rowStands s.cfg s.esc i) : step s = exec i { s with rx := rest } :=
  step_of_byte hops hrx (decodeByte_of_row hi hwf henc hrow)

/-- `ESC.ESC` (R124). -/
theorem step_escEsc (hops : s.ops = []) (hesc : s.esc = .sawEscape) (hrx : s.rx = 0x1B :: rest) :
    step s = .next { s with rx := rest, esc := .binaryFrame 0 0 } :=
  (step_of_row (i := .escEsc) hops hrx rfl rfl rfl hesc).trans (exec_escEsc hesc)

/-- `BIN.LEN` (R132). -/
theorem step_binLen (hops : s.ops = []) (hesc : s.esc = .binaryFrame 0 0) (hb : b ≠ 0)
    (hrx : s.rx = b :: rest) :
    step s = .next { s with
      rx := rest
      esc := .binaryFrame 1 (b.toNat + 1)
      scratch := s.scratch.setIfInBounds 0 b } :=
  (step_of_row (i := .binLen b) hops hrx rfl (bne_iff_ne.2 hb) rfl hesc).trans (exec_binLen hesc)

/-- `BIN.DATA` (R133). -/
theorem step_binData (hops : s.ops = []) (hesc : s.esc = .binaryFrame pos total)
    (hrange : 1 ≤ pos ∧ pos < total ∧ total ≤ 256) (hrx : s.rx = b :: rest) :
    step s = .next (if pos + 1 = total then
        { s with
          rx := rest
          scratch := s.scratch.setIfInBounds pos b
          esc := .idle
          events := s.events ++ [.frame ((s.scratch.setIfInBounds pos b).toList.take total)] }
      else
        { s with
          rx := rest
          scratch := s.scratch.setIfInBounds pos b
          esc := .binaryFrame (pos + 1) total }) :=
  (step_of_row (i := .binData b) hops hrx rfl rfl rfl ⟨pos, total, hesc, hrange⟩).trans
    (exec_binData hesc hrange)

/-- R133: bytes that leave the frame incomplete are taken one by one and stand in `SCRATCH` behind
those before them. -/
theorem runSteps_binData {bs more : List Byte} (hops : s.ops = [])
    (hesc : s.esc = .binaryFrame pos total) (hpos : 1 ≤ pos) (hlt : pos + bs.length < total)
    (hle : total ≤ 256) (hrx : s.rx = bs ++ more) :
    ∃ sc, runSteps bs.length s = .next { s with
          rx := more, esc := .binaryFrame (pos + bs.length) total, scratch := sc } ∧
      sc.toList.take (pos + bs.length) = s.scratch.toList.take pos ++ bs := by
  induction bs generalizing s pos with
  | nil =>
    have hmore : s.rx = more := hrx
    refine ⟨s.scratch, ?_, (List.append_nil _).symm⟩
    rw [← hmore, List.length_nil, Nat.add_zero, ← hesc]
    rfl
  | cons b bs ih =>
    have hlen : pos + (b :: bs).length = pos + 1 + bs.length := by rw [List.length_cons]; omega
    rw [hlen] at hlt ⊢
    have hstep := step_binData hops hesc ⟨hpos, by omega, hle⟩ hrx
    rw [if_neg (by omega)] at hstep
    obtain ⟨sc, hrun, htake⟩ := ih (s := { s with
        rx := bs ++ more
        esc := .binaryFrame (pos + 1) total
        scratch := s.scratch.setIfInBounds pos b }) hops rfl (by omega) hlt rfl
    rw [take_setIfInBounds _ (by omega), List.append_assoc] at htake
    exact ⟨sc, (runSteps_succ hstep).trans hrun, htake⟩

/-- R139: `ESC ESC N` opens a frame from `Idle`, one step per byte. -/
theorem runSteps_frameOpening (hops : s.ops = []) (hesc : s.esc = .idle) (hb : b ≠ 0)
    (hrx : s.rx = 0x1B :: 0x1B :: b :: rest) :
    runSteps 1 s = .next { s with rx := 0x1B :: b :: rest, esc := .sawEscape } ∧
      runSteps 2 s = .next { s with rx := b :: rest, esc := .binaryFrame 0 0 } ∧
      runSteps 3 s = .next { s with
        rx := rest
        esc := .binaryFrame 1 (b.toNat + 1)
        scratch := s.scratch.setIfInBounds 0 b } := by
  have hone := runSteps_one (step_idleEsc hops hesc hrx)
  have htwo := (runSteps_add hone).trans (runSteps_one (step_escEsc hops rfl rfl))
  exact ⟨hone, htwo, (runSteps_add htwo).trans (runSteps_one (step_binLen hops rfl hb rfl))⟩

end Frame

/-- Settles O21: fewer bytes than the frame is short of leave it incomplete; all of them are those
but the last, then the last. -/
theorem frameSwallowsItsBytes : Obligations.FrameSwallowsItsBytes := by
  intro s pos total bs more hops hesc hpos hlt hle hlen hrx
  constructor
  · intro m hm
    have htake : (bs.take m).length = m := List.length_take_of_le hm.le
    obtain ⟨sc, hrun, -⟩ := runSteps_binData (bs := bs.take m) (more := bs.drop m ++ more) hops hesc
      hpos (by omega) hle (by rw [hrx, ← List.append_assoc, List.take_append_drop])
    rw [htake] at hrun
    rw [List.drop_append_of_le_length hm.le]
    exact ⟨sc, hrun⟩
  · have hne : bs ≠ [] := List.ne_nil_of_length_pos (by omega)
    obtain ⟨front, last, rfl⟩ := (List.eq_nil_or_concat' bs).resolve_left hne
    rw [List.length_append, List.length_singleton] at hlen ⊢
    obtain ⟨sc, hrun, htake⟩ := runSteps_binData (bs := front) (more := last :: more) hops hesc hpos
      (by omega) hle (by rw [hrx, List.append_assoc]; rfl)
    have hlast : pos + front.length + 1 = total := by omega
    have hstep := step_binData (s := { s with
        rx := last :: more, esc := .binaryFrame (pos + front.length) total, scratch := sc })
      hops rfl ⟨by omega, by omega, hle⟩ rfl
    rw [if_pos hlast] at hstep
    refine ⟨sc.setIfInBounds (pos + front.length) last, ?_⟩
    rw [runSteps_add hrun, runSteps_one hstep, ← hlast, take_setIfInBounds _ (by omega), htake,
      List.append_assoc]

/-- Settles O22: three bytes open the frame, which then swallows the command and its data. -/
theorem framingRoundTrip : Obligations.FramingRoundTrip := by
  intro s cmd data more hops hesc hdata hrx
  have hN : (BitVec.ofNat 8 (data.length + 1)).toNat = data.length + 1 := by
    rw [BitVec.toNat_ofNat, Nat.mod_eq_of_lt (by omega)]
  have hN0 : BitVec.ofNat 8 (data.length + 1) ≠ 0 := by
    intro h0
    rw [h0] at hN
    cases hN
  obtain ⟨hone, htwo, hthree⟩ := runSteps_frameOpening (rest := cmd :: data ++ more) hops hesc hN0
    hrx
  rw [hN] at hthree
  obtain ⟨hbefore, sc, hlast⟩ := frameSwallowsItsBytes { s with
      rx := cmd :: data ++ more
      esc := .binaryFrame 1 (data.length + 1 + 1)
      scratch := s.scratch.setIfInBounds 0 (BitVec.ofNat 8 (data.length + 1)) }
    1 (data.length + 1 + 1) (cmd :: data) more hops rfl le_rfl (by omega) (by omega) rfl rfl
  constructor
  · intro m hm
    match m with
    | 0 => exact ⟨s.esc, s.scratch, by rw [List.drop_zero, ← hrx]; rfl⟩
    | 1 => exact ⟨_, _, hone⟩
    | 2 => exact ⟨_, _, htwo⟩
    | m + 3 =>
      obtain ⟨sc, hrun⟩ := hbefore m (by rw [List.length_cons]; omega)
      refine ⟨_, sc, Eq.trans ?_ hrun⟩
      rw [Nat.add_comm m 3]
      exact runSteps_add hthree
  · rw [take_setIfInBounds (pos := 0) _ (by decide)] at hlast
    rw [show data.length + 4 = 3 + (cmd :: data).length by rw [List.length_cons]; omega]
    exact ⟨sc, (runSteps_add hthree).trans hlast⟩

/-! ## The banner watch -/

section Banner
variable {s : State} {k : Nat} {b : Byte} {rest : List Byte}

/-- `WBB.MATCH` (R134). -/
theorem step_wbbMatch (hops : s.ops = []) (hesc : s.esc = .watching k)
    (hk : s.cfg.banner[k]? = some b) (hrx : s.rx = b :: rest) :
    step s = .next (if k + 1 = s.cfg.banner.length then
        { s with rx := rest, esc := .idle, events := s.events ++ [.reset] }
      else { s with rx := rest, esc := .watching (k + 1) }) :=
  (step_of_row (i := .wbbMatch b) hops hrx rfl rfl rfl ⟨k, hesc, hk⟩).trans (exec_wbbMatch hesc hk)

/-- The next byte of a banner that is being received. -/
theorem drop_banner {banner more : List Byte} (h : k < banner.length) :
    (banner ++ more).drop k = banner[k] :: (banner ++ more).drop (k + 1) := by
  rw [List.drop_eq_getElem_cons (by rw [List.length_append]; omega), List.getElem_append_left h]

/-- R134: the banner's bytes but the last are held back. -/
theorem runSteps_wbbMatch {more : List Byte} (hops : s.ops = []) (hesc : s.esc = .watching 0)
    (hrx : s.rx = s.cfg.banner ++ more) {m : Nat} (hm : m < s.cfg.banner.length) :
    runSteps m s = .next { s with rx := (s.cfg.banner ++ more).drop m, esc := .watching m } := by
  induction m with
  | zero => rw [List.drop_zero, ← hrx, ← hesc]; rfl
  | succ m ih =>
    have hlt : m < s.cfg.banner.length := by omega
    have hstep := step_wbbMatch (s := { s with
        rx := (s.cfg.banner ++ more).drop m, esc := .watching m }) hops rfl
      (List.getElem?_eq_getElem hlt) (drop_banner hlt)
    rw [if_neg (Nat.ne_of_lt hm)] at hstep
    rw [runSteps_add (ih hlt), runSteps_one hstep]

/-- R134: the banner's bytes are held back, and with the last of them comes `Reset`. -/
theorem runSteps_banner {more : List Byte} (hops : s.ops = []) (hesc : s.esc = .watching 0)
    (hban : s.cfg.banner ≠ []) (hrx : s.rx = s.cfg.banner ++ more) :
    (∀ m, m < s.cfg.banner.length →
      runSteps m s = .next { s with rx := (s.cfg.banner ++ more).drop m, esc := .watching m }) ∧
    runSteps s.cfg.banner.length s =
      .next { s with rx := more, esc := .idle, events := s.events ++ [.reset] } := by
  refine ⟨fun m hm => runSteps_wbbMatch hops hesc hrx hm, ?_⟩
  obtain ⟨m, hm⟩ := Nat.exists_eq_add_one_of_ne_zero (mt List.eq_nil_of_length_eq_zero hban)
  have hlt : m < s.cfg.banner.length := by omega
  have hstep := step_wbbMatch (s := { s with
      rx := (s.cfg.banner ++ more).drop m, esc := .watching m }) hops rfl
    (List.getElem?_eq_getElem hlt) (drop_banner hlt)
  rw [if_pos hm.symm, ← hm, List.drop_left] at hstep
  rw [hm, runSteps_add (runSteps_wbbMatch hops hesc hrx hlt), runSteps_one hstep]

end Banner

/-- Settles O25: the erase-screen CSI is dispatched (`csiRoundTrip`), then the banner is watched. -/
theorem bannerAfterErase : Obligations.BannerAfterErase := by
  intro s params more hops hesc hparams hlimit hban hrx
  obtain ⟨sc, hcsi⟩ := csiRoundTrip s params (s.cfg.banner ++ more) 0x4A hops hesc hparams hlimit
    rfl (by rw [hrx, List.append_assoc])
  rw [if_pos rfl] at hcsi
  obtain ⟨hbefore, hlast⟩ := runSteps_banner (s := { s with
      rx := s.cfg.banner ++ more
      esc := .watching 0
      scratch := sc
      events := s.events ++ [.csi 0x4A params] }) hops rfl hban rfl
  rw [List.append_assoc] at hlast
  exact ⟨fun m hm => ⟨sc, (runSteps_add hcsi).trans (hbefore m hm)⟩,
    sc, (runSteps_add hcsi).trans hlast⟩

end Sys2Proof.Machine

namespace Sys2Proof.Boundary

open Sys2Proof Sys2Proof.Machine

/-! # The boundary: save and restore, and the commands that do nothing

A restore answers from the slot that a save wrote (`saveAttrs_slots_same`). Each function of a command
with a fixed part leaves shorter data alone (the `_of_short` lemmas), which `runPlain_of_short`
gathers by command. -/

/-! ## Save and restore -/

/-- `SETCLIP` with legal corners completes and writes them (R210). -/
theorem exec_setclip_of_legal {f : Fb} {c1 c2 : Pos} {s : State} (h : clipLegal c1 c2 = true) :
    exec (.setclip f c1.x c1.y c2.x c2.y) s = .next (s.setClip f c1 c2) :=
  if_pos h

section Slots
variable {g : GraphicsContext} {slot : Fin 32}

/-- R159: the slot of a save holds the setting that was current. -/
theorem saveAttrs_slots_same : (saveAttrs g slot).slots[slot] = g.current :=
  Vector.getElem_set_self slot.isLt

/-- R160: a restore makes the slot's setting current. -/
theorem selAttrs_current : (selAttrs g slot).1.current = g.slots[slot] := rfl

/-- R160, R317: a restore issues the `SETCLIP` of the slot's corners. -/
theorem selAttrs_ops : (selAttrs g slot).2 =
    [.setclip .gfx g.slots[slot].clip1.x g.slots[slot].clip1.y
      g.slots[slot].clip2.x g.slots[slot].clip2.y] := rfl

end Slots

/-- Settles O58: the restore reads the slot that the save wrote (`saveAttrs_slots_same`), and its
`SETCLIP` has the legal corners of the saved setting. -/
theorem restoreBringsBackTheSetting : Obligations.RestoreBringsBackTheSetting := by
  intro g slot other s hlegal saved
  have hslot : saved.slots[slot] = g.current := saveAttrs_slots_same
  refine ⟨selAttrs_current.trans hslot, _, _, selAttrs_ops.trans (by rw [hslot]),
    exec_setclip_of_legal hlegal, ?_, ?_, ?_⟩
  · exact State.setClip_clip1 s .gfx _ _
  · exact State.setClip_clip2 s .gfx _ _
  · exact State.setClip_pixels s .gfx _ _ .gfx

/-! ## Commands with too little data -/

section Short
variable {o : Openings} {g : GraphicsContext} {data : List Byte}

/-- Set position needs one packed position (R151, R157). -/
theorem setPosition_of_short (h : data.length < 2) : setPosition g data = g := by
  unfold setPosition
  split
  · simp only [List.length_cons] at h; omega
  · rfl

/-- Set font needs the byte of its index (R151, R157). -/
theorem setFont_of_short (h : data.length < 1) : setFont g data = g := by
  unfold setFont
  split
  · simp only [List.length_cons] at h; omega
  · rfl

/-- Set palette needs four colours (R151, R157). -/
theorem setPalette_of_short (h : data.length < 4) : setPalette g data = g := by
  unfold setPalette
  split
  · simp only [List.length_cons] at h; omega
  · rfl

/-- Set clip with some data needs two positions; without any it resets the clip (R151, R157). -/
theorem setClip_of_short (h : data.length < 4) (hne : data ≠ []) :
    setClip o g data = (g, []) := by
  unfold setClip
  split
  · exact absurd rfl hne
  · simp only [List.length_cons] at h; omega
  · rfl

/-- A filled rectangle needs two positions (R151, R158). -/
theorem drawRect_of_short (h : data.length < 4) : drawRect o g data = [] := by
  unfold drawRect
  split
  · simp only [List.length_cons] at h; omega
  · rfl

/-- An image needs the byte of its table index (R151, R158). -/
theorem drawImage_of_short (h : data.length < 1) : drawImage o g data = [] := by
  rw [List.length_eq_zero_iff.mp (Nat.lt_one_iff.mp h)]
  rfl

/-- Screen clear needs its colour (R151, R158). -/
theorem screenClear_of_short (h : data.length < 1) : screenClear data = [] := by
  unfold screenClear
  split
  · simp only [List.length_cons] at h; omega
  · rfl

/-- A rectangle copy needs three positions (R151, R158). -/
theorem copyRect_of_short (h : data.length < 6) : copyRect o data = [] := by
  unfold copyRect
  split
  · simp only [List.length_cons] at h; omega
  · rfl

/-- A plot needs its start position (R151, R165). -/
theorem drawPlot_of_short (h : data.length < 2) : drawPlot o g data = [] := by
  unfold drawPlot
  split
  · simp only [List.length_cons] at h; omega
  · rfl

end Short

section Interpreter
variable {o : Openings} {ids : CommandIds} {n id : Byte} {data : List Byte} {e : Environment}

@[simp] theorem Environment.withGraphics_self : e.withGraphics e.graphics = e := rfl

/-- R151: a plain command with less data than it requires. A command that requires none is never
short. -/
theorem runPlain_of_short {c : PlainCommand} (h : data.length < c.required)
    (hclip : c = .setClip → data ≠ []) : runPlain o c data e = (e, []) := by
  cases c with
  | setPosition => simp only [runPlain, setPosition_of_short h, Environment.withGraphics_self]
  | setFont => simp only [runPlain, setFont_of_short h, Environment.withGraphics_self]
  | setPalette => simp only [runPlain, setPalette_of_short h, Environment.withGraphics_self]
  | setClip => simp only [runPlain, setClip_of_short h (hclip rfl), Environment.withGraphics_self]
  | rect => simp only [runPlain, drawRect_of_short h]
  | image => simp only [runPlain, drawImage_of_short h]
  | clear => simp only [runPlain, screenClear_of_short h]
  | copy => simp only [runPlain, copyRect_of_short h]
  | plot => simp only [runPlain, drawPlot_of_short h]
  | modeSwitch | text | polyline | elsewhere => exact absurd h (Nat.not_lt_zero _)

/-- R151: a save and a restore require no data, so only a plain command can be short. -/
theorem runCommand_of_short {c : Command} (h : data.length < c.required)
    (hclip : c = .plain .setClip → data ≠ []) : runCommand o c data e = (e, []) := by
  cases c with
  | plain c => exact runPlain_of_short h fun hc => hclip (congrArg _ hc)
  | save | restore => exact absurd h (Nat.not_lt_zero _)

/-- R152: an id the environment does not have leads to no command. -/
theorem interpret_of_unknown (h : ids.command id = none) :
    interpret o ids (n :: id :: data) e = (e, []) := by
  simp only [interpret, frameCommand, h]

/-- R150: a frame runs the command of its id on the data after it. -/
theorem interpret_of_known {c : Command} (h : ids.command id = some c) :
    interpret o ids (n :: id :: data) e = runCommand o c data e := by
  simp only [interpret, frameCommand, h]

end Interpreter

/-- Settles O60: an unknown id leads to no command, and a known one to a command that is short. -/
theorem shortCommandsDoNothing : Obligations.ShortCommandsDoNothing :=
  fun _ _ _ _ _ _ => ⟨interpret_of_unknown,
    fun _ hc hshort hclip => (interpret_of_known hc).trans (runCommand_of_short hshort hclip)⟩

end Sys2Proof.Boundary

namespace Sys2Proof.Machine

open Sys2Proof

/-! # The drawing engine: the result of each instruction, byte by byte

Three descriptions carry this part. What goes through `SETPIXEL` is a picture (`Paints`), of which
`Paints.plotAll_read` says every byte. A line is its numbered pixels (`linePoints_eq`), each axis
the rounding of the ideal line. A clipped primitive draws in one of three ways
(`exec_drawsClipped`), none of them outside the clip rectangle. -/

/-! ## `SETCLIP` and `ACTIVATE` -/

/-- `SETCLIP` with other corners is refused (R210, U6). -/
theorem exec_setclip_of_illegal {f : Fb} {x1 y1 x2 y2 : U16} {s : State}
    (h : ¬ clipLegal ⟨x1, y1⟩ ⟨x2, y2⟩ = true) :
    exec (.setclip f x1 y1 x2 y2) s = .refused .clipOperands :=
  if_neg h

theorem State.setClip_frame (s : State) (f : Fb) (c1 c2 : Pos) :
    { s.setClip f c1 c2 with con := s.con, gfx := s.gfx } = s := by
  cases f <;> rfl

/-- Settles O26: the two sides of the guard of R26. -/
theorem setclipResult : Obligations.SetclipResult := by
  intro s f x1 y1 x2 y2
  refine ⟨fun hin => ?_, fun hout => exec_setclip_of_illegal (hout ∘ clipLegal_iff.mp)⟩
  exact ⟨s.setClip f ⟨x1, y1⟩ ⟨x2, y2⟩,
    Boundary.exec_setclip_of_legal (c1 := ⟨x1, y1⟩) (c2 := ⟨x2, y2⟩) (clipLegal_iff.mpr hin),
    State.setFb_fb s f _, fun g hg => State.setFb_fb_ne s _ hg, State.setClip_frame s f _ _⟩

/-- Settles O43: both instructions write what they name whatever was there. -/
theorem activateResult : Obligations.ActivateResult := by
  intro s
  refine ⟨rfl, rfl, fun f => rfl, fun f t h => ?_⟩
  obtain rfl := Host.Outcome.next.inj h
  rfl

/-! ## Painting pixels -/

/-- The pixel list is a picture: it holds the pixels of `region`, each in its colour, and no
other. -/
def Paints (ps : List Pixel) (region : Nat → Nat → Prop) (colour : Nat → Nat → Byte) : Prop :=
  ∀ p, p ∈ ps ↔ region p.x p.y ∧ p.c = colour p.x p.y

theorem lastColour_eq_none {ps : List Pixel} {x y : Nat} (h : ∀ p ∈ ps, ¬ (p.x = x ∧ p.y = y)) :
    lastColour ps x y = none := by
  induction ps with
  | nil => rfl
  | cons p ps ih =>
    obtain ⟨hp, hps⟩ := List.forall_mem_cons.mp h
    rw [lastColour, ih hps, if_neg hp]

theorem exists_mem_of_lastColour {ps : List Pixel} {x y : Nat} {c : Byte}
    (h : lastColour ps x y = some c) : ∃ p ∈ ps, p.x = x ∧ p.y = y ∧ p.c = c := by
  induction ps with
  | nil => cases h
  | cons p ps ih =>
    rw [lastColour] at h
    split at h
    · rename_i c' hc'
      obtain ⟨q, hq, hat⟩ := ih (hc'.trans h)
      exact ⟨q, List.mem_cons_of_mem p hq, hat⟩
    · split at h
      · rename_i hp
        exact ⟨p, List.mem_cons_self, hp.1, hp.2, Option.some.inj h⟩
      · cases h

theorem lastColour_isSome {ps : List Pixel} {p : Pixel} (h : p ∈ ps) :
    ∃ c, lastColour ps p.x p.y = some c := by
  induction ps with
  | nil => cases h
  | cons q ps ih =>
    rw [lastColour]
    split
    · exact ⟨_, rfl⟩
    · rename_i hnone
      rcases List.mem_cons.mp h with rfl | hps
      · exact ⟨p.c, if_pos ⟨rfl, rfl⟩⟩
      · obtain ⟨c, hc⟩ := ih hps
        rw [hc] at hnone
        cases hnone

section Paint
variable {ps : List Pixel} {region : Nat → Nat → Prop} {colour : Nat → Nat → Byte}

theorem Paints.lastColour_in (h : Paints ps region colour) {x y : Nat} (hr : region x y) :
    lastColour ps x y = some (colour x y) := by
  obtain ⟨c, hc⟩ := lastColour_isSome ((h ⟨x, y, colour x y⟩).mpr ⟨hr, rfl⟩)
  obtain ⟨p, hp, rfl, rfl, rfl⟩ := exists_mem_of_lastColour hc
  rw [hc, ((h p).mp hp).2]

theorem Paints.lastColour_out (h : Paints ps region colour) {x y : Nat} (hr : ¬ region x y) :
    lastColour ps x y = none := by
  refine lastColour_eq_none fun p hp hat => hr ?_
  obtain ⟨rfl, rfl⟩ := hat
  exact ((h p).mp hp).1

/-- R211, R226: a picture drawn through `SETPIXEL` colours its pixels inside the clip rectangle and
no other. -/
theorem Paints.plotAll_read (h : Paints ps region colour) {s : State} {f : Fb}
    (hc : s.clipOk f = true) (a : Nat) [Decidable (region (colOf a) (rowOf a))] :
    ((plotAll s f ps).fb f).pixels.read a =
      if s.offsetInClip f a = true ∧ region (colOf a) (rowOf a) then colour (colOf a) (rowOf a)
      else (s.fb f).pixels.read a := by
  rw [Machine.plotAll_read hc]
  by_cases hin : s.offsetInClip f a = true
  · by_cases hr : region (colOf a) (rowOf a)
    · rw [if_pos hin, if_pos ⟨hin, hr⟩, h.lastColour_in hr, Option.getD_some]
    · rw [if_pos hin, if_neg fun hand => hr hand.2, h.lastColour_out hr, Option.getD_none]
  · rw [if_neg hin, if_neg fun hand => hin hand.1]

end Paint

/-! ## `SETPIXEL` -/

theorem offsetInClip_iff {s : State} {f : Fb} {a : Nat} : s.offsetInClip f a = true ↔
    (s.fb f).clip1.x.toNat ≤ colOf a ∧ colOf a < (s.fb f).clip2.x.toNat ∧
      (s.fb f).clip1.y.toNat ≤ rowOf a ∧ rowOf a < (s.fb f).clip2.y.toNat :=
  decide_eq_true_iff

/-- Settles O27: a pixel of the clip rectangle has its offset to itself. -/
theorem setpixelResult : Obligations.SetpixelResult := by
  intro s f x y c hc
  refine ⟨_, if_pos hc, plot_onlyPixels s f _, fun a => ?_⟩
  rw [plot_read hc]
  obtain ⟨-, hwidth, -⟩ := clipLegal_iff.mp hc
  refine if_congr ?_ rfl rfl
  rw [offsetInClip_iff]
  constructor
  · rintro ⟨hin, hx : x.toNat = colOf a, hy : y.toNat = rowOf a⟩
    rw [hx, hy, pixelOffset_col_row]
    exact ⟨rfl, hin⟩
  · rintro ⟨rfl, hin⟩
    have hx : x.toNat < screenWidth := by omega
    rw [colOf_pixelOffset _ hx, rowOf_pixelOffset _ hx]
    exact ⟨hin, rfl, rfl⟩

/-! ## `RECT` and `CLEAR` -/

/-- Settles O31, by the clipped fill of either back end. -/
theorem rectResult : Obligations.RectResult := by
  intro s f x1 y1 x2 y2 c hc hb
  exact ⟨_, if_pos hc, clippedFill_onlyPixels s f _ c hb, clippedFill_read hc _ c⟩

/-- Settles O32: the whole screen, cut to a legal clip rectangle, is the clip rectangle. -/
theorem clearResult : Obligations.ClearResult := by
  intro s f c hc hb
  refine ⟨_, if_pos hc, clippedFill_onlyPixels s f _ c hb, fun a => ?_⟩
  rw [clippedFill_read hc]
  obtain ⟨-, hwidth, -, hheight⟩ := clipLegal_iff.mp hc
  refine if_congr ?_ rfl rfl
  rw [offsetInClip_iff, Nat.zero_max, Nat.zero_max, min_eq_right hwidth, min_eq_right hheight]

/-! ## The line

Pixel number `i` of a line lies, in both axes, at the multiple of the extent nearest to the ideal
line (`roundedSteps`); the loop of R212 keeps exactly that (`lineLoop_eq`). -/

/-- The steps made in an axis of extent `b` after `i` pixels of a line whose major axis has extent
`a`: `i*b/a`, rounded to the nearest integer, a tie upwards (R213 (e)). -/
def roundedSteps (a b i : Nat) : Nat := (2 * (b * i) + a) / (2 * a)

section Rounding
variable {a b i : Nat}

theorem le_roundedSteps_iff (ha : 0 < a) {n : Nat} :
    n ≤ roundedSteps a b i ↔ 2 * (a * n) ≤ 2 * (b * i) + a := by
  rw [roundedSteps, Nat.le_div_iff_mul_le (by omega), Nat.mul_comm n, Nat.mul_assoc]

/-- The rounding is within half a step of the ideal line (R213 (e)). -/
theorem roundedSteps_near (ha : 0 < a) :
    2 * (a * roundedSteps a b i) ≤ 2 * (b * i) + a ∧
      2 * (b * i) < 2 * (a * roundedSteps a b i) + a := by
  have hlow := (le_roundedSteps_iff (b := b) (i := i) ha).mp le_rfl
  have hhigh := mt (le_roundedSteps_iff (b := b) (i := i) ha).mpr
    (Nat.not_succ_le_self (roundedSteps a b i))
  rw [Nat.mul_succ] at hhigh
  omega

theorem roundedSteps_zero_major : roundedSteps 0 b i = 0 := by
  rw [roundedSteps, Nat.mul_zero, Nat.div_zero]

theorem roundedSteps_zero : roundedSteps a b 0 = 0 := by
  rcases Nat.eq_zero_or_pos a with rfl | ha
  · exact roundedSteps_zero_major
  · exact Nat.div_eq_of_lt (by omega)

/-- The major axis makes one step per pixel (R213 (d)). -/
theorem roundedSteps_major (hi : i ≤ a) : roundedSteps a a i = i := by
  rcases Nat.eq_zero_or_pos a with rfl | ha
  · obtain rfl := Nat.le_zero.mp hi
    rfl
  · refine (Nat.div_eq_iff (by omega)).mpr ?_
    rw [Nat.mul_comm i, Nat.mul_assoc]
    omega

/-- The last pixel lies at the end of the extent (R213 (a)). -/
theorem roundedSteps_last (hb : b ≤ a) : roundedSteps a b a = b := by
  rcases Nat.eq_zero_or_pos a with rfl | ha
  · obtain rfl := Nat.le_zero.mp hb
    rfl
  · refine (Nat.div_eq_iff (by omega)).mpr ?_
    rw [← Nat.mul_assoc, ← Nat.mul_assoc, Nat.mul_comm 2 b, Nat.mul_assoc]
    omega

theorem roundedSteps_zero_extent : roundedSteps a 0 i = 0 := by
  rcases Nat.eq_zero_or_pos a with rfl | ha
  · exact roundedSteps_zero_major
  · exact Nat.div_eq_of_lt (by omega)

theorem roundedSteps_le (hb : b ≤ a) (hi : i ≤ a) : roundedSteps a b i ≤ b := by
  calc roundedSteps a b i ≤ roundedSteps a b a := Nat.div_le_div_right (by gcongr)
    _ = b := roundedSteps_last hb

/-- One pixel on, the axis has made one step more exactly where that many steps are rounded to. -/
theorem roundedSteps_succ (ha : 0 < a) (hb : b ≤ a) :
    roundedSteps a b (i + 1) = roundedSteps a b i +
      if 2 * (a * (roundedSteps a b i + 1)) ≤ 2 * (b * (i + 1)) + a then 1 else 0 := by
  obtain ⟨hlow, hhigh⟩ := roundedSteps_near (b := b) (i := i) ha
  have hmin := (le_roundedSteps_iff (b := b) (i := i + 1) (n := roundedSteps a b i) ha).mpr
    (by rw [Nat.mul_succ b]; omega)
  have hmax := (le_roundedSteps_iff (b := b) (i := i + 1) (n := roundedSteps a b i + 2) ha).not.mpr
    (by rw [Nat.mul_succ b, Nat.mul_add a]; omega)
  have hone := le_roundedSteps_iff (b := b) (i := i + 1) (n := roundedSteps a b i + 1) ha
  split <;> omega

end Rounding

/-- The loop of R212 decides as the rounding does: the axis of extent `a` makes a step where the
line through the next counts of both axes, the other of extent `b`, asks for one. It is the major
axis, which steps every time, or the other is, whose count is the number of the pixel. -/
theorem roundedSteps_succ_of_other {a b i : Nat} (hi : i < max a b) :
    roundedSteps (max a b) a (i + 1) = roundedSteps (max a b) a i +
      if 2 * (b * (roundedSteps (max a b) a i + 1)) ≤
        2 * (a * (roundedSteps (max a b) b i + 1)) + b then 1 else 0 := by
  have hpos : 0 < max a b := by omega
  rcases le_total b a with h | h
  · rw [max_eq_left h] at *
    obtain ⟨-, hhigh⟩ := roundedSteps_near (b := b) (i := i) hpos
    rw [roundedSteps_major hi, roundedSteps_major hi.le, if_pos]
    rw [Nat.mul_succ b, Nat.mul_succ a]
    omega
  · rw [max_eq_right h] at *
    rw [roundedSteps_succ hpos h, roundedSteps_major hi.le]

/-- Where both axes are at their ends, the line is. -/
theorem eq_of_roundedSteps_eq {a b i : Nat} (hi : i ≤ max a b)
    (ha : roundedSteps (max a b) a i = a) (hb : roundedSteps (max a b) b i = b) : i = max a b := by
  rcases le_total b a with h | h
  · rw [max_eq_left h] at *
    exact (roundedSteps_major hi).symm.trans ha
  · rw [max_eq_right h] at *
    exact (roundedSteps_major hi).symm.trans hb

/-- A line: its first pixel, its directions and its extents (R212). -/
structure LineShape where
  x : Int
  y : Int
  sx : Int
  sy : Int
  dx : Nat
  dy : Nat

section Loop
variable (l : LineShape)

/-- The extent of the major axis. -/
def LineShape.major : Nat := max l.dx l.dy

/-- The steps made in `x` up to pixel number `i`. -/
def LineShape.stepsX (i : Nat) : Nat := roundedSteps l.major l.dx i

/-- The steps made in `y` up to pixel number `i`. -/
def LineShape.stepsY (i : Nat) : Nat := roundedSteps l.major l.dy i

/-- Pixel number `i`. -/
def LineShape.pixelAt (i : Nat) : Int × Int := (l.x + l.sx * l.stepsX i, l.y + l.sy * l.stepsY i)

/-- Each direction is one pixel to the left or right, up or down. -/
structure LineShape.Directed : Prop where
  sx_natAbs : l.sx.natAbs = 1
  sy_natAbs : l.sy.natAbs = 1

/-- The error of R212 at pixel number `i`. -/
def LineShape.err (i : Nat) : Int := l.dx * (l.stepsY i + 1) - l.dy * (l.stepsX i + 1)

/-- R212: the loop's test for a step in `x`. -/
def LineShape.goesX (i : Nat) : Bool := decide (-(l.dy : Int) ≤ 2 * l.err i)

/-- R212: the loop's test for a step in `y`. -/
def LineShape.goesY (i : Nat) : Bool := decide (2 * l.err i ≤ l.dx)

variable {l} {i : Nat}

theorem LineShape.Directed.sx_ne_zero (hl : l.Directed) : l.sx ≠ 0 := by
  intro h
  simpa [h] using hl.sx_natAbs

theorem LineShape.Directed.sy_ne_zero (hl : l.Directed) : l.sy ≠ 0 := by
  intro h
  simpa [h] using hl.sy_natAbs

theorem LineShape.Directed.natAbs_sx_mul (hl : l.Directed) (n : Nat) : (l.sx * n).natAbs = n := by
  rw [Int.natAbs_mul, hl.sx_natAbs, Nat.one_mul, Int.natAbs_natCast]

theorem LineShape.Directed.natAbs_sy_mul (hl : l.Directed) (n : Nat) : (l.sy * n).natAbs = n := by
  rw [Int.natAbs_mul, hl.sy_natAbs, Nat.one_mul, Int.natAbs_natCast]

theorem LineShape.stepsX_succ (hi : i < l.major) :
    l.stepsX (i + 1) = l.stepsX i + if l.goesX i then 1 else 0 := by
  rw [stepsX, stepsX, major, roundedSteps_succ_of_other hi]
  refine congrArg _ (if_congr ?_ rfl rfl)
  rw [goesX, decide_eq_true_iff, err, ← @Nat.cast_le Int]
  simp only [stepsX, stepsY, major]
  push_cast
  constructor <;> intro h <;> linarith

theorem LineShape.stepsY_succ (hi : i < l.major) :
    l.stepsY (i + 1) = l.stepsY i + if l.goesY i then 1 else 0 := by
  rw [major, max_comm] at hi
  rw [stepsY, stepsY, major, max_comm, roundedSteps_succ_of_other hi]
  refine congrArg _ (if_congr ?_ rfl rfl)
  rw [goesY, decide_eq_true_iff, err, ← @Nat.cast_le Int, max_comm]
  simp only [stepsX, stepsY, major]
  push_cast
  constructor <;> intro h <;> linarith

theorem LineShape.stepsX_zero : l.stepsX 0 = 0 := roundedSteps_zero

theorem LineShape.stepsY_zero : l.stepsY 0 = 0 := roundedSteps_zero

theorem LineShape.stepsX_last : l.stepsX l.major = l.dx := roundedSteps_last (le_max_left _ _)

theorem LineShape.stepsY_last : l.stepsY l.major = l.dy := roundedSteps_last (le_max_right _ _)

theorem LineShape.err_zero : l.err 0 = l.dx + -(l.dy : Int) := by
  simp only [err, stepsX_zero, stepsY_zero]
  push_cast
  ring

theorem LineShape.pixelAt_zero : l.pixelAt 0 = (l.x, l.y) := by
  simp [pixelAt, stepsX_zero, stepsY_zero]

theorem LineShape.pixelAt_succ_x (hi : i < l.major) :
    (l.pixelAt (i + 1)).1 = if l.goesX i then (l.pixelAt i).1 + l.sx else (l.pixelAt i).1 := by
  rw [pixelAt, pixelAt, stepsX_succ hi]
  split <;> push_cast <;> ring

theorem LineShape.pixelAt_succ_y (hi : i < l.major) :
    (l.pixelAt (i + 1)).2 = if l.goesY i then (l.pixelAt i).2 + l.sy else (l.pixelAt i).2 := by
  rw [pixelAt, pixelAt, stepsY_succ hi]
  split <;> push_cast <;> ring

theorem LineShape.err_succ (hi : i < l.major) :
    l.err (i + 1) =
      if l.goesY i then (if l.goesX i then l.err i + -(l.dy : Int) else l.err i) + l.dx
      else if l.goesX i then l.err i + -(l.dy : Int) else l.err i := by
  rw [err, err, stepsX_succ hi, stepsY_succ hi]
  split <;> split <;> push_cast <;> ring

/-- The loop ends at the pixel whose number is the major extent, at no earlier one (R213 (b)). -/
theorem LineShape.pixelAt_eq_last_iff (hl : l.Directed) (hi : i ≤ l.major) :
    ((l.pixelAt i).1 = l.x + l.sx * l.dx ∧ (l.pixelAt i).2 = l.y + l.sy * l.dy) ↔ i = l.major := by
  constructor
  · rintro ⟨hx, hy⟩
    have hx' := Int.ofNat.inj (mul_left_cancel₀ hl.sx_ne_zero (add_left_cancel hx))
    have hy' := Int.ofNat.inj (mul_left_cancel₀ hl.sy_ne_zero (add_left_cancel hy))
    exact eq_of_roundedSteps_eq hi hx' hy'
  · rintro rfl
    simp only [pixelAt, stepsX_last, stepsY_last, and_self]

/-- The loop of R212 visits pixel number `i` and the `n` pixels after it, where `n` are left. -/
theorem lineLoop_eq (hl : l.Directed) (n i : Nat) (hi : i + n = l.major) :
    lineLoop (l.x + l.sx * l.dx) (l.y + l.sy * l.dy) l.dx (-l.dy) l.sx l.sy (n + 1)
      (l.pixelAt i).1 (l.pixelAt i).2 (l.err i) = (List.range' i (n + 1)).map l.pixelAt := by
  have hend := LineShape.pixelAt_eq_last_iff hl (show i ≤ l.major by omega)
  induction n generalizing i with
  | zero =>
    rw [lineLoop, if_pos (hend.mpr hi)]
    rfl
  | succ n ih =>
    have hlt : i < l.major := by omega
    rw [lineLoop, if_neg (mt hend.mp hlt.ne), List.range'_succ, List.map_cons,
      ← ih (i + 1) (by omega) (LineShape.pixelAt_eq_last_iff hl hlt)]
    rw [LineShape.pixelAt_succ_x hlt, LineShape.pixelAt_succ_y hlt, LineShape.err_succ hlt]
    rfl

/-! ### What R213 says of pixel number `i` -/

theorem LineShape.stepsX_of_major (h : l.dy ≤ l.dx) (hi : i ≤ l.major) : l.stepsX i = i := by
  rw [major, max_eq_left h] at hi
  rw [stepsX, major, max_eq_left h, roundedSteps_major hi]

theorem LineShape.stepsY_of_major (h : l.dx ≤ l.dy) (hi : i ≤ l.major) : l.stepsY i = i := by
  rw [major, max_eq_right h] at hi
  rw [stepsY, major, max_eq_right h, roundedSteps_major hi]

theorem LineShape.stepsX_of_vertical (h : l.dx = 0) : l.stepsX i = 0 := by
  rw [stepsX, h, roundedSteps_zero_extent]

theorem LineShape.stepsY_of_horizontal (h : l.dy = 0) : l.stepsY i = 0 := by
  rw [stepsY, h, roundedSteps_zero_extent]

theorem LineShape.stepsX_le (hi : i ≤ l.major) : l.stepsX i ≤ l.dx :=
  roundedSteps_le (le_max_left _ _) hi

theorem LineShape.stepsY_le (hi : i ≤ l.major) : l.stepsY i ≤ l.dy :=
  roundedSteps_le (le_max_right _ _) hi

/-- How far pixel number `i` is off the ideal line, times the major extent (R213 (e)). -/
def LineShape.deviation (l : LineShape) (i : Nat) : Int := l.dx * l.stepsY i - l.dy * l.stepsX i

theorem LineShape.deviation_near (hi : i ≤ l.major) : 2 * (l.deviation i).natAbs ≤ l.major := by
  rcases Nat.eq_zero_or_pos l.major with hzero | hpos
  · have hx : l.dx = 0 := Nat.le_zero.mp (hzero ▸ le_max_left l.dx l.dy)
    have hy : l.dy = 0 := Nat.le_zero.mp (hzero ▸ le_max_right l.dx l.dy)
    simp [deviation, hx, hy]
  · rcases le_total l.dy l.dx with h | h
    · obtain ⟨hlow, hhigh⟩ := roundedSteps_near (b := l.dy) (i := i) hpos
      have hm : l.major = l.dx := max_eq_left h
      rw [deviation, stepsX_of_major h hi, stepsY, hm]
      rw [hm] at hlow hhigh
      zify at hlow hhigh
      omega
    · obtain ⟨hlow, hhigh⟩ := roundedSteps_near (b := l.dx) (i := i) hpos
      have hm : l.major = l.dy := max_eq_right h
      rw [deviation, stepsY_of_major h hi, stepsX, hm]
      rw [hm] at hlow hhigh
      zify at hlow hhigh
      omega

/-- On an exact diagonal every pixel is a pixel of the ideal line. -/
theorem LineShape.deviation_diagonal (h : l.dx = l.dy) (hi : i ≤ l.major) : l.deviation i = 0 := by
  rw [deviation, stepsX_of_major h.ge hi, stepsY_of_major h.le hi, h, sub_self]

/-- The cross product of R213 (e), with its signs, is the deviation up to sign. -/
theorem LineShape.cross_natAbs (hl : l.Directed) :
    (l.sy * l.stepsY i * (l.sx * l.dx) - l.sx * l.stepsX i * (l.sy * l.dy)).natAbs =
      (l.deviation i).natAbs := by
  have hcross : l.sy * l.stepsY i * (l.sx * l.dx) - l.sx * l.stepsX i * (l.sy * l.dy) =
      l.sx * (l.sy * l.deviation i) := by
    rw [deviation]
    ring
  rw [hcross, Int.natAbs_mul, Int.natAbs_mul, hl.sx_natAbs, hl.sy_natAbs, Nat.one_mul, Nat.one_mul]

/-- R213 (d), (e), with the extents and counts signed by their directions. -/
theorem LineShape.pixelAt_ideal (hl : l.Directed) (hi : i ≤ l.major) :
    let dx := l.sx * l.dx
    let dy := l.sy * l.dy
    let u := l.sx * l.stepsX i
    let v := l.sy * l.stepsY i
    (dy.natAbs ≤ dx.natAbs → u.natAbs = i ∧ 2 * (v * dx - u * dy).natAbs ≤ dx.natAbs) ∧
    (dx.natAbs ≤ dy.natAbs → v.natAbs = i ∧ 2 * (v * dx - u * dy).natAbs ≤ dy.natAbs) ∧
    (dy = 0 → v = 0) ∧ (dx = 0 → u = 0) ∧ (dx.natAbs = dy.natAbs → v * dx = u * dy) := by
  intro dx dy u v
  have hdx : dx.natAbs = l.dx := hl.natAbs_sx_mul l.dx
  have hdy : dy.natAbs = l.dy := hl.natAbs_sy_mul l.dy
  have hu : u.natAbs = l.stepsX i := hl.natAbs_sx_mul (l.stepsX i)
  have hv : v.natAbs = l.stepsY i := hl.natAbs_sy_mul (l.stepsY i)
  have hcross : (v * dx - u * dy).natAbs = (l.deviation i).natAbs := cross_natAbs hl
  have hnear := deviation_near hi
  rw [hcross, hdx, hdy, hu, hv]
  refine ⟨fun h => ⟨stepsX_of_major h hi, ?_⟩, fun h => ⟨stepsY_of_major h hi, ?_⟩,
    fun h => ?_, fun h => ?_, fun h => ?_⟩
  · rwa [major, max_eq_left h] at hnear
  · rwa [major, max_eq_right h] at hnear
  · exact Int.natAbs_eq_zero.mp (hv.trans (stepsY_of_horizontal (by rw [← hdy, h]; rfl)))
  · exact Int.natAbs_eq_zero.mp (hu.trans (stepsX_of_vertical (by rw [← hdx, h]; rfl)))
  · rw [deviation_diagonal h hi] at hcross
    exact sub_eq_zero.mp (Int.natAbs_eq_zero.mp hcross)

/-- No two of the pixels coincide: the major axis steps at every pixel (R213 (c), (d)). -/
theorem LineShape.pixelAt_inj (hl : l.Directed) {j : Nat} (hi : i ≤ l.major) (hj : j ≤ l.major)
    (h : l.pixelAt i = l.pixelAt j) : i = j := by
  obtain ⟨hx, hy⟩ := Prod.mk.inj h
  rcases le_total l.dy l.dx with hm | hm
  · have := Int.ofNat.inj (mul_left_cancel₀ hl.sx_ne_zero (add_left_cancel hx))
    rwa [stepsX_of_major hm hi, stepsX_of_major hm hj] at this
  · have := Int.ofNat.inj (mul_left_cancel₀ hl.sy_ne_zero (add_left_cancel hy))
    rwa [stepsY_of_major hm hi, stepsY_of_major hm hj] at this

/-- Neighbouring pixels touch (R213 (c)). -/
theorem LineShape.pixelAt_succ_near (hl : l.Directed) (hi : i < l.major) :
    ((l.pixelAt (i + 1)).1 - (l.pixelAt i).1).natAbs ≤ 1 ∧
      ((l.pixelAt (i + 1)).2 - (l.pixelAt i).2).natAbs ≤ 1 := by
  have hsx := hl.sx_natAbs
  have hsy := hl.sy_natAbs
  rw [pixelAt_succ_x hi, pixelAt_succ_y hi]
  constructor <;> split <;> omega

end Loop

/-! ## The pixels of a line -/

/-- The shape of the line from `(x1, y1)` to `(x2, y2)` (R212). -/
def lineShape (x1 y1 x2 y2 : U16) : LineShape where
  x := x1.toNat
  y := y1.toNat
  sx := if (x1.toNat : Int) < x2.toNat then 1 else -1
  sy := if (y1.toNat : Int) < y2.toNat then 1 else -1
  dx := ((x2.toNat : Int) - x1.toNat).natAbs
  dy := ((y2.toNat : Int) - y1.toNat).natAbs

section Line
variable {x1 y1 x2 y2 : U16} {i : Nat}

/-- The direction of R212 from `a` to `b` points to `b`. -/
theorem direction_mul_natAbs (a b : Int) :
    (if a < b then 1 else -1) * ((b - a).natAbs : Int) = b - a := by
  split <;> omega

/-- The steps made from `a` towards `b` never lead below both. -/
theorem between_nonneg {a b n : Nat} (h : n ≤ ((b : Int) - a).natAbs) :
    0 ≤ (a : Int) + (if (a : Int) < b then 1 else -1) * n := by
  split <;> omega

theorem lineShape_dx_signed :
    (lineShape x1 y1 x2 y2).sx * (lineShape x1 y1 x2 y2).dx = (x2.toNat : Int) - x1.toNat :=
  direction_mul_natAbs _ _

theorem lineShape_dy_signed :
    (lineShape x1 y1 x2 y2).sy * (lineShape x1 y1 x2 y2).dy = (y2.toNat : Int) - y1.toNat :=
  direction_mul_natAbs _ _

theorem lineShape_directed : (lineShape x1 y1 x2 y2).Directed := by
  constructor <;> simp only [lineShape] <;> split <;> rfl

/-- The pixels of a line, numbered (R213). -/
theorem linePoints_eq : linePoints x1 y1 x2 y2 =
    (List.range ((lineShape x1 y1 x2 y2).major + 1)).map (lineShape x1 y1 x2 y2).pixelAt := by
  have hloop := lineLoop_eq lineShape_directed (lineShape x1 y1 x2 y2).major 0 (Nat.zero_add _)
  rw [lineShape_dx_signed, lineShape_dy_signed, LineShape.pixelAt_zero, LineShape.err_zero] at hloop
  rw [List.range_eq_range', ← hloop]
  simp only [lineShape, add_sub_cancel]
  rfl

theorem linePoints_getElem? {p : Int × Int} (h : (linePoints x1 y1 x2 y2)[i]? = some p) :
    i ≤ (lineShape x1 y1 x2 y2).major ∧ (lineShape x1 y1 x2 y2).pixelAt i = p := by
  rw [linePoints_eq, List.getElem?_map, Option.map_eq_some_iff] at h
  obtain ⟨k, hk, hp⟩ := h
  obtain ⟨hlt, rfl⟩ := List.getElem?_eq_some_iff.mp hk
  rw [List.length_range] at hlt
  rw [List.getElem_range] at hp
  exact ⟨Nat.lt_succ_iff.mp hlt, hp⟩

theorem linePoints_nodup : (linePoints x1 y1 x2 y2).Nodup := by
  rw [linePoints_eq]
  refine List.nodup_range.map_on fun i hi j hj h => ?_
  exact LineShape.pixelAt_inj lineShape_directed (Nat.lt_succ_iff.mp (List.mem_range.mp hi))
    (Nat.lt_succ_iff.mp (List.mem_range.mp hj)) h

theorem linePoints_head :
    (linePoints x1 y1 x2 y2).head? = some ((x1.toNat : Int), (y1.toNat : Int)) := by
  rw [linePoints_eq, List.head?_map, List.head?_range, if_neg (Nat.succ_ne_zero _), Option.map_some,
    LineShape.pixelAt_zero]
  rfl

theorem lineShape_pixelAt_last :
    (lineShape x1 y1 x2 y2).pixelAt (lineShape x1 y1 x2 y2).major =
      ((x2.toNat : Int), (y2.toNat : Int)) := by
  rw [LineShape.pixelAt, LineShape.stepsX_last, LineShape.stepsY_last, lineShape_dx_signed,
    lineShape_dy_signed]
  simp only [lineShape, add_sub_cancel]

theorem linePoints_last :
    (linePoints x1 y1 x2 y2).getLast? = some ((x2.toNat : Int), (y2.toNat : Int)) := by
  rw [linePoints_eq, List.getLast?_map, List.getLast?_range, if_neg (Nat.succ_ne_zero _),
    Option.map_some, Nat.add_sub_cancel, lineShape_pixelAt_last]

theorem linePoints_length :
    (linePoints x1 y1 x2 y2).length = (lineShape x1 y1 x2 y2).major + 1 := by
  rw [linePoints_eq, List.length_map, List.length_range]

/-- R213: a visited pixel lies between the two ends, so its coordinates are no negative numbers. -/
theorem linePoints_nonneg {p : Int × Int} (h : p ∈ linePoints x1 y1 x2 y2) : 0 ≤ p.1 ∧ 0 ≤ p.2 := by
  rw [linePoints_eq, List.mem_map] at h
  obtain ⟨i, hi, rfl⟩ := h
  have hi' := Nat.lt_succ_iff.mp (List.mem_range.mp hi)
  exact ⟨between_nonneg (LineShape.stepsX_le hi'), between_nonneg (LineShape.stepsY_le hi')⟩

end Line

/-- Settles O29, from the numbered pixels of a line. -/
theorem lineVisitsEndToEnd : Obligations.LineVisitsEndToEnd := by
  intro x1 y1 x2 y2
  refine ⟨linePoints_head, linePoints_last, linePoints_length, linePoints_nodup, ?_⟩
  intro i p q hp hq
  obtain ⟨-, rfl⟩ := linePoints_getElem? hp
  obtain ⟨hlast, rfl⟩ := linePoints_getElem? hq
  exact LineShape.pixelAt_succ_near lineShape_directed hlast

/-- Settles O30: the axes step as the ideal line rounds. -/
theorem lineStaysNearTheIdeal : Obligations.LineStaysNearTheIdeal := by
  intro x1 y1 x2 y2 i p hp
  obtain ⟨hi, rfl⟩ := linePoints_getElem? hp
  have hx : ((lineShape x1 y1 x2 y2).pixelAt i).1 - x1.toNat =
    (lineShape x1 y1 x2 y2).sx * (lineShape x1 y1 x2 y2).stepsX i := add_sub_cancel_left _ _
  have hy : ((lineShape x1 y1 x2 y2).pixelAt i).2 - y1.toNat =
    (lineShape x1 y1 x2 y2).sy * (lineShape x1 y1 x2 y2).stepsY i := add_sub_cancel_left _ _
  dsimp only
  rw [hx, hy, ← lineShape_dx_signed (y1 := y1) (y2 := y2),
    ← lineShape_dy_signed (x1 := x1) (x2 := x2)]
  exact LineShape.pixelAt_ideal lineShape_directed hi

/-! ## `LINE` -/

theorem linePixels_paints (x1 y1 x2 y2 : U16) (c : Byte) :
    Paints (linePixels x1 y1 x2 y2 c)
      (fun x y => ((x : Int), (y : Int)) ∈ linePoints x1 y1 x2 y2) (fun _ _ => c) := by
  intro p
  rw [linePixels, List.mem_map]
  constructor
  · rintro ⟨q, hq, rfl⟩
    obtain ⟨hx, hy⟩ := linePoints_nonneg hq
    simpa only [Int.toNat_of_nonneg hx, Int.toNat_of_nonneg hy, and_true] using hq
  · rintro ⟨hmem, hc⟩
    exact ⟨_, hmem, congrArg (Pixel.mk p.x p.y) hc.symm⟩

/-- Settles O28: the pixels of a line are a picture in one colour. -/
theorem lineResult : Obligations.LineResult := by
  intro s f x1 y1 x2 y2 c hc
  exact ⟨_, if_pos hc, plotAll_onlyPixels s f _,
    fun a => (linePixels_paints x1 y1 x2 y2 c).plotAll_read hc a⟩

/-! ## The 2-bit decoder -/

/-- The accumulator of R217 with the byte `d` loaded and `k` groups shifted out. -/
def accAfter (d : Byte) (k : Nat) : BitVec 9 := ((0x100 : BitVec 9) ||| d.setWidth 9) >>> (2 * k)

section Accumulator
variable {d : Byte} {k : Nat}

/-- The sentinel stands above the bits that are left. -/
theorem accAfter_toNat : (accAfter d k).toNat = (256 + d.toNat) / 2 ^ (2 * k) := by
  have hload : (0x100 ||| d.setWidth 9 : BitVec 9).toNat = 256 + d.toNat := by
    rw [BitVec.toNat_or, BitVec.toNat_setWidth_of_le (by decide)]
    exact (Nat.two_pow_add_eq_or_of_lt (i := 8) d.isLt 1).symm
  rw [accAfter, BitVec.toNat_ushiftRight, hload, Nat.shiftRight_eq_div_pow]

/-- The accumulator is 1 when, and only when, the four groups of the byte are out. -/
theorem accAfter_eq_one_iff (hk : k ≤ 4) : accAfter d k = 1 ↔ k = 4 := by
  have hd := d.isLt
  have hone : (1 : BitVec 9).toNat = 1 := rfl
  rw [← BitVec.toNat_inj, accAfter_toNat, hone]
  interval_cases k <;> omega

theorem accAfter_succ : accAfter d k >>> 2 = accAfter d (k + 1) := by
  rw [accAfter, accAfter, ← BitVec.shiftRight_add]
  rfl

/-- The lowest two bits are the group of pixel `k` of the byte (R217). -/
theorem accAfter_group (hk : k < 4) (rest : List Byte) :
    (accAfter d k).extractLsb' 0 2 = groupAt (d :: rest) 0 k := by
  have hd := d.isLt
  have hdiv : 0 + k / 4 = 0 := by omega
  have hmod : k % 4 = k := by omega
  apply BitVec.eq_of_toNat_eq
  rw [BitVec.extractLsb'_toNat, accAfter_toNat, groupAt, hdiv, hmod, BitVec.toNat_ofNat,
    List.getD_cons_zero, Nat.shiftRight_zero, Nat.shiftRight_eq_div_pow]
  interval_cases k <;> omega

theorem groupAt_cons (rest : List Byte) (m : Nat) :
    groupAt (d :: rest) 0 (m + 4) = groupAt rest 0 m := by
  have hdiv : 0 + (m + 4) / 4 = 0 + m / 4 + 1 := by omega
  have hmod : (m + 4) % 4 = m % 4 := by omega
  rw [groupAt, groupAt, hdiv, hmod, List.getD_cons_succ]

theorem unpack2bpp_of_ne_one {n : Nat} {acc : BitVec 9} {data : List Byte} (h : acc ≠ 1) :
    unpack2bpp (n + 1) acc data = acc.extractLsb' 0 2 :: unpack2bpp n (acc >>> 2) data := by
  rw [unpack2bpp.eq_def]
  exact if_neg h

/-- An empty accumulator takes the next byte (R217). -/
theorem unpack2bpp_load (n : Nat) (rest : List Byte) :
    unpack2bpp n 1 (d :: rest) = unpack2bpp n (accAfter d 0) rest := by
  cases n with
  | zero => rfl
  | succ n =>
    have hne : accAfter d 0 ≠ 1 := mt (accAfter_eq_one_iff (Nat.zero_le 4)).mp (by decide)
    rw [unpack2bpp_of_ne_one hne]
    rfl

theorem unpack2bpp_shift (hk : k < 4) (n : Nat) (rest : List Byte) :
    unpack2bpp (n + 1) (accAfter d k) rest =
      groupAt (d :: rest) 0 k :: unpack2bpp n (accAfter d (k + 1)) rest := by
  have hne : accAfter d k ≠ 1 := mt (accAfter_eq_one_iff hk.le).mp hk.ne
  rw [unpack2bpp_of_ne_one hne, accAfter_succ, accAfter_group hk]

theorem map_range_succ {α : Type} (g : Nat → α) (n : Nat) :
    (List.range (n + 1)).map g = g 0 :: (List.range n).map (fun m => g (m + 1)) := by
  rw [List.range_succ_eq_map, List.map_cons, List.map_map]
  rfl

/-- With `k` groups of the byte `d` out, the next groups are those numbered from `k` on. -/
theorem unpack2bpp_accAfter (n : Nat) (d : Byte) (k : Nat) (rest : List Byte) (hk : k ≤ 4)
    (hn : k + n ≤ 4 * (rest.length + 1)) :
    unpack2bpp n (accAfter d k) rest =
      (List.range n).map (fun m => groupAt (d :: rest) 0 (m + k)) := by
  induction n generalizing d k rest with
  | zero => rfl
  | succ n ih =>
    rcases Nat.lt_or_eq_of_le hk with hlt | rfl
    · rw [unpack2bpp_shift hlt, ih d (k + 1) rest hlt (by omega), map_range_succ, Nat.zero_add]
      simp only [Nat.add_assoc, Nat.add_comm 1 k]
    · cases rest with
      | nil => simp only [List.length_nil] at hn; omega
      | cons e rest =>
        rw [List.length_cons] at hn
        rw [(accAfter_eq_one_iff le_rfl).mpr rfl, unpack2bpp_load, unpack2bpp_shift (by decide),
          ih e 1 rest (by decide) (by omega)]
        simp only [groupAt_cons]
        rw [map_range_succ]

end Accumulator

/-- Settles O36: the empty accumulator is that of a byte with all four groups out. -/
theorem accumulatorReadsTheClosedForm : Obligations.AccumulatorReadsTheClosedForm := by
  intro n data hn
  rw [← (accAfter_eq_one_iff (d := 0) le_rfl).mpr rfl,
    unpack2bpp_accAfter n 0 4 data le_rfl (by omega)]
  simp only [groupAt_cons]

/-! ## Pictures -/

theorem groupAt_drop (data : List Byte) (off n : Nat) :
    groupAt (data.drop off) 0 n = groupAt data off n := by
  rw [groupAt, groupAt, List.getD_eq_getElem?_getD, List.getElem?_drop, Nat.zero_add,
    List.getD_eq_getElem?_getD]

theorem cell_div_mod {w col : Nat} (row : Nat) (h : col < w) :
    (row * w + col) / w = row ∧ (row * w + col) % w = col :=
  (Nat.div_mod_unique (Nat.zero_lt_of_lt h)).mpr ⟨by rw [Nat.add_comm, Nat.mul_comm], h⟩

/-- R217: the cells of a picture, numbered row by row. -/
theorem pictureCells_eq (w h : Nat) :
    pictureCells w h = (List.range (h * w)).map (fun n => (n % w, n / w)) := by
  induction h with
  | zero => rw [Nat.zero_mul]; rfl
  | succ h ih =>
    have hlast : (List.range w).map (fun col => ((h * w + col) % w, (h * w + col) / w)) =
        (List.range w).map (fun col => (col, h)) := by
      refine List.map_congr_left fun col hcol => ?_
      obtain ⟨hdiv, hmod⟩ := cell_div_mod h (List.mem_range.mp hcol)
      rw [hdiv, hmod]
    rw [pictureCells] at ih ⊢
    rw [List.range_succ, List.flatMap_append, ih, List.flatMap_singleton, Nat.succ_mul,
      List.range_add, List.map_append, List.map_map, ← hlast]
    rfl

section Blit
variable {px py w h : Nat} {pal : Palette} {data : List Byte} {off : Nat}

/-- The pixels of a picture whose bytes are all there, numbered (R217). -/
theorem blitPixels_eq (hlen : off + pictureBytes w h ≤ data.length) :
    blitPixels px py w h pal data off = (List.range (h * w)).map (fun n =>
      { x := px + n % w, y := py + n / w, c := pal.pick (groupAt data off n) }) := by
  have hgroups : w * h ≤ 4 * (data.drop off).length := by
    rw [List.length_drop]
    rw [pictureBytes] at hlen
    omega
  rw [blitPixels, accumulatorReadsTheClosedForm _ _ hgroups, Nat.mul_comm w h, pictureCells_eq,
    List.zip_map', List.map_map]
  simp only [groupAt_drop]
  rfl

/-- R217: a picture holds the pixels of its rectangle, each in the palette entry of its group. -/
theorem blitPixels_paints (hlen : off + pictureBytes w h ≤ data.length) :
    Paints (blitPixels px py w h pal data off)
      (fun x y => px ≤ x ∧ x < px + w ∧ py ≤ y ∧ y < py + h)
      (fun x y => pal.pick (groupAt data off ((y - py) * w + (x - px)))) := by
  intro p
  rw [blitPixels_eq hlen, List.mem_map]
  constructor
  · rintro ⟨n, hn, rfl⟩
    have hn' : n < h * w := List.mem_range.mp hn
    have hcol : n % w < w := Nat.mod_lt n (Nat.pos_of_mul_pos_left (Nat.zero_lt_of_lt hn'))
    have hrow : n / w < h := Nat.div_lt_of_lt_mul (Nat.mul_comm h w ▸ hn')
    simp only [Nat.add_sub_cancel_left, Nat.div_add_mod']
    exact ⟨⟨Nat.le_add_right _ _, Nat.add_lt_add_left hcol px, Nat.le_add_right _ _,
      Nat.add_lt_add_left hrow py⟩, trivial⟩
  · rintro ⟨⟨hx, hxw, hy, hyh⟩, hc⟩
    obtain ⟨hdiv, hmod⟩ := cell_div_mod (p.y - py) (show p.x - px < w by omega)
    have hlt : (p.y - py) * w + (p.x - px) < h * w := by
      calc (p.y - py) * w + (p.x - px) < (p.y - py + 1) * w := by rw [Nat.succ_mul]; omega
        _ ≤ h * w := Nat.mul_le_mul_right w (by omega)
    refine ⟨_, List.mem_range.mpr hlt, ?_⟩
    rw [hdiv, hmod, Nat.add_sub_cancel' hx, Nat.add_sub_cancel' hy]
    exact congrArg (Pixel.mk p.x p.y) hc.symm

end Blit

/-! ## `IMAGE` -/

/-- R228: a picture with no column or row from 65536 on forms no coordinate above 65535. -/
theorem pictureFits_of_le {x y w h : Nat}
    (hfit : w = 0 ∨ h = 0 ∨ (x + w ≤ 65536 ∧ y + h ≤ 65536)) : pictureFits x y w h = true := by
  simp only [pictureFits, Bool.or_eq_true, beq_iff_eq, decide_eq_true_eq, maxCoord]
  omega

/-- Settles O38: the data are a picture at `(x, y)`. -/
theorem imageResult : Obligations.ImageResult := by
  intro s f x y w h pal data hlen hc hfit
  have hlen' : 0 + pictureBytes w.toNat h.toNat ≤ data.length := (Nat.zero_add _).trans_le hlen
  refine ⟨_, ?_, plotAll_onlyPixels s f _, fun a => (blitPixels_paints hlen').plotAll_read hc a⟩
  exact (if_pos hlen).trans ((if_pos (pictureFits_of_le hfit)).trans (if_pos hc))

/-! ## `TEXT` -/

/-- A well-formed font holds every byte of every glyph (R32). -/
theorem offsetOf_le {t : Font} (hwf : t.wf = true) (code : Byte) :
    t.offsetOf code + pictureBytes t.charW t.charH ≤ t.glyphData.length := by
  simp only [Font.wf, Bool.and_eq_true, List.all_eq_true, decide_eq_true_eq] at hwf
  obtain ⟨-, hall⟩ := hwf
  exact hall _ (Vector.mem_toList_iff.mpr (Vector.getElem_mem code.isLt))

/-- R220: the glyphs of a text, numbered from `i` on. -/
theorem textPixelsFrom_eq (x y : Nat) (t : Font) (pal : Palette) (i : Nat) (codes : List Byte) :
    textPixelsFrom x y t pal i codes = (codes.zipIdx i).flatMap (fun r =>
      blitPixels (x + r.2 * t.charW) y t.charW t.charH pal t.glyphData (t.offsetOf r.1)) := by
  induction codes generalizing i with
  | nil => rfl
  | cons code codes ih => rw [textPixelsFrom, ih, List.zipIdx_cons, List.flatMap_cons]

/-- R220: a text holds the pixels of its row of glyph cells, each as its glyph has it. -/
theorem textPixels_paints {x y : Nat} {t : Font} {pal : Palette} {codes : List Byte}
    (hwf : t.wf = true) :
    Paints (textPixels x y t pal codes)
      (fun u v => x ≤ u ∧ u < x + codes.length * t.charW ∧ y ≤ v ∧ v < y + t.charH)
      (fun u v => pal.pick (groupAt t.glyphData
        (t.offsetOf (codes.getD ((u - x) / t.charW) 0))
        ((v - y) * t.charW + (u - x) % t.charW))) := by
  intro p
  rw [textPixels, textPixelsFrom_eq, List.mem_flatMap]
  constructor
  · rintro ⟨⟨code, i⟩, hi, hp⟩
    obtain ⟨⟨hx, hxw, hy, hyh⟩, hc⟩ := (blitPixels_paints (offsetOf_le hwf code) p).mp hp
    dsimp only at hx hxw hc
    have hcode : codes[i]? = some code := List.mk_mem_zipIdx_iff_getElem?.mp hi
    obtain ⟨hlt, -⟩ := List.getElem?_eq_some_iff.mp hcode
    have hcell : i * t.charW + (p.x - (x + i * t.charW)) = p.x - x := by omega
    obtain ⟨hdiv, hmod⟩ := cell_div_mod i (show p.x - (x + i * t.charW) < t.charW by omega)
    rw [hcell] at hdiv hmod
    have hwidth : (i + 1) * t.charW ≤ codes.length * t.charW := Nat.mul_le_mul_right _ hlt
    rw [Nat.succ_mul] at hwidth
    refine ⟨⟨by omega, by omega, hy, hyh⟩, ?_⟩
    dsimp only
    rw [hdiv, hmod, List.getD_eq_getElem?_getD, hcode, Option.getD_some, hc]
  · rintro ⟨⟨hx, hxw, hy, hyh⟩, hc⟩
    have hlt : (p.x - x) / t.charW < codes.length :=
      Nat.div_lt_of_lt_mul (by rw [Nat.mul_comm]; omega)
    have hcol : (p.x - x) % t.charW < t.charW := Nat.mod_lt _ (Nat.pos_of_ne_zero fun h => by
      rw [h, Nat.mul_zero] at hxw; omega)
    have hcell := Nat.div_add_mod' (p.x - x) t.charW
    have hmod : p.x - (x + (p.x - x) / t.charW * t.charW) = (p.x - x) % t.charW := by omega
    refine ⟨(codes[(p.x - x) / t.charW], (p.x - x) / t.charW),
      List.mk_mem_zipIdx_iff_getElem?.mpr (List.getElem?_eq_getElem hlt),
      (blitPixels_paints (offsetOf_le hwf _) p).mpr ⟨⟨?_, ?_, hy, hyh⟩, ?_⟩⟩
    · dsimp only; omega
    · dsimp only; omega
    · dsimp only at hc ⊢
      rw [hc, hmod, List.getD_eq_getElem?_getD, List.getElem?_eq_getElem hlt, Option.getD_some]

/-- Settles O37: the glyphs of a text are one picture. -/
theorem textResult : Obligations.TextResult := by
  intro s f x y k pal codes t hfont hwf hc hfit
  refine ⟨_, ?_, plotAll_onlyPixels s f _, fun a => (textPixels_paints hwf).plotAll_read hc a⟩
  have hfits : pictureFits x.toNat y.toNat (codes.length * t.charW) t.charH = true := by
    refine pictureFits_of_le ?_
    rcases hfit with rfl | hfit
    · exact .inl (Nat.zero_mul _)
    · exact .inr (.inr hfit)
  simp only [exec, execText, hfont, hwf, hfits, hc, if_true]

/-! ## The clipping of a copy -/

section CopyClip
variable {o : CopyOperands}

theorem allInside_iff : o.allInside = true ↔
    (o.sx1.toNat < o.sx2.toNat ∧ o.sy1.toNat < o.sy2.toNat) ∧
      (o.clip1.x.toNat ≤ o.sx1.toNat ∧ o.sx2.toNat ≤ o.clip2.x.toNat ∧
        o.clip1.y.toNat ≤ o.sy1.toNat ∧ o.sy2.toNat ≤ o.clip2.y.toNat) ∧
      o.clip1.x.toNat ≤ o.dx.toNat ∧
        o.dx.toNat + (o.sx2.toNat - o.sx1.toNat) ≤ o.clip2.x.toNat ∧
        o.clip1.y.toNat ≤ o.dy.toNat ∧
        o.dy.toNat + (o.sy2.toNat - o.sy1.toNat) ≤ o.clip2.y.toNat := by
  simp only [CopyOperands.allInside, CopyOperands.emptySource, Bool.and_eq_true,
    Bool.not_eq_true', decide_eq_false_iff_not, clipHolds_iff, not_or, not_le, and_assoc]
  refine and_congr_right fun hx => and_congr_right fun hy => ?_
  rw [Nat.add_sub_cancel' hx.le, Nat.add_sub_cancel' hy.le]

/-- P1, P2 and a positive size (R219): destination and source lie in the clip rectangle, the source
in the operands' source too. -/
abbrev CopyWithin (o : CopyOperands) (j : CopyJob) : Prop :=
  (o.clip1.x.toNat ≤ j.tx ∧ j.tx + j.nx ≤ o.clip2.x.toNat ∧
    o.clip1.y.toNat ≤ j.ty ∧ j.ty + j.ny ≤ o.clip2.y.toNat) ∧
  (o.clip1.x.toNat ≤ j.sx ∧ j.sx + j.nx ≤ o.clip2.x.toNat ∧
    o.clip1.y.toNat ≤ j.sy ∧ j.sy + j.ny ≤ o.clip2.y.toNat) ∧
  (o.sx1.toNat ≤ j.sx ∧ j.sx + j.nx ≤ o.sx2.toNat ∧
    o.sy1.toNat ≤ j.sy ∧ j.sy + j.ny ≤ o.sy2.toNat) ∧
  1 ≤ j.nx ∧ 1 ≤ j.ny

theorem emptySource_iff : o.emptySource = true ↔
    o.sx2.toNat ≤ o.sx1.toNat ∨ o.sy2.toNat ≤ o.sy1.toNat :=
  decide_eq_true_iff

theorem rect_empty_iff {r : Rect} : r.empty = true ↔ r.x2 ≤ r.x1 ∨ r.y2 ≤ r.y1 :=
  decide_eq_true_iff

theorem copyClipTranslate_within {j : CopyJob} (h : copyClipTranslate o = some j) :
    CopyWithin o j := by
  simp only [copyClipTranslate, emptySource_iff] at h
  split at h
  · cases h
  · rename_i hsrc
    obtain ⟨hsx, hsy⟩ := not_or.mp hsrc
    split at h
    · cases h
    · rename_i hsize
      obtain ⟨hnx, hny⟩ := not_or.mp hsize
      cases h
      obtain ⟨hx1, hx2, hx3, hx4, hx5, hx6⟩ := translate_axis (not_le.mp hsx) hnx
      obtain ⟨hy1, hy2, hy3, hy4, hy5, hy6⟩ := translate_axis (not_le.mp hsy) hny
      exact ⟨⟨hx1, hx2, hy1, hy2⟩, ⟨hx3, hx4, hy3, hy4⟩,
        ⟨Nat.le_add_right _ _, hx5, Nat.le_add_right _ _, hy5⟩, hx6, hy6⟩

theorem copyClipIndependent_within {j : CopyJob} (h : copyClipIndependent o = some j) :
    CopyWithin o j := by
  simp only [copyClipIndependent, rect_empty_iff] at h
  split at h
  · cases h
  · rename_i hsrc
    obtain ⟨hsx, hsy⟩ := not_or.mp hsrc
    split at h
    · cases h
    · rename_i hdst
      obtain ⟨hdx, hdy⟩ := not_or.mp hdst
      cases h
      obtain ⟨hx1, hx2, hx3, hx4, hx5, hx6, hx7⟩ := independent_axis hsx hdx
      obtain ⟨hy1, hy2, hy3, hy4, hy5, hy6, hy7⟩ := independent_axis hsy hdy
      exact ⟨⟨hx1, hx2, hy1, hy2⟩, ⟨hx3, hx4, hy3, hy4⟩, ⟨hx5, hx6, hy5, hy6⟩, hx7, hy7⟩

/-- A span inside the clip, copied to a span inside the clip, is trimmed at neither end. -/
theorem translate_axis_inside {c1 c2 s1 s2 d : Nat} (hs1 : c1 ≤ s1) (hs2 : s2 ≤ c2) (hd1 : c1 ≤ d)
    (hd2 : d + (s2 - s1) ≤ c2) :
    max (c1 - s1) (c1 - d) = 0 ∧ max (s2 - c2) (d + (s2 - s1) - c2) = 0 := by
  omega

theorem copyClipTranslate_of_allInside (h : o.allInside = true) :
    copyClipTranslate o = some o.whole := by
  obtain ⟨⟨hx, hy⟩, ⟨hsx1, hsx2, hsy1, hsy2⟩, hdx1, hdx2, hdy1, hdy2⟩ := allInside_iff.mp h
  obtain ⟨hl, hr⟩ := translate_axis_inside hsx1 hsx2 hdx1 hdx2
  obtain ⟨ht, hb⟩ := translate_axis_inside hsy1 hsy2 hdy1 hdy2
  simp only [copyClipTranslate, emptySource_iff, hl, hr, ht, hb]
  rw [if_neg (not_or.mpr ⟨hx.not_ge, hy.not_ge⟩),
    if_neg (not_or.mpr ⟨(Nat.sub_pos_of_lt hx).not_ge, (Nat.sub_pos_of_lt hy).not_ge⟩)]
  rfl

/-- A rectangle inside the clip rectangle is its own clipping (R214). -/
theorem clipRect_of_inside {c1 c2 : Pos} {r : Rect} (hx1 : c1.x.toNat ≤ r.x1)
    (hx2 : r.x2 ≤ c2.x.toNat) (hy1 : c1.y.toNat ≤ r.y1) (hy2 : r.y2 ≤ c2.y.toNat) :
    clipRect c1 c2 r = r := by
  rw [clipRect, max_eq_left hx1, max_eq_left hy1, min_eq_left hx2, min_eq_left hy2]

theorem copyClipIndependent_of_allInside (h : o.allInside = true) :
    copyClipIndependent o = some o.whole := by
  obtain ⟨⟨hx, hy⟩, ⟨hsx1, hsx2, hsy1, hsy2⟩, hdx1, hdx2, hdy1, hdy2⟩ := allInside_iff.mp h
  simp only [copyClipIndependent, rect_empty_iff]
  rw [clipRect_of_inside hsx1 hsx2 hsy1 hsy2, clipRect_of_inside hdx1 hdx2 hdy1 hdy2,
    if_neg (not_or.mpr ⟨hx.not_ge, hy.not_ge⟩), if_neg (by dsimp only; omega)]
  simp only [CopyOperands.whole, Nat.add_sub_cancel_left]

/-- The model's check of an answer asks for P1 to P3 and a positive size (R219). -/
theorem copyAnswerAllowed_spec {answer : Option CopyJob} (h : copyAnswerAllowed o answer = true) :
    (∀ j, answer = some j → CopyWithin o j) ∧
      (o.allInside = true → answer = some o.whole) := by
  cases answer with
  | none =>
    simp only [copyAnswerAllowed, Bool.not_eq_true'] at h
    exact ⟨fun j hj => (Option.some_ne_none j hj.symm).elim,
      fun hall => absurd (hall.symm.trans h) (by decide)⟩
  | some j =>
    simp only [copyAnswerAllowed, Bool.and_eq_true, decide_eq_true_eq, clipHolds_iff] at h
    obtain ⟨⟨⟨⟨hsize, hdst⟩, hsrc⟩, hops⟩, hwhole⟩ := h
    refine ⟨fun k hk => ?_, fun hall => ?_⟩
    · cases hk
      exact ⟨hdst, hsrc, hops, hsize⟩
    · rw [hall] at hwhole
      exact congrArg some (beq_iff_eq.mp hwhole)

theorem copyClip_within {kind : CopyClipKind} {j : CopyJob} (h : copyClip kind o = some j) :
    CopyWithin o j := by
  cases kind with
  | translate => exact copyClipTranslate_within h
  | independent => exact copyClipIndependent_within h
  | other =>
    simp only [copyClip] at h
    split at h
    · rename_i hallowed
      obtain ⟨hwithin, -⟩ := copyAnswerAllowed_spec hallowed
      exact hwithin j h
    · exact copyClipTranslate_within h

/-- P3 (R219): a copy that lies inside the clip rectangle is not clipped, whatever the kind. -/
theorem copyClip_of_allInside (kind : CopyClipKind) (h : o.allInside = true) :
    copyClip kind o = some o.whole := by
  cases kind with
  | translate => exact copyClipTranslate_of_allInside h
  | independent => exact copyClipIndependent_of_allInside h
  | other =>
    simp only [copyClip]
    split
    · rename_i hallowed
      obtain ⟨-, hwhole⟩ := copyAnswerAllowed_spec hallowed
      exact hwhole h
    · exact copyClipTranslate_of_allInside h

/-- An empty span has an empty part in any other (R214). -/
theorem min_le_max_of_le {a b c1 c2 : Nat} (h : b ≤ a) : min b c2 ≤ max a c1 :=
  (min_le_left _ _).trans (h.trans (le_max_left _ _))

end CopyClip

/-- Settles O34, from the properties that each kind of `COPY_CLIP` has. -/
theorem copyClipProperties : Obligations.CopyClipProperties := by
  intro kind o _
  refine ⟨fun j hj => copyClip_within hj, fun hx hy hsx1 hsx2 hsy1 hsy2 hdx1 hdx2 hdy1 hdy2 => ?_⟩
  exact copyClip_of_allInside kind
    (allInside_iff.mpr ⟨⟨hx, hy⟩, ⟨hsx1, hsx2, hsy1, hsy2⟩, hdx1, hdx2, hdy1, hdy2⟩)

/-- Settles O35, axis by axis (`readings_axis`). -/
theorem copyClipReadingsAgree : Obligations.CopyClipReadingsAgree := by
  intro o hsx hdx hsy hdy
  simp only [copyClip, copyClipTranslate, copyClipIndependent, emptySource_iff, rect_empty_iff,
    clipRect]
  by_cases hempty : o.sx2.toNat ≤ o.sx1.toNat ∨ o.sy2.toNat ≤ o.sy1.toNat
  · rw [if_pos hempty, if_pos (hempty.imp min_le_max_of_le min_le_max_of_le)]
  · obtain ⟨hx, hy⟩ := not_or.mp hempty
    obtain ⟨hxnone, hxsome⟩ := readings_axis (c2 := o.clip2.x.toNat) hsx hdx (not_le.mp hx)
    obtain ⟨hynone, hysome⟩ := readings_axis (c2 := o.clip2.y.toNat) hsy hdy (not_le.mp hy)
    rw [if_neg hempty]
    symm
    split
    · rename_i hsrc
      exact (if_pos (hsrc.imp (hxnone.mpr ∘ .inl) (hynone.mpr ∘ .inl))).symm
    · rename_i hsrc
      obtain ⟨hsrcx, hsrcy⟩ := not_or.mp hsrc
      split
      · rename_i hdst
        exact (if_pos (hdst.imp (hxnone.mpr ∘ .inr) (hynone.mpr ∘ .inr))).symm
      · rename_i hdst
        obtain ⟨hdstx, hdsty⟩ := not_or.mp hdst
        have hkeepx := mt hxnone.mp (not_or.mpr ⟨hsrcx, hdstx⟩)
        have hkeepy := mt hynone.mp (not_or.mpr ⟨hsrcy, hdsty⟩)
        obtain ⟨hsx', htx, hnx⟩ := hxsome hkeepx
        obtain ⟨hsy', hty, hny⟩ := hysome hkeepy
        rw [if_neg (not_or.mpr ⟨hkeepx, hkeepy⟩), hsx', htx, hnx, hsy', hty, hny]

/-! ## `COPYRECT` -/

section Copyrect
variable {s : State} {f : Fb} {j : CopyJob}

/-- The byte of column `u`, row `v` of a copy whose overlapped part is at any value (U5). -/
theorem freeOverlap_getD {n u v : Nat} {rows : List (List Byte)} (hv : v < rows.length)
    (hu : u < (rows.getD v []).length) :
    ((freeOverlap n j rows).getD v []).getD u 0 =
      if copyTouched j u v then Config.freeOverlapByte n u v else (rows.getD v []).getD u 0 := by
  rw [List.getD_eq_getElem _ _ hv] at hu ⊢
  rw [List.getD_eq_getElem (freeOverlap n j rows) _ (by rwa [freeOverlap_length])]
  simp only [freeOverlap, List.getElem_map, List.getElem_zipIdx, Nat.zero_add]
  rw [List.getD_eq_getElem _ _ (by simpa using hu), List.getD_eq_getElem _ _ hu]
  simp only [List.getElem_map, List.getElem_zipIdx, Nat.zero_add]

/-- R242, U5: a byte of a copy is what its source held, unless it belongs to the overlapped part of
a copy that follows its source. -/
theorem copyRows_getD {u v : Nat} (hu : u < j.nx) (hv : v < j.ny)
    (h : copyTouched j u v = false ∨ pixelOffset j.tx j.ty ≤ pixelOffset j.sx j.sy) :
    ((copyRows s f j).getD v []).getD u 0 =
      (s.fb f).pixels.read (pixelOffset (j.sx + u) (j.sy + v)) := by
  have hrow : ((copySource (s.fb f).pixels j.sx j.sy j.nx j.ny).getD v []).length = j.nx := by
    rw [List.getD_eq_getElem _ _ (by rwa [copySource_length])]
    exact copySource_row_length _ (List.getElem_mem _)
  unfold copyRows
  dsimp only
  split
  · rename_i hfree
    have hfollows : pixelOffset j.sx j.sy < pixelOffset j.tx j.ty := by
      simp only [copyIsFree, copyFollows, Bool.and_eq_true, decide_eq_true_eq] at hfree
      obtain ⟨-, -, hlt⟩ := hfree
      exact hlt
    have huntouched : copyTouched j u v = false := h.resolve_right hfollows.not_ge
    rw [freeOverlap_getD (by rwa [copySource_length]) (by rwa [hrow]), huntouched]
    exact copySource_getD _ hu hv
  · exact copySource_getD _ hu hv

/-- R242, U5: the same of the destination after `copy_rect` of either back end. -/
theorem capCopy_read_exact (hx : j.tx + j.nx ≤ screenWidth) {u v : Nat} (hu : u < j.nx)
    (hv : v < j.ny)
    (h : copyTouched j u v = false ∨ pixelOffset j.tx j.ty ≤ pixelOffset j.sx j.sy) :
    ((capCopy s f j).fb f).pixels.read (pixelOffset (j.tx + u) (j.ty + v)) =
      (s.fb f).pixels.read (pixelOffset (j.sx + u) (j.sy + v)) := by
  have hin : j.tx + u < screenWidth := by omega
  rw [capCopy_read s f j hx, colOf_pixelOffset _ hin, rowOf_pixelOffset _ hin, if_pos (by omega),
    Nat.add_sub_cancel_left, Nat.add_sub_cancel_left, copyRows_getD hu hv h]

variable {sx1 sy1 sx2 sy2 dx dy : U16}

theorem exec_copyrect_of_none (hc : s.clipOk f = true)
    (hsum : copySumOverflows (copyOperands s f sx1 sy1 sx2 sy2 dx dy) = false)
    (hj : copyClip s.cfg.copyClip (copyOperands s f sx1 sy1 sx2 sy2 dx dy) = none) :
    exec (.copyrect f sx1 sy1 sx2 sy2 dx dy) s = .next s := by
  simp only [exec, execCopyrect, hc, hsum, hj, if_true, Bool.false_eq_true, if_false]

theorem exec_copyrect_of_some (hc : s.clipOk f = true)
    (hsum : copySumOverflows (copyOperands s f sx1 sy1 sx2 sy2 dx dy) = false)
    (hj : copyClip s.cfg.copyClip (copyOperands s f sx1 sy1 sx2 sy2 dx dy) = some j) :
    exec (.copyrect f sx1 sy1 sx2 sy2 dx dy) s = .next (capCopy s f j) := by
  simp only [exec, execCopyrect, hc, hsum, hj, if_true, Bool.false_eq_true, if_false]

/-- What `COPY_CLIP` leaves of a copy lands inside the 480 columns. -/
theorem copyClip_columns (hc : s.clipOk f = true)
    (hj : copyClip s.cfg.copyClip (copyOperands s f sx1 sy1 sx2 sy2 dx dy) = some j) :
    j.tx + j.nx ≤ screenWidth := by
  obtain ⟨-, hx, -⟩ := clipHolds_iff.mp (copyClip_destination hj)
  obtain ⟨-, hw, -⟩ := clipLegal_iff.mp hc
  exact hx.trans hw

end Copyrect

/-- Settles O33: under `snapshot` no overlap is free. -/
theorem copyrectResult : Obligations.CopyrectResult := by
  intro s f sx1 sy1 sx2 sy2 dx dy hc hb hsnap hsum
  cases hj : copyClip s.cfg.copyClip (copyOperands s f sx1 sy1 sx2 sy2 dx dy) with
  | none =>
    exact ⟨s, exec_copyrect_of_none hc hsum hj, fun _ => rfl,
      fun j hsome => (Option.some_ne_none j hsome.symm).elim⟩
  | some j =>
    refine ⟨_, exec_copyrect_of_some hc hsum hj,
      fun hnone => (Option.some_ne_none j hnone).elim, fun k hk => ?_⟩
    cases hk
    have hnot : copyIsFree s.cfg j = false := by simp [copyIsFree, hsnap]
    exact ⟨capCopy_onlyPixels s f j hb hnot,
      capCopy_read_snapshot s f j (copyClip_columns hc hj) hnot⟩

/-- Settles O59: outside the destination nothing is written, and inside it `capCopy_read_exact`. -/
theorem copyrectOutsideTheOverlap : Obligations.CopyrectOutsideTheOverlap := by
  intro s f sx1 sy1 sx2 sy2 dx dy hc hb hsum
  cases hj : copyClip s.cfg.copyClip (copyOperands s f sx1 sy1 sx2 sy2 dx dy) with
  | none =>
    exact ⟨s, exec_copyrect_of_none hc hsum hj, fun _ => rfl,
      fun j hsome => (Option.some_ne_none j hsome.symm).elim⟩
  | some j =>
    refine ⟨_, exec_copyrect_of_some hc hsum hj,
      fun hnone => (Option.some_ne_none j hnone).elim, fun k hk => ?_⟩
    cases hk
    have hx := copyClip_columns hc hj
    refine ⟨capCopy_onlyPixelsAndFree s f j hb, fun a hout => ?_,
      fun u v hu hv h => capCopy_read_exact hx hu hv h⟩
    rw [capCopy_read s f j hx, if_neg hout]

/-! ## `SCROLLUP` -/

/-- A scroll reads from the rows it writes or from below, so it is never at any value (R222, U5). -/
theorem copyIsFree_scroll (cfg : Config) (h : Nat) :
    copyIsFree cfg ⟨0, h, 0, 0, screenWidth, screenHeight⟩ = false := by
  simp [copyIsFree, copyFollows, pixelOffset]

/-- Settles O39: the scroll is a copy of the visible rows' size from `h` rows further down. -/
theorem scrollupResult : Obligations.ScrollupResult := by
  intro s f h hrows hsum hb
  refine ⟨_, (if_pos hrows).trans (if_pos hsum),
    capCopy_onlyPixels s f _ hb (copyIsFree_scroll s.cfg h.toNat), fun a => ?_⟩
  rw [capCopy_read_snapshot s f _ (by simp) (copyIsFree_scroll s.cfg h.toNat)]
  have hcol := colOf_lt a
  refine if_congr ?_ ?_ rfl
  · simp only [screenWidth, screenHeight] at hcol ⊢
    omega
  · dsimp only
    rw [Nat.zero_add, Nat.sub_zero, Nat.sub_zero, Nat.add_comm]

/-! ## The clip rectangle holds -/

/-- The three ways a clipped primitive draws: pixels through `SETPIXEL`, a clipped fill, or a copy
to a destination inside the clip rectangle (R224). -/
def DrawsClipped (f : Fb) (s t : State) : Prop :=
  s.clipOk f = true ∧
    ((∃ ps, t = plotAll s f ps) ∨ (∃ r c, t = clippedFill s f r c) ∨
      ∃ j : CopyJob, ((s.fb f).clip1.x.toNat ≤ j.tx ∧ j.tx + j.nx ≤ (s.fb f).clip2.x.toNat ∧
        (s.fb f).clip1.y.toNat ≤ j.ty ∧ j.ty + j.ny ≤ (s.fb f).clip2.y.toNat) ∧ t = capCopy s f j)

section Clipped
variable {s t : State} {f : Fb}

/-- A next state under the guard of R26. -/
theorem next_of_clipGuard {u : State}
    (h : (if s.clipOk f then Host.Outcome.next u else .refused .illegalClipState : Outcome) =
      .next t) : s.clipOk f = true ∧ t = u := by
  split at h
  · exact ⟨‹_›, (Host.Outcome.next.inj h).symm⟩
  · cases h

theorem execCopyrect_drawsClipped {sx1 sy1 sx2 sy2 dx dy : U16}
    (h : exec (.copyrect f sx1 sy1 sx2 sy2 dx dy) s = .next t) : DrawsClipped f s t := by
  simp only [exec, execCopyrect] at h
  split at h
  · rename_i hc
    refine ⟨hc, ?_⟩
    split at h
    · cases h
    · split at h
      · rename_i j hj
        cases h
        exact .inr (.inr ⟨j, clipHolds_iff.mp (copyClip_destination hj), rfl⟩)
      · cases h
        exact .inl ⟨[], rfl⟩
  · cases h

theorem execText_drawsClipped {x y : U16} {k : Byte} {pal : Palette} {codes : List Byte}
    (h : exec (.text f x y k pal codes) s = .next t) : DrawsClipped f s t := by
  simp only [exec, execText] at h
  repeat' split at h
  all_goals cases h
  exact ⟨‹_›, .inl ⟨_, rfl⟩⟩

theorem execImage_drawsClipped {x y w h : U16} {pal : Palette} {data : List Byte}
    (hn : exec (.image f x y w h pal data) s = .next t) : DrawsClipped f s t := by
  simp only [exec, execImage] at hn
  repeat' split at hn
  all_goals cases hn
  exact ⟨‹_›, .inl ⟨_, rfl⟩⟩

/-- Everything a clipped primitive can do. -/
theorem exec_drawsClipped {i : Instr} (hi : isClipped i = true) (hf : framebufferOf i = some f)
    (h : exec i s = .next t) : DrawsClipped f s t := by
  cases i with
  | setpixel g x y c =>
    cases hf
    obtain ⟨hc, rfl⟩ := next_of_clipGuard h
    exact ⟨hc, .inl ⟨[_], rfl⟩⟩
  | line g x1 y1 x2 y2 c =>
    cases hf
    obtain ⟨hc, rfl⟩ := next_of_clipGuard h
    exact ⟨hc, .inl ⟨_, rfl⟩⟩
  | rect g x1 y1 x2 y2 c =>
    cases hf
    obtain ⟨hc, rfl⟩ := next_of_clipGuard h
    exact ⟨hc, .inr (.inl ⟨_, c, rfl⟩)⟩
  | clear g c =>
    cases hf
    obtain ⟨hc, rfl⟩ := next_of_clipGuard h
    exact ⟨hc, .inr (.inl ⟨_, c, rfl⟩)⟩
  | copyrect g sx1 sy1 sx2 sy2 dx dy => cases hf; exact execCopyrect_drawsClipped h
  | text g x y k pal codes => cases hf; exact execText_drawsClipped h
  | image g x y w h' pal data => cases hf; exact execImage_drawsClipped h
  | _ => cases hi

/-- R224: outside the clip rectangle everything stays. -/
theorem DrawsClipped.read_outside (h : DrawsClipped f s t) {a : Nat}
    (ha : s.offsetInClip f a = false) : (t.fb f).pixels.read a = (s.fb f).pixels.read a := by
  have hout := offsetInClip_iff.not.mp (Bool.not_eq_true _ ▸ ha)
  obtain ⟨hc, ⟨ps, rfl⟩ | ⟨r, c, rfl⟩ | ⟨j, ⟨hx1, hx2, hy1, hy2⟩, rfl⟩⟩ := h
  · rw [plotAll_read hc, ha, if_neg Bool.false_ne_true]
  · rw [clippedFill_read hc, if_neg]
    simp only [max_le_iff, lt_min_iff]
    tauto
  · obtain ⟨-, hwidth, -⟩ := clipLegal_iff.mp hc
    rw [capCopy_read s f j (hx2.trans hwidth), if_neg]
    omega

end Clipped

/-- Settles O46: the other framebuffer is not seen, and outside the clip rectangle nothing is
drawn. -/
theorem clipContainment : Obligations.ClipContainment := by
  intro i s t f hi hf h g a hga
  by_cases hg : g = f
  · subst hg
    exact (exec_drawsClipped hi hf h).read_outside (hga.resolve_left fun hne => hne rfl)
  · have hdraws : writesPixels i = true := by rw [writesPixels, hi]; rfl
    rw [exec_fb_ne (.inl hdraws) hf h hg]

end Sys2Proof.Machine

namespace Sys2Proof.Machine

open Sys2Proof

/-! # The capability: its direct calls, and the agreement of the two back ends

What `HFILL` and `HCOPY` do is what `fill_rect` and `copy_rect` do (`capFill_read`, `capCopy_read`),
once the premise of R240 holds. That the back ends agree is one commutation, `exec_withCap`: an
instruction run on the same machine with another back end answers the same next state, with that
back end. It turns on `capFill_withCap`: canonical stores that read alike are equal. -/

/-! ## The direct calls -/

section Direct
variable {s : State} {f : Fb}

/-- `HCOPY` within the premise of R240 and without a sum above 65535 (U10). -/
theorem exec_hcopy_of_inside {sx sy dx dy nx ny : U16}
    (hsx : sx.toNat + nx.toNat ≤ screenWidth) (hdx : dx.toNat + nx.toNat ≤ screenWidth)
    (hsy : sy.toNat + ny.toNat ≤ s.cfg.rows f) (hdy : dy.toNat + ny.toNat ≤ s.cfg.rows f)
    (hsum : sy.toNat + ny.toNat ≤ maxCoord ∧ dy.toNat + ny.toNat ≤ maxCoord) :
    exec (.hcopy f sx sy dx dy nx ny) s =
      .next (capCopy s f ⟨sx.toNat, sy.toNat, dx.toNat, dy.toNat, nx.toNat, ny.toNat⟩) :=
  (if_pos ⟨hsx, hdx, hsy, hdy⟩).trans (if_pos hsum)

theorem copyIsFree_of_snapshot {cfg : Config} (hsnap : cfg.copyOverlap = .snapshot) (j : CopyJob) :
    copyIsFree cfg j = false := by
  simp [copyIsFree, hsnap]

end Direct

/-- Settles O40: `fill_rect` of either back end, on the rectangle as it stands. -/
theorem hfillResult : Obligations.HfillResult := by
  intro s f x1 y1 x2 y2 c hx hw hy hr hb
  exact ⟨_, if_pos ⟨hx, hw, hy, hr⟩, capFill_onlyPixels s f _ _ _ _ c hb,
    capFill_read s f hx hw hy c⟩

/-- Settles O41: under `snapshot` no overlap is free. -/
theorem hcopyResult : Obligations.HcopyResult := by
  intro s f sx sy dx dy nx ny hsx hdx hsy hdy hsum hsum' hb hsnap
  have hnot := copyIsFree_of_snapshot hsnap
    ⟨sx.toNat, sy.toNat, dx.toNat, dy.toNat, nx.toNat, ny.toNat⟩
  exact ⟨_, exec_hcopy_of_inside hsx hdx hsy hdy ⟨hsum, hsum'⟩, capCopy_onlyPixels s f _ hb hnot,
    capCopy_read_snapshot s f _ hdx hnot⟩

/-- Settles O42: outside the destination nothing is written, and inside it `capCopy_read_exact`. -/
theorem hcopyOutsideTheOverlap : Obligations.HcopyOutsideTheOverlap := by
  intro s f sx sy dx dy nx ny hsx hdx hsy hdy hsum hsum' hb
  refine ⟨_, exec_hcopy_of_inside hsx hdx hsy hdy ⟨hsum, hsum'⟩,
    capCopy_onlyPixelsAndFree s f _ hb, fun a hout => ?_,
    fun i j hi hj h => capCopy_read_exact hdx hi hj h⟩
  rw [capCopy_read s f _ hdx, if_neg hout]

/-! ## The same machine with another back end

Only the name of the back end differs: every other parameter and every element is read as it was,
and every update commutes with the change. -/

section WithCap
variable (s : State) (k : CapKind)

@[simp] theorem State.withCap_withCap (k' : CapKind) :
    (s.withCap k').withCap k = s.withCap k := rfl

@[simp] theorem State.withCap_copyClip : (s.withCap k).cfg.copyClip = s.cfg.copyClip := rfl

@[simp] theorem State.withCap_banner : (s.withCap k).cfg.banner = s.cfg.banner := rfl

@[simp] theorem State.withCap_font? (n : Byte) : (s.withCap k).cfg.font? n = s.cfg.font? n := rfl

@[simp] theorem State.withCap_extraRows (f : Fb) :
    (s.withCap k).cfg.extraRows f = s.cfg.extraRows f := by
  cases f <;> rfl

@[simp] theorem State.withCap_rows (f : Fb) : (s.withCap k).cfg.rows f = s.cfg.rows f := by
  cases f <;> rfl

@[simp] theorem copyIsFree_withCap (j : CopyJob) :
    copyIsFree (s.withCap k).cfg j = copyIsFree s.cfg j := rfl

@[simp] theorem classify_withCap (esc : EscState) (b : Byte) :
    classify (s.withCap k).cfg esc b = classify s.cfg esc b := by
  cases esc <;> rfl

@[simp] theorem State.withCap_fb (f : Fb) : (s.withCap k).fb f = s.fb f := by
  cases f <;> rfl

@[simp] theorem State.withCap_esc : (s.withCap k).esc = s.esc := rfl

@[simp] theorem State.withCap_free : (s.withCap k).free = s.free := rfl

@[simp] theorem State.withCap_clipOk (f : Fb) : (s.withCap k).clipOk f = s.clipOk f := by
  simp only [State.clipOk, State.withCap_fb]

@[simp] theorem State.withCap_setFb (f : Fb) (b : Framebuffer) :
    (s.withCap k).setFb f b = (s.setFb f b).withCap k := by
  cases f <;> rfl

@[simp] theorem State.withCap_setPixels (f : Fb) (m : Memory) :
    (s.withCap k).setPixels f m = (s.setPixels f m).withCap k := by
  simp only [State.setPixels, State.withCap_fb, State.withCap_setFb]

@[simp] theorem State.withCap_setClip (f : Fb) (c1 c2 : Pos) :
    (s.withCap k).setClip f c1 c2 = (s.setClip f c1 c2).withCap k := by
  simp only [State.setClip, State.withCap_fb, State.withCap_setFb]

@[simp] theorem State.withCap_countFree :
    (s.withCap k).countFree = s.countFree.withCap k := rfl

@[simp] theorem State.withCap_setEsc (e : EscState) :
    (s.withCap k).setEsc e = (s.setEsc e).withCap k := rfl

end WithCap

/-! ## The back ends agree on what is drawn -/

section Drawing
variable {s : State} {f : Fb} (k : CapKind)

@[simp] theorem plot_withCap (s : State) (p : Pixel) :
    plot (s.withCap k) f p = (plot s f p).withCap k := by
  simp [plot, State.putPixel, apply_ite (State.withCap · k)]

@[simp] theorem plotAll_withCap (s : State) (ps : List Pixel) :
    plotAll (s.withCap k) f ps = (plotAll s f ps).withCap k := by
  induction ps generalizing s with
  | nil => rfl
  | cons p ps ih =>
    calc plotAll (s.withCap k) f (p :: ps)
        = plotAll ((plot s f p).withCap k) f ps := by rw [← plot_withCap]; rfl
      _ = (plotAll s f (p :: ps)).withCap k := ih _

/-- A canonical store has some size, of at least any number of rows. -/
theorem exists_storeOk {m : Memory} (hm : m.wf = true) (n : Nat) :
    ∃ rows, n ≤ rows ∧ StoreOk rows m := by
  obtain ⟨bound, hbound⟩ := (m.cells.map Prod.fst).toFinset.bddAbove
  refine ⟨max n (bound + 1), le_max_left _ _, hm, List.all_eq_true.mpr fun p hp => ?_⟩
  have hle : p.1 ≤ bound := hbound (by simpa using ⟨p.2, hp⟩)
  simp only [screenWidth, decide_eq_true_eq]
  omega

/-- A fill of either back end keeps the canonical form, whatever the size of the store (R64). -/
theorem capFill_wf {x1 x2 y1 y2 : Nat} (hx : x1 ≤ x2) (hw : x2 ≤ screenWidth) (hy : y1 ≤ y2)
    (c : Byte) (hm : (s.fb f).pixels.wf = true) :
    ((capFill s f x1 y1 x2 y2 c).fb f).pixels.wf = true := by
  obtain ⟨rows, hr, hs⟩ := exists_storeOk hm y2
  exact (capFill_store hx hw hy hr c hs).1

/-- R247: the fills of the two back ends write the same bytes, so from a canonical store they leave
the same store, and nothing else. -/
theorem capFill_withCap {x1 x2 y1 y2 : Nat} (hx : x1 ≤ x2) (hw : x2 ≤ screenWidth) (hy : y1 ≤ y2)
    (c : Byte) (hm : (s.fb f).pixels.wf = true) (hb : s.blitBusy = false) :
    capFill (s.withCap k) f x1 y1 x2 y2 c = (capFill s f x1 y1 x2 y2 c).withCap k := by
  have hpixels : ((capFill (s.withCap k) f x1 y1 x2 y2 c).fb f).pixels =
      ((capFill s f x1 y1 x2 y2 c).fb f).pixels := by
    refine Memory.ext_of_wf (capFill_wf hx hw hy c (by simpa using hm)) (capFill_wf hx hw hy c hm)
      fun a => ?_
    rw [capFill_read _ f hx hw hy, capFill_read s f hx hw hy, State.withCap_fb]
  calc capFill (s.withCap k) f x1 y1 x2 y2 c
      = (s.withCap k).setPixels f ((capFill s f x1 y1 x2 y2 c).fb f).pixels := by
        rw [← hpixels]; exact capFill_onlyPixels _ f x1 y1 x2 y2 c hb
    _ = (s.setPixels f ((capFill s f x1 y1 x2 y2 c).fb f).pixels).withCap k :=
        State.withCap_setPixels s k f _
    _ = (capFill s f x1 y1 x2 y2 c).withCap k := by
        rw [← capFill_onlyPixels s f x1 y1 x2 y2 c hb]

theorem clippedFill_withCap (hc : s.clipOk f = true) (hm : (s.fb f).pixels.wf = true)
    (hb : s.blitBusy = false) (r : Rect) (c : Byte) :
    clippedFill (s.withCap k) f r c = (clippedFill s f r c).withCap k := by
  simp only [clippedFill, State.withCap_fb]
  split
  · rfl
  · rename_i hne
    obtain ⟨hx, hy⟩ := rect_not_empty_iff.mp hne
    obtain ⟨-, hw, -⟩ := clipLegal_iff.mp hc
    exact capFill_withCap k hx.le ((min_le_right _ _).trans hw) hy.le c hm hb

/-- R246, R247: the copies of the two back ends leave the same state. -/
theorem capCopy_withCap (hb : s.blitBusy = false) (j : CopyJob) :
    capCopy (s.withCap k) f j = (capCopy s f j).withCap k := by
  rw [capCopy_eq (s.withCap k) f j hb, capCopy_eq s f j hb]
  simp [copyResult_eq, copyRows, apply_ite (State.withCap · k)]

end Drawing

/-! ## The back ends agree on every instruction -/

section Drawn
variable {s : State} {f : Fb} (k : CapKind)

theorem execHfill_withCap (hm : (s.fb f).pixels.wf = true) (hb : s.blitBusy = false)
    (x1 y1 x2 y2 : U16) (c : Byte) :
    execHfill f x1 y1 x2 y2 c (s.withCap k) =
      nextMap (State.withCap · k) (execHfill f x1 y1 x2 y2 c s) := by
  simp only [execHfill, State.withCap_rows]
  split
  · rename_i hin
    obtain ⟨hx, hw, hy, -⟩ := hin
    rw [capFill_withCap k hx hw hy c hm hb, nextMap_next]
  · rfl

theorem execCopyrect_withCap (hb : s.blitBusy = false) (sx1 sy1 sx2 sy2 dx dy : U16) :
    execCopyrect f sx1 sy1 sx2 sy2 dx dy (s.withCap k) =
      nextMap (State.withCap · k) (execCopyrect f sx1 sy1 sx2 sy2 dx dy s) := by
  have ho : copyOperands (s.withCap k) f sx1 sy1 sx2 sy2 dx dy =
      copyOperands s f sx1 sy1 sx2 sy2 dx dy := by
    simp only [copyOperands, State.withCap_fb]
  simp only [execCopyrect, State.withCap_clipOk, State.withCap_copyClip, ho, nextMap_ite,
    capCopy_withCap k hb, nextMap_refused]
  cases copyClip s.cfg.copyClip (copyOperands s f sx1 sy1 sx2 sy2 dx dy) <;> rfl

theorem execText_withCap (x y : U16) (n : Byte) (pal : Palette) (codes : List Byte) :
    execText f x y n pal codes (s.withCap k) =
      nextMap (State.withCap · k) (execText f x y n pal codes s) := by
  simp only [execText, State.withCap_font?]
  cases s.cfg.font? n with
  | none => rfl
  | some t => simp [nextMap_ite]

/-- A meaning under the guard of R26 alone (`RECT`, `CLEAR`). -/
theorem clipGuard_withCap {t u : State} (h : s.clipOk f = true → u = t.withCap k) :
    (if (s.withCap k).clipOk f then .next u else .refused .illegalClipState : Outcome) =
      nextMap (State.withCap · k)
        (if s.clipOk f then .next t else .refused .illegalClipState) := by
  rw [State.withCap_clipOk]
  split
  · rw [h ‹_›, nextMap_next]
  · rfl

/-- R247, R225: an operation that writes pixels leaves the same state with either back end. -/
theorem exec_draws_withCap {i : Instr} (hi : writesPixels i = true) (hf : framebufferOf i = some f)
    (hm : (s.fb f).pixels.wf = true) (hb : s.blitBusy = false) :
    exec i (s.withCap k) = nextMap (State.withCap · k) (exec i s) := by
  cases i with
  | setpixel g x y c => simp [exec, execSetpixel, nextMap_ite]
  | line g x1 y1 x2 y2 c => simp [exec, execLine, nextMap_ite]
  | rect g x1 y1 x2 y2 c =>
    cases hf
    exact clipGuard_withCap k fun hc => clippedFill_withCap k hc hm hb _ c
  | clear g c =>
    cases hf
    exact clipGuard_withCap k fun hc => clippedFill_withCap k hc hm hb _ c
  | copyrect g sx1 sy1 sx2 sy2 dx dy => exact execCopyrect_withCap k hb sx1 sy1 sx2 sy2 dx dy
  | text g x y n pal codes => exact execText_withCap k x y n pal codes
  | image g x y w h pal data => simp [exec, execImage, nextMap_ite]
  | scrollup g h => simp [exec, execScrollup, nextMap_ite, capCopy_withCap k hb]
  | hfill g x1 y1 x2 y2 c => cases hf; exact execHfill_withCap k hm hb x1 y1 x2 y2 c
  | hcopy g sx sy dx dy nx ny => simp [exec, execHcopy, nextMap_ite, capCopy_withCap k hb]
  | _ => cases hi

end Drawn

section Received
variable (k : CapKind)

/-- The FRAMER's laws and the drawing laws name one operation on outcomes. -/
theorem mapNext_eq_nextMap : mapNext = nextMap := rfl

/-- Every row but the mismatch is written with `ESC`, `SCRATCH`, the events and parameters other
than the back end. -/
theorem exec_withCap_of_ne_miss {i : Instr} (hi : isOperation i = false)
    (hmiss : ∀ b, i ≠ .wbbMiss b) (s : State) :
    exec i (s.withCap k) = nextMap (State.withCap · k) (exec i s) := by
  cases i with
  | wbbMiss b => exact absurd rfl (hmiss b)
  | idleEsc | idleChar | escEsc | escCsi | escRi | escOther | csiFinal | csiFinalJ | binLen0
  | binLen =>
    simp only [exec, execIdleEsc, execIdleChar, execEscEsc, execEscCsi, execEscRi, execEscOther,
      execCsiFinal, execCsiFinalJ, execBinLen0, execBinLen, State.withCap_esc]
    split <;> rfl
  | csiParam | binData | wbbMatch =>
    simp only [exec, execCsiParam, execBinData, execWbbMatch, State.withCap_esc]
    split
    · simp only [nextMap_ite]; rfl
    · rfl
  | _ => cases hi

variable {miss : Byte → State → Outcome}

theorem replayMiss_withCap
    (hmiss : ∀ b s, miss b (s.withCap k) = nextMap (State.withCap · k) (miss b s))
    (b : Byte) (s : State) :
    replayMiss miss b (s.withCap k) = nextMap (State.withCap · k) (replayMiss miss b s) := by
  simp only [replayMiss, State.withCap_esc, State.withCap_banner, State.withCap_setEsc]
  split
  · simp only [← mapNext_eq_nextMap] at hmiss ⊢
    exact replayBytes_blind hmiss _ _
  · rfl

theorem framerStepWith_withCap
    (hmiss : ∀ b s, miss b (s.withCap k) = nextMap (State.withCap · k) (miss b s))
    (b : Byte) (s : State) :
    framerStepWith miss b (s.withCap k) =
      nextMap (State.withCap · k) (framerStepWith miss b s) := by
  cases hc : classify s.cfg s.esc b with
  | error e =>
    simp only [framerStepWith, classify_withCap, State.withCap_esc, hc, nextMap_refused]
  | ok c =>
    have hc' : classify (s.withCap k).cfg (s.withCap k).esc b = .ok c := by
      rw [classify_withCap, State.withCap_esc, hc]
    by_cases hne : c = .wbbMiss
    · subst hne
      simp only [framerStepWith, hc, hc', hmiss]
    · rw [framerStepWith_eq_exec hc hne, framerStepWith_eq_exec hc' hne]
      refine exec_withCap_of_ne_miss k (isOperation_instr b c) (fun b' => ?_) s
      cases c with
      | wbbMiss => exact absurd rfl hne
      | _ => exact fun h => nomatch h

theorem framerStep_withCap (n : Nat) (b : Byte) (s : State) :
    framerStep n b (s.withCap k) = nextMap (State.withCap · k) (framerStep n b s) := by
  induction n generalizing b s with
  | zero => exact framerStepWith_withCap k (fun _ _ => rfl) b s
  | succ n ih => exact framerStepWith_withCap k (replayMiss_withCap k ih) b s

/-- R27, R120: a FRAMER row does not see the back end. -/
theorem exec_framer_withCap {i : Instr} (hi : isOperation i = false) (s : State) :
    exec i (s.withCap k) = nextMap (State.withCap · k) (exec i s) := by
  by_cases hmiss : ∃ b, i = .wbbMiss b
  · obtain ⟨b, rfl⟩ := hmiss
    simp only [exec, execWbbMiss, State.withCap_esc, State.withCap_banner, replayFuel]
    repeat' split
    · rfl
    · exact replayMiss_withCap k (framerStep_withCap k _) b s
    · rfl
    · rfl
  · exact exec_withCap_of_ne_miss k hi (fun b hb => hmiss ⟨b, hb⟩) s

end Received

/-- R247, R225: whatever instruction is run, the same machine with another back end answers the same
next state, with that back end, or the same refusal. -/
theorem exec_withCap (i : Instr) (k : CapKind) {s : State}
    (hm : ∀ f, (s.fb f).pixels.wf = true) (hb : s.blitBusy = false) :
    exec i (s.withCap k) = nextMap (State.withCap · k) (exec i s) := by
  rcases instr_kinds i with
    ⟨hbyte, -⟩ | ⟨hw, f, hf⟩ | ⟨f, x1, y1, x2, y2, rfl⟩ | ⟨f, rfl | rfl⟩ | rfl
  · exact exec_framer_withCap k hbyte s
  · exact exec_draws_withCap k hw hf (hm f) hb
  · simp [exec, execSetclip, nextMap_ite]
  · rfl
  · rfl
  · rfl

/-- Settles O45, by `exec_withCap`: the machine with the blitter is the machine with the software
back end with its back end replaced. -/
theorem backEndsAgree : Obligations.BackEndsAgree := by
  intro i s hcon hgfx hb
  have hm : ∀ f, ((s.withCap .software).fb f).pixels.wf = true
    | .con => hcon
    | .gfx => hgfx
  have hagree := exec_withCap i .blitter hm hb
  rw [State.withCap_withCap] at hagree
  exact ⟨fun t ht => by rw [hagree, ht, nextMap_next],
    fun r hr => by rw [hagree, hr, nextMap_refused]⟩

end Sys2Proof.Machine

/-! # The colour table: `LUTGEN`, entry by entry -/

namespace Sys2Proof.Machine

open Sys2Proof

/-! ## The table holds `lut(i)` at `i` -/

@[simp] theorem getElem_lutTable {i : Nat} (hi : i < 256) : lutTable[i] = lutEntry i := by
  simp [lutTable]

/-! ## The three ranges of `lut(i)` (R260) -/

theorem lutEntry_ansi {i : Nat} (hi : i < 16) : lutEntry i = ansiColour i :=
  if_pos (by omega)

theorem lutEntry_cube {j : Nat} (hj : j < 216) : lutEntry (16 + j) = cubeColour (16 + j) :=
  (if_neg (by omega)).trans (if_pos (by omega))

theorem lutEntry_grey (j : Nat) : lutEntry (232 + j) = greyColour (232 + j) :=
  (if_neg (by omega)).trans (if_neg (by omega))

/-! ## The colours in the spec's words -/

/-- A bit shifted left by one leaves room for the intensity: R261's `|` is a sum. -/
theorem shiftLeft_one_or_bit (a b : Nat) (hb : b < 2) : (a <<< 1) ||| b = 2 * a + b := by
  rw [← Nat.shiftLeft_add_eq_or_of_lt (i := 1) hb a, Nat.shiftLeft_eq, Nat.pow_one, Nat.mul_comm]

/-- R261: a component is `0x55 * ((component_bit << 1) | intensity)`. -/
theorem ansiComponent_eq_shift_or (i bit : Nat) :
    ansiComponent i bit =
      BitVec.ofNat 8 (0x55 * ((((i >>> bit) % 2) <<< 1) ||| ((i >>> 3) % 2))) := by
  rw [shiftLeft_one_or_bit _ _ (Nat.mod_lt _ Nat.two_pos), Nat.shiftRight_eq_div_pow,
    Nat.shiftRight_eq_div_pow]
  rfl

/-- R262: the cube's index `36r + 6g + b` is `r`, `g`, `b` in base 6. -/
theorem cubeColour_index {r g b : Nat} (hg : g < 6) (hb : b < 6) :
    cubeColour (16 + (36 * r + 6 * g + b)) =
      ⟨BitVec.ofNat 8 (0x33 * r), BitVec.ofNat 8 (0x33 * g), BitVec.ofNat 8 (0x33 * b)⟩ := by
  have hred : (36 * r + 6 * g + b) / 36 = r := by omega
  have hgreen : (36 * r + 6 * g + b) / 6 % 6 = g := by omega
  have hblue : (36 * r + 6 * g + b) % 6 = b := by omega
  simp only [cubeColour, Nat.add_sub_cancel_left, hred, hgreen, hblue]

/-- R263: the grey ramp starts at `8` and climbs by `10`. -/
theorem greyColour_index (j : Nat) :
    greyColour (232 + j) =
      ⟨BitVec.ofNat 8 (8 + 10 * j), BitVec.ofNat 8 (8 + 10 * j), BitVec.ofNat 8 (8 + 10 * j)⟩ := by
  simp only [greyColour, Nat.add_sub_cancel_left]

/-! ## `LUTGEN` -/

/-- Settles O44: the next state is `s` with `lutTable` for its `LUT`, and each range of the table
is its formula. -/
theorem lutgenResult : Obligations.LutgenResult := by
  intro s
  refine ⟨{ s with lut := lutTable }, rfl, rfl, fun i => ?ansi, fun r g b => ?cube, fun j => ?grey⟩
  case ansi =>
    simp only [getElem_lutTable, lutEntry_ansi i.isLt, ansiColour, ansiComponent_eq_shift_or]
  case cube =>
    have hsum : 16 + 36 * r.val + 6 * g.val + b.val = 16 + (36 * r.val + 6 * g.val + b.val) := by
      omega
    rw [getElem_lutTable, hsum, lutEntry_cube (by omega), cubeColour_index g.isLt b.isLt]
  case grey =>
    rw [getElem_lutTable, lutEntry_grey, greyColour_index]

end Sys2Proof.Machine

/-! # Faults and refusals: no step faults, and what an operation's premise excludes

`exec_faultless`: every meaning but a banner mismatch is guards around next states and refusals, and
a mismatch is refused or ends within the fuel of R136 (`exec_wbbMiss_total`). Then each premise of
R274 as a refusal of its own. -/

namespace Sys2Proof.Machine

open Sys2Proof

/-! ## Outcomes without a fault -/

/-- The outcome is a next state or a refusal. -/
def Faultless (o : Outcome) : Prop := ∀ r, o ≠ .fault r

@[simp] theorem faultless_next (t : State) : Faultless (.next t) := nofun

@[simp] theorem faultless_refused (r : Refusal) : Faultless (.refused r) := nofun

theorem Faultless.guarded {p : Prop} [Decidable p] {o : Outcome} (ho : Faultless o) (r : Refusal) :
    Faultless (if p then o else .refused r) := by
  split
  · exact ho
  · exact faultless_refused r

/-! ## No instruction faults -/

/-- R136: a mismatch that is not refused is one the replay answers, in whatever state it is run. -/
theorem exec_wbbMiss_faultless (b : Byte) (s : State) : Faultless (exec (.wbbMiss b) s) := by
  cases hesc : s.esc with
  | watching k =>
    cases hk : s.cfg.banner[k]? with
    | none => simp only [exec, execWbbMiss, hesc, hk, faultless_refused]
    | some x =>
      by_cases hb : b = x
      · simp only [exec, execWbbMiss, hesc, hk, if_pos hb, faultless_refused]
      · obtain ⟨t, ht⟩ := exec_wbbMiss_total hesc hk hb
        rw [ht]
        exact faultless_next t
  | _ => simp only [exec, execWbbMiss, hesc, faultless_refused]

/-- Every branch of a row of R91 but the mismatch is a next state or a refusal. -/
theorem exec_framer_faultless {i : Instr} (hi : isOperation i = false) (s : State) :
    Faultless (exec i s) := by
  cases i with
  | wbbMiss b => exact exec_wbbMiss_faultless b s
  | idleEsc | idleChar | escEsc | escCsi | escRi | escOther | csiParam | csiFinal | csiFinalJ
  | binLen0 | binLen | binData | wbbMatch =>
    simp only [exec, execIdleEsc, execIdleChar, execEscEsc, execEscCsi, execEscRi, execEscOther,
      execCsiParam, execCsiFinal, execCsiFinalJ, execBinLen0, execBinLen, execBinData,
      execWbbMatch]
    repeat' split
    all_goals simp only [faultless_next, faultless_refused]
  | _ => cases hi

/-- An operation asks for its premises one after the other and then answers a next state. -/
theorem exec_operation_faultless {i : Instr} (hi : isOperation i = true) (s : State) :
    Faultless (exec i s) := by
  cases i with
  | activate | hact | lutgen => exact faultless_next _
  | setclip | setpixel | line | rect | clear | hfill => exact (faultless_next _).guarded _
  | scrollup | hcopy => exact ((faultless_next _).guarded _).guarded _
  | image => exact (((faultless_next _).guarded _).guarded _).guarded _
  | copyrect f sx1 sy1 sx2 sy2 dx dy =>
    refine Faultless.guarded ?_ _
    split
    · exact faultless_refused _
    · cases copyClip s.cfg.copyClip (copyOperands s f sx1 sy1 sx2 sy2 dx dy) with
      | some j => exact faultless_next _
      | none => exact faultless_next s
  | text f x y k pal codes =>
    simp only [exec, execText]
    cases s.cfg.font? k with
    | none => exact faultless_refused _
    | some t => exact (((faultless_next _).guarded _).guarded _).guarded _
  | _ => cases hi

/-- R270: no instruction faults, in any state. -/
theorem exec_faultless (i : Instr) (s : State) : Faultless (exec i s) := by
  cases hi : isOperation i with
  | false => exact exec_framer_faultless hi s
  | true => exact exec_operation_faultless hi s

/-- Settles O9: a step waits, refuses what does not decode, or runs an instruction. -/
theorem noStepFaults : Obligations.NoStepFaults := by
  intro s
  simp only [step]
  cases fetch s with
  | nothing => exact faultless_next s
  | unit i t => exact exec_faultless i t
  | bad e => exact faultless_refused _

/-! ## Pictures that form a coordinate above 65535 -/

/-- R228, U10: the last column or the last row of the picture is beyond 65535. -/
theorem not_pictureFits {x y w h : Nat} (hw : w ≠ 0) (hh : h ≠ 0)
    (hsum : 65536 < x + w ∨ 65536 < y + h) : ¬ pictureFits x y w h = true := by
  simp only [pictureFits, Bool.or_eq_true, beq_iff_eq, decide_eq_true_eq, maxCoord]
  omega

/-- A glyph of a well-formed font has a column and a row (R32). -/
theorem glyph_nonempty {t : Font} (hwf : t.wf = true) : 1 ≤ t.charW ∧ 1 ≤ t.charH := by
  simp only [Font.wf, Bool.and_eq_true, decide_eq_true_eq] at hwf
  exact hwf.1

/-! ## The refusals of R274 -/

section Refusals
variable {s : State} {f : Fb}

/-- `SCROLLUP` beyond the extra rows (R222, U7). -/
theorem exec_scrollup_beyond {h : U16} (hrows : s.cfg.extraRows f < h.toNat) :
    exec (.scrollup f h) s = .refused .beyondExtraRows :=
  if_neg hrows.not_ge

/-- `SCROLLUP` whose source ends beyond row 65535 (U10). -/
theorem exec_scrollup_overflow {h : U16} (hrows : h.toNat ≤ s.cfg.extraRows f)
    (hsum : 65535 < h.toNat + 128) : exec (.scrollup f h) s = .refused .coordinateOverflow :=
  (if_pos hrows).trans (if_neg hsum.not_ge)

/-- `HFILL` outside the store (R240, R241, U8). -/
theorem exec_hfill_outside {x1 y1 x2 y2 : U16} {c : Byte}
    (hout : ¬(x1.toNat ≤ x2.toNat ∧ x2.toNat ≤ screenWidth ∧ y1.toNat ≤ y2.toNat ∧
      y2.toNat ≤ s.cfg.rows f)) : exec (.hfill f x1 y1 x2 y2 c) s = .refused .outsideStore :=
  if_neg hout

section Hcopy
variable {sx sy dx dy nx ny : U16}

/-- `HCOPY` outside the store (R240, R242, U8). -/
theorem exec_hcopy_outside
    (hout : ¬(sx.toNat + nx.toNat ≤ screenWidth ∧ dx.toNat + nx.toNat ≤ screenWidth ∧
      sy.toNat + ny.toNat ≤ s.cfg.rows f ∧ dy.toNat + ny.toNat ≤ s.cfg.rows f)) :
    exec (.hcopy f sx sy dx dy nx ny) s = .refused .outsideStore :=
  if_neg hout

/-- `HCOPY` inside a store so tall that a row sum is beyond 65535 (U10). -/
theorem exec_hcopy_overflow
    (hin : sx.toNat + nx.toNat ≤ screenWidth ∧ dx.toNat + nx.toNat ≤ screenWidth ∧
      sy.toNat + ny.toNat ≤ s.cfg.rows f ∧ dy.toNat + ny.toNat ≤ s.cfg.rows f)
    (hsum : 65535 < sy.toNat + ny.toNat ∨ 65535 < dy.toNat + ny.toNat) :
    exec (.hcopy f sx sy dx dy nx ny) s = .refused .coordinateOverflow :=
  (if_pos hin).trans (if_neg fun ⟨hsy, hdy⟩ => hsum.elim hsy.not_gt hdy.not_gt)

end Hcopy

/-- `COPYRECT` of a non-empty source to a corner from which it extends beyond 65535 (U10). -/
theorem exec_copyrect_overflow {sx1 sy1 sx2 sy2 dx dy : U16} (hc : s.clipOk f = true)
    (hx : sx1.toNat < sx2.toNat) (hy : sy1.toNat < sy2.toNat)
    (hsum : 65535 < dx.toNat + (sx2.toNat - sx1.toNat) ∨
      65535 < dy.toNat + (sy2.toNat - sy1.toNat)) :
    exec (.copyrect f sx1 sy1 sx2 sy2 dx dy) s = .refused .coordinateOverflow := by
  have hsrc : (copyOperands s f sx1 sy1 sx2 sy2 dx dy).emptySource = false :=
    decide_eq_false (not_or.mpr ⟨hx.not_ge, hy.not_ge⟩)
  have hover : copySumOverflows (copyOperands s f sx1 sy1 sx2 sy2 dx dy) = true := by
    rw [copySumOverflows, hsrc]
    exact decide_eq_true hsum
  exact (if_pos hc).trans (if_pos hover)

section Text
variable {x y : U16} {k : Byte} {pal : Palette} {codes : List Byte} {t : Font}

/-- There are four fonts (R32): a fifth is refused (R220, U9). -/
theorem exec_text_noFont (hk : 4 ≤ k.toNat) :
    exec (.text f x y k pal codes) s = .refused .fontIndex := by
  have hfont : s.cfg.font? k = none := Vector.getElem?_eq_none hk
  simp only [exec, execText, hfont]

/-- `TEXT` with an ill-formed font (R32, U9). -/
theorem exec_text_illFormed (hfont : s.cfg.font? k = some t) (hwf : t.wf = false) :
    exec (.text f x y k pal codes) s = .refused .illFormedFont := by
  simp only [exec, execText, hfont, hwf, Bool.false_eq_true, if_false]

/-- `TEXT` whose last glyph ends beyond 65535 (R228, U10). -/
theorem exec_text_overflow (hfont : s.cfg.font? k = some t) (hwf : t.wf = true) (hne : codes ≠ [])
    (hsum : 65536 < x.toNat + codes.length * t.charW ∨ 65536 < y.toNat + t.charH) :
    exec (.text f x y k pal codes) s = .refused .coordinateOverflow := by
  obtain ⟨hw, hh⟩ := glyph_nonempty hwf
  have hlen : 0 < codes.length := List.length_pos_iff.mpr hne
  have hfits := not_pictureFits (Nat.mul_pos hlen hw).ne' (Nat.one_le_iff_ne_zero.mp hh) hsum
  simp only [exec, execText, hfont, hwf, if_true, if_neg hfits]

end Text

section Image
variable {x y w h : U16} {pal : Palette} {data : List Byte}

/-- `IMAGE` with too little data (R217, U9). -/
theorem exec_image_short (hlen : data.length < pictureBytes w.toNat h.toNat) :
    exec (.image f x y w h pal data) s = .refused .shortImageData :=
  if_neg hlen.not_ge

/-- `IMAGE` that ends beyond 65535 (R228, U10). -/
theorem exec_image_overflow (hlen : pictureBytes w.toNat h.toNat ≤ data.length)
    (hw : w.toNat ≠ 0) (hh : h.toNat ≠ 0)
    (hsum : 65536 < x.toNat + w.toNat ∨ 65536 < y.toNat + h.toNat) :
    exec (.image f x y w h pal data) s = .refused .coordinateOverflow :=
  (if_pos hlen).trans (if_neg (not_pictureFits hw hh hsum))

end Image

end Refusals

/-- Settles O55, clause by clause. -/
theorem operandsOutsideThePremiseRefused : Obligations.OperandsOutsideThePremiseRefused :=
  ⟨fun _ _ _ hrows => exec_scrollup_beyond hrows,
    fun _ _ _ _ _ _ _ hout => exec_hfill_outside hout,
    fun _ _ _ _ _ _ _ _ hout => exec_hcopy_outside hout,
    fun _ _ _ _ _ _ _ => ⟨fun hk => exec_text_noFont hk, fun _ hfont =>
      ⟨fun hwf => exec_text_illFormed hfont hwf,
        fun hwf hne hsum => exec_text_overflow hfont hwf hne hsum⟩⟩,
    fun _ _ _ _ _ _ _ _ => ⟨fun hlen => exec_image_short hlen,
      fun hlen hw hh hsum => exec_image_overflow hlen hw hh hsum⟩,
    fun _ _ _ _ _ _ _ _ hc hx hy hsum => exec_copyrect_overflow hc hx hy hsum,
    fun _ _ _ hrows hsum => exec_scrollup_overflow hrows hsum,
    fun _ _ _ _ _ _ _ _ hsx hdx hsy hdy hsum => exec_hcopy_overflow ⟨hsx, hdx, hsy, hdy⟩ hsum⟩

end Sys2Proof.Machine

/-! # The model's own guards: a row outside its state, a primitive under an illegal clip rectangle

No run meets these refusals (notes/assumptions/8.md): the step selects the row by the escape state,
and the clip rectangle of every reachable state obeys R26. -/

namespace Sys2Proof.Machine

open Sys2Proof

/-! ## A row outside its state -/

section OtherStates
variable {s : State} {b : Byte}

/-- The rows of R122 and R123 read `Idle`. -/
theorem exec_idleRows_refused (hesc : s.esc ≠ .idle) :
    exec .idleEsc s = .refused .notInThisState ∧
      exec (.idleChar b) s = .refused .notInThisState := by
  cases hs : s.esc with
  | idle => exact absurd hs hesc
  | _ => simp only [exec, execIdleEsc, execIdleChar, hs, and_self]

/-- The rows of R124 to R127 read `SawEscape`. -/
theorem exec_escRows_refused (hesc : s.esc ≠ .sawEscape) :
    exec .escEsc s = .refused .notInThisState ∧ exec .escCsi s = .refused .notInThisState ∧
      exec .escRi s = .refused .notInThisState ∧
      exec (.escOther b) s = .refused .notInThisState := by
  cases hs : s.esc with
  | sawEscape => exact absurd hs hesc
  | _ => simp only [exec, execEscEsc, execEscCsi, execEscRi, execEscOther, hs, and_self]

/-- The rows of R128 to R130 read `Csi`. -/
theorem exec_csiRows_refused (hesc : ∀ pos, s.esc ≠ .csi pos) :
    exec (.csiParam b) s = .refused .notInThisState ∧
      exec (.csiFinal b) s = .refused .notInThisState ∧
      exec .csiFinalJ s = .refused .notInThisState := by
  cases hs : s.esc with
  | csi pos => exact absurd hs (hesc pos)
  | _ => simp only [exec, execCsiParam, execCsiFinal, execCsiFinalJ, hs, and_self]

/-- The rows of R131 and R132 read a binary frame before its length byte. -/
theorem exec_binLenRows_refused (hesc : s.esc ≠ .binaryFrame 0 0) :
    exec .binLen0 s = .refused .notInThisState ∧
      exec (.binLen b) s = .refused .notInThisState := by
  cases hs : s.esc with
  | binaryFrame pos total =>
    cases pos with
    | succ pos => simp only [exec, execBinLen0, execBinLen, hs, and_self]
    | zero =>
      cases total with
      | succ total => simp only [exec, execBinLen0, execBinLen, hs, and_self]
      | zero => exact absurd hs hesc
  | _ => simp only [exec, execBinLen0, execBinLen, hs, and_self]

/-- `BIN.DATA` (R133) reads a binary frame that has its length and not yet its last byte. -/
theorem exec_binData_refused
    (hesc : ∀ pos total, s.esc = .binaryFrame pos total → ¬(1 ≤ pos ∧ pos < total ∧ total ≤ 256)) :
    exec (.binData b) s = .refused .notInThisState := by
  cases hs : s.esc with
  | binaryFrame pos total => simp only [exec, execBinData, hs, if_neg (hesc pos total hs)]
  | _ => simp only [exec, execBinData, hs]

/-- `WBB.MATCH` (R134) reads the banner watch at the banner byte it is given. -/
theorem exec_wbbMatch_refused (hesc : ∀ k, s.esc = .watching k → s.cfg.banner[k]? ≠ some b) :
    exec (.wbbMatch b) s = .refused .notInThisState := by
  cases hs : s.esc with
  | watching k => simp only [exec, execWbbMatch, hs, if_neg (hesc k hs)]
  | _ => simp only [exec, execWbbMatch, hs]

/-- `WBB.MISS` (R135) reads the banner watch at a banner byte other than the one it is given. -/
theorem exec_wbbMiss_refused
    (hesc : ∀ k, s.esc = .watching k → s.cfg.banner[k]? = none ∨ s.cfg.banner[k]? = some b) :
    exec (.wbbMiss b) s = .refused .notInThisState := by
  cases hs : s.esc with
  | watching k =>
    obtain hk | hk := hesc k hs
    · simp only [exec, execWbbMiss, hs, hk]
    · simp only [exec, execWbbMiss, hs, hk, if_true]
  | _ => simp only [exec, execWbbMiss, hs]

end OtherStates

/-- Settles O18, the rows of one escape state after the other. -/
theorem framerRefusesOtherStates : Obligations.FramerRefusesOtherStates :=
  fun _ _ => ⟨exec_idleRows_refused, exec_escRows_refused, exec_csiRows_refused,
    exec_binLenRows_refused, exec_binData_refused, exec_wbbMatch_refused, exec_wbbMiss_refused⟩

/-! ## A primitive under an illegal clip rectangle -/

section IllegalClip
variable {s : State} {f : Fb}

/-- The guard that every clipped primitive puts before its drawing. -/
theorem clipGuard_refused (hclip : s.clipOk f = false) (o : Outcome) :
    (if s.clipOk f then o else .refused .illegalClipState) = .refused .illegalClipState :=
  if_neg (ne_true_of_eq_false hclip)

/-- `TEXT` with a well-formed font whose pixels all fit (R220). -/
theorem exec_text_illegalClip {x y : U16} {k : Byte} {pal : Palette} {codes : List Byte} {t : Font}
    (hclip : s.clipOk f = false) (hfont : s.cfg.font? k = some t) (hwf : t.wf = true)
    (hfits : pictureFits x.toNat y.toNat (codes.length * t.charW) t.charH = true) :
    exec (.text f x y k pal codes) s = .refused .illegalClipState := by
  simp only [exec, execText, hfont, if_pos hwf, if_pos hfits]
  exact clipGuard_refused hclip _

/-- `IMAGE` with enough data whose pixels all fit (R221). -/
theorem exec_image_illegalClip {x y w h : U16} {pal : Palette} {data : List Byte}
    (hclip : s.clipOk f = false) (hlen : pictureBytes w.toNat h.toNat ≤ data.length)
    (hfits : pictureFits x.toNat y.toNat w.toNat h.toNat = true) :
    exec (.image f x y w h pal data) s = .refused .illegalClipState :=
  (if_pos hlen).trans ((if_pos hfits).trans (clipGuard_refused hclip _))

end IllegalClip

/-- Settles O56: five primitives ask for the clip rectangle first, `TEXT` and `IMAGE` after their
operands' premises. -/
theorem illegalClipRefused : Obligations.IllegalClipRefused :=
  fun _ _ _ _ _ _ _ _ _ _ _ hclip => ⟨clipGuard_refused hclip _, clipGuard_refused hclip _,
    clipGuard_refused hclip _, clipGuard_refused hclip _, clipGuard_refused hclip _,
    fun _ _ _ _ hfont hwf hfits => exec_text_illegalClip hclip hfont hwf hfits,
    fun _ _ _ _ hlen hfits => exec_image_illegalClip hclip hlen hfits⟩

end Sys2Proof.Machine
